-- ==== Sys2Proof/Word.lean ====
section
/-! DEFINITION. The widths that cross a port or sit in a cell (rules R12, R13, R83): whole 32-bit words and
16-bit Q15 samples. Nothing narrower or wider is ever accessed. -/

namespace Sys2Proof

/-- A 32-bit word: a command, operand or response word, or a sample container (rules R12, R83). -/
abbrev Word := BitVec 32

/-- A 16-bit cell or register holding an s16 value in two's complement (rule R13). -/
abbrev S16 := BitVec 16

/-- An 8-bit field: opcode, operand A, bit depth, parameter identifier, status code (rules R100, R103). -/
abbrev Octet := BitVec 8

end Sys2Proof
end

