-- ==== Sys2Proof/Syntax.lean ====
section
/-! DEFINITION. The twelve commands of rule R107, one constructor per row of spec/opcode_table.json, with the
operands of rules R101 and R108. -/

namespace Sys2Proof

/-- The ring selector R of rule R101: 0 selects IN, 1 selects OUT. -/
inductive RingSel where
  | ringIn
  | ringOut
deriving DecidableEq, Repr

/-- One frame as it crosses a port: the left container first, then the right (rule R20). -/
structure Frame where
  left : Word
  right : Word
deriving DecidableEq, Repr

/-- A command with its operands. The counts n of RB_PUSH and F of FX_PROCESS are the lengths of their data. -/
inductive Instr where
  /-- RB_PUSH (R132): ring and the n data words. -/
  | rbPush (r : RingSel) (data : List Word)
  /-- RB_POP (R133): ring and count n. -/
  | rbPop (r : RingSel) (n : BitVec 16)
  /-- RB_SIZE (R134). -/
  | rbSize (r : RingSel)
  /-- RB_FREE (R135). -/
  | rbFree (r : RingSel)
  /-- FX_NAME (R162). -/
  | fxName
  /-- FX_INIT (R163). -/
  | fxInit
  /-- FX_SET_FORMAT (R165): bit depth D and sample rate S. -/
  | fxSetFormat (d : Octet) (rate : BitVec 32)
  /-- FX_SET_ENABLED (R168): boolean E. -/
  | fxSetEnabled (e : Bool)
  /-- FX_SET_PARAM (R169): identifier ID and value V (two's complement). -/
  | fxSetParam (id : Octet) (v : S16)
  /-- FX_PROCESS (R171): the F input frames. -/
  | fxProcess (frames : List Frame)
  /-- TASK_STEP (R270). -/
  | taskStep
  /-- SOF_TICK (R281). -/
  | sofTick
deriving DecidableEq, Repr

end Sys2Proof
end

