-- ==== Sys2Proof/WellFormed.lean ====
section
/-! DEFINITION. What makes a command encodable: the counts n and F fit the 16-bit field B (rules R101, R108, R109).
Every other operand is exactly as wide as its field, so it needs no check (rule R112: no operand value is reserved). -/

namespace Sys2Proof

/-- The counts of RB_PUSH and FX_PROCESS are at most 65535 (rules R108, R109, decision D52). -/
abbrev Instr.WellFormed : Instr → Prop
  | .rbPush _ data => data.length < 2 ^ 16
  | .rbPop _ _ => True
  | .rbSize _ => True
  | .rbFree _ => True
  | .fxName => True
  | .fxInit => True
  | .fxSetFormat _ _ => True
  | .fxSetEnabled _ => True
  | .fxSetParam _ _ => True
  | .fxProcess frames => frames.length < 2 ^ 16
  | .taskStep => True
  | .sofTick => True

end Sys2Proof
end

