-- ==== Sys2Proof/Decode.lean ====
section
/-! DEFINITION. The decoder of rules R100 to R112, total on any list of words, and the encoder written from the same
tables. A word list decodes to a command, to a rejection by name (ILLEGAL, rule R112), or to "not all there yet"
(93_implementation_defined.md U6). -/

namespace Sys2Proof

/-- OPC, bits 31:24 (rule R100). -/
def fieldOpc (w : Word) : Octet := w.extractLsb' 24 8

/-- A, bits 23:16 (rule R100). -/
def fieldA (w : Word) : Octet := w.extractLsb' 16 8

/-- B, bits 15:0 (rule R100). -/
def fieldB (w : Word) : BitVec 16 := w.extractLsb' 0 16

/-- A[0]: the ring selector of FR and FQ, the boolean of FE (rule R101). -/
def fieldBit (w : Word) : Bool := w.getLsbD 16

/-- The command word with the three fields given (rule R100). -/
def commandWord (opc a : Octet) (b : BitVec 16) : Word := opc ++ a ++ b

/-- The twelve assigned opcodes (rule R107). -/
inductive Opcode where
  | rbPush | rbPop | rbSize | rbFree
  | fxName | fxInit | fxSetFormat | fxSetEnabled | fxSetParam | fxProcess
  | taskStep | sofTick
deriving DecidableEq, Repr

/-- The seven formats (rule R101). -/
inductive Format where
  | f0 | fq | fr | fe | fp | ff | fd
deriving DecidableEq, Repr

/-- The opcode map of rule R107, by value; every other value is unassigned. -/
def opcodeOf (o : Octet) : Option Opcode :=
  if o = 0x01#8 then some .rbPush
  else if o = 0x02#8 then some .rbPop
  else if o = 0x03#8 then some .rbSize
  else if o = 0x04#8 then some .rbFree
  else if o = 0x10#8 then some .fxName
  else if o = 0x11#8 then some .fxInit
  else if o = 0x12#8 then some .fxSetFormat
  else if o = 0x13#8 then some .fxSetEnabled
  else if o = 0x14#8 then some .fxSetParam
  else if o = 0x15#8 then some .fxProcess
  else if o = 0x20#8 then some .taskStep
  else if o = 0x21#8 then some .sofTick
  else none

/-- The opcode value of rule R107. -/
def opcodeValue : Opcode → Octet
  | .rbPush => 0x01#8
  | .rbPop => 0x02#8
  | .rbSize => 0x03#8
  | .rbFree => 0x04#8
  | .fxName => 0x10#8
  | .fxInit => 0x11#8
  | .fxSetFormat => 0x12#8
  | .fxSetEnabled => 0x13#8
  | .fxSetParam => 0x14#8
  | .fxProcess => 0x15#8
  | .taskStep => 0x20#8
  | .sofTick => 0x21#8

/-- The format column of rule R107. -/
def formatOf : Opcode → Format
  | .rbPush => .fr
  | .rbPop => .fr
  | .rbSize => .fq
  | .rbFree => .fq
  | .fxName => .f0
  | .fxInit => .f0
  | .fxSetFormat => .ff
  | .fxSetEnabled => .fe
  | .fxSetParam => .fp
  | .fxProcess => .fd
  | .taskStep => .f0
  | .sofTick => .f0

/-- The "must be 0" fields of a format (rule R101) are 0 in the command word. -/
def reservedZero (f : Format) (w : Word) : Bool :=
  match f with
  | .f0 => fieldA w == 0#8 && fieldB w == 0#16
  | .fq => w.extractLsb' 17 7 == 0#7 && fieldB w == 0#16
  | .fr => w.extractLsb' 17 7 == 0#7
  | .fe => w.extractLsb' 17 7 == 0#7 && fieldB w == 0#16
  | .fp => true
  | .ff => fieldB w == 0#16
  | .fd => fieldA w == 0#8

/-- `len(w)` of rule R110, in words; it depends on the command word alone. -/
def cmdLen (w : Word) : Nat :=
  if fieldOpc w = 0x01#8 then 1 + (fieldB w).toNat
  else if fieldOpc w = 0x12#8 then 2
  else if fieldOpc w = 0x15#8 then 1 + 2 * (fieldB w).toNat
  else 1

/-- The ring selected by R (rule R101). -/
def ringOfBit (b : Bool) : RingSel := if b then .ringOut else .ringIn

/-- R of a ring (rule R101). -/
def bitOfRing : RingSel → Bool
  | .ringIn => false
  | .ringOut => true

/-- Operand A carrying one bit in A[0], A[7:1] = 0 (formats FQ, FR, FE). -/
def octetOfBit (b : Bool) : Octet := if b then 1#8 else 0#8

/-- Pair data words into frames, left then right (format FD); an odd last word is left over. -/
def framesOf : List Word → List Frame
  | l :: r :: rest => ⟨l, r⟩ :: framesOf rest
  | _ => []

/-- The data words of frames, frame by frame, left then right (format FD, rule R20). -/
def wordsOf : List Frame → List Word
  | [] => []
  | f :: fs => f.left :: f.right :: wordsOf fs

/-- The command of an opcode from its command word and its operand words (rules R101, R108). -/
def buildInstr (o : Opcode) (w : Word) (ops : List Word) : Instr :=
  match o with
  | .rbPush => .rbPush (ringOfBit (fieldBit w)) ops
  | .rbPop => .rbPop (ringOfBit (fieldBit w)) (fieldB w)
  | .rbSize => .rbSize (ringOfBit (fieldBit w))
  | .rbFree => .rbFree (ringOfBit (fieldBit w))
  | .fxName => .fxName
  | .fxInit => .fxInit
  | .fxSetFormat => .fxSetFormat (fieldA w) (ops.headD 0)
  | .fxSetEnabled => .fxSetEnabled (fieldBit w)
  | .fxSetParam => .fxSetParam (fieldA w) (fieldB w)
  | .fxProcess => .fxProcess (framesOf ops)
  | .taskStep => .taskStep
  | .sofTick => .sofTick

/-- Why a command word is ILLEGAL (rule R112), in the check order of rule R111. -/
inductive IllegalReason where
  /-- The opcode is not one of the twelve of rule R107. -/
  | unassignedOpcode
  /-- A "must be 0" field of the opcode's format is not 0 (rule R101). -/
  | reservedFieldNonZero
deriving DecidableEq, Repr

/-- What the front of a port's command stream holds. -/
inductive Decoded where
  /-- Not all words of the command are there: the port waits (93_implementation_defined.md U6). -/
  | incomplete
  /-- An illegal command; its operand words are consumed (rule R111), `rest` follows it. -/
  | illegal (why : IllegalReason) (rest : List Word)
  /-- A command, and the words that follow it. -/
  | command (i : Instr) (rest : List Word)
deriving DecidableEq, Repr

/-- Take the first n words, or none when fewer are there. -/
def splitWords : Nat → List Word → Option (List Word × List Word)
  | 0, ws => some ([], ws)
  | _ + 1, [] => none
  | n + 1, w :: ws =>
    match splitWords n ws with
    | none => none
    | some (ops, rest) => some (w :: ops, rest)

/-- The two ILLEGAL checks of rule R111, in order, then the operands. -/
def decodeCommand (w : Word) (ops rest : List Word) : Decoded :=
  match opcodeOf (fieldOpc w) with
  | none => .illegal .unassignedOpcode rest
  | some o =>
    if reservedZero (formatOf o) w then .command (buildInstr o w ops) rest
    else .illegal .reservedFieldNonZero rest

/-- Decode the front of a command stream (rule R111): all operand words are consumed first. -/
def decode : List Word → Decoded
  | [] => .incomplete
  | w :: ws =>
    match splitWords (cmdLen w - 1) ws with
    | none => .incomplete
    | some (ops, rest) => decodeCommand w ops rest

/-- The words of a command (rules R100, R101, R107), command word first. -/
def encode : Instr → List Word
  | .rbPush r data =>
    commandWord (opcodeValue .rbPush) (octetOfBit (bitOfRing r)) (BitVec.ofNat 16 data.length) :: data
  | .rbPop r n => [commandWord (opcodeValue .rbPop) (octetOfBit (bitOfRing r)) n]
  | .rbSize r => [commandWord (opcodeValue .rbSize) (octetOfBit (bitOfRing r)) 0]
  | .rbFree r => [commandWord (opcodeValue .rbFree) (octetOfBit (bitOfRing r)) 0]
  | .fxName => [commandWord (opcodeValue .fxName) 0 0]
  | .fxInit => [commandWord (opcodeValue .fxInit) 0 0]
  | .fxSetFormat d rate => [commandWord (opcodeValue .fxSetFormat) d 0, rate]
  | .fxSetEnabled e => [commandWord (opcodeValue .fxSetEnabled) (octetOfBit e) 0]
  | .fxSetParam id v => [commandWord (opcodeValue .fxSetParam) id v]
  | .fxProcess frames =>
    commandWord (opcodeValue .fxProcess) 0 (BitVec.ofNat 16 frames.length) :: wordsOf frames
  | .taskStep => [commandWord (opcodeValue .taskStep) 0 0]
  | .sofTick => [commandWord (opcodeValue .sofTick) 0 0]

/-- Word k of an instruction whose first `nbits` bits are `v`, numbered from the least significant bit of the first
word; every bit from `nbits` on is 0. -/
def tableWordAt (nbits v k : Nat) : Word := BitVec.ofNat 32 ((v % 2 ^ nbits) >>> (32 * k))

/-- `n` words from word `k` on. -/
def tableWordsFrom (nbits v : Nat) : Nat → Nat → List Word
  | 0, _ => []
  | n + 1, k => tableWordAt nbits v k :: tableWordsFrom nbits v n (k + 1)

/-- The whole instruction: its command word and as many operand words as rule R110 gives it. -/
def tableWords (nbits v : Nat) : List Word :=
  tableWordAt nbits v 0 :: tableWordsFrom nbits v (cmdLen (tableWordAt nbits v 0) - 1) 1

/-- The instruction the decoder reads from an instruction whose bits are `w`, numbered as spec/opcode_table.json
numbers them; `none` where the decoder refuses. -/
def decodeTableWord (nbits w : Nat) : Option Instr :=
  match decode (tableWords nbits w) with
  | .command i _ => some i
  | .illegal _ _ => none
  | .incomplete => none

end Sys2Proof
end

