-- ==== Sys2Proof/Config.lean ====
section
/-! DEFINITION. The build parameters of rules R8 and R9, the constants the source fixes (R8), and the three test
configurations of rule R10. The gain law FB_GAIN of rule R9 is no field: rule R193 determines its values, and
Machine/Reverb.lean computes them (log 13). -/

namespace Sys2Proof

/-- ACTIVE_FX: the one effect variant the engine is built with (rules R9, R160). -/
inductive Variant where
  | reverb
  | granular
deriving DecidableEq, Repr

/-- The reference tables of one channel (rule R9): comb lengths and decay times, allpass lengths, at REF_RATE. -/
structure ChannelTables where
  /-- COMB_REF_LEN[c][0..7], in samples. -/
  combRefLen : List Nat
  /-- T60_MS[c][0..7], in milliseconds. -/
  t60Ms : List Nat
  /-- AP_REF_LEN[c][0..3], in samples. -/
  apRefLen : List Nat
deriving DecidableEq, Repr

/-- One build of the block: every parameter of rules R8 and R9 that an instance may choose. -/
structure Config where
  /-- RING_N, the cells of a ring (R8). -/
  ringN : Nat
  /-- QUANTUM_FRAMES, the frames of a processing quantum (R8). -/
  quantumFrames : Nat
  /-- ACTIVE_FX. -/
  activeFx : Variant
  /-- REF_RATE, in Hz. -/
  refRate : Nat
  /-- PD_REF_LEN, both channels. -/
  pdRefLen : Nat
  /-- Tables of channel 0. -/
  left : ChannelTables
  /-- Tables of channel 1. -/
  right : ChannelTables
  /-- COMB_OUT_GAIN, Q15. -/
  combOutGain : S16
  /-- MAX_PD_LEN. -/
  maxPdLen : Nat
  /-- MAX_COMB_LEN. -/
  maxCombLen : Nat
  /-- MAX_AP_LEN. -/
  maxApLen : Nat
  /-- CAP_LEN. -/
  capLen : Nat
  /-- GRAIN_FADE. -/
  grainFade : Nat
  /-- GRAIN_LEN_RESET. -/
  grainLenReset : Nat
  /-- GRAIN_DENSITY_RESET. -/
  grainDensityReset : Nat
  /-- GDRY_RESET, Q15. -/
  gdryReset : S16
  /-- GWET_RESET, Q15. -/
  gwetReset : S16
  /-- RNG_SEED. -/
  rngSeed : BitVec 32
deriving DecidableEq, Repr

/-- NCOMB (rule R8). -/
def nComb : Nat := 8
/-- NAP (rule R8). -/
def nAp : Nat := 4
/-- NGRAIN (rule R8). -/
def nGrain : Nat := 8
/-- CADENCE_HZ (rule R8). -/
def cadenceHz : Nat := 1000
/-- DEFAULT_RATE (rule R8). -/
def defaultRate : Nat := 48000

/-- TC-R of rule R10. Its granular parameters, which rule R10 does not give for TC-R, are those of TC-G (log 2). -/
def Config.tcR : Config where
  ringN := 768
  quantumFrames := 48
  activeFx := .reverb
  refRate := 48000
  pdRefLen := 2
  left := ⟨[3, 5, 7, 11, 13, 17, 19, 23], [1, 2, 3, 4, 5, 6, 7, 1000], [2, 3, 5, 7]⟩
  right := ⟨[5, 7, 11, 13, 17, 19, 23, 29], [1, 2, 3, 4, 5, 6, 7, 1000], [3, 5, 7, 11]⟩
  combOutGain := 4096
  maxPdLen := 4096
  maxCombLen := 4096
  maxApLen := 4096
  capLen := 16
  grainFade := 2
  grainLenReset := 6
  grainDensityReset := 2
  gdryReset := 16384
  gwetReset := 16384
  rngSeed := 1

/-- TC-G of rule R10. Its reverb parameters, which rule R10 does not give for TC-G, are those of TC-R (log 2). -/
def Config.tcG : Config := { Config.tcR with activeFx := .granular }

/-- TC-S of rule R10: a configuration with the small geometry. -/
def Config.small (c : Config) : Config := { c with ringN := 8, quantumFrames := 2 }

end Sys2Proof
end

