-- ==== Sys2Proof/Machine/State.lean ====
section
/-! DEFINITION. The state of the block (10_state.md), plain data, its reset values (rule R61), and the reasons a step
can stop. Widths follow the spec: a register the spec gives a bit width is a bit vector of that width; an index,
cursor, length or counter that the spec calls an integer in a range is a Nat (log 20). -/

namespace Sys2Proof.Machine

/-- The three ports, one per agent (rule R7). -/
inductive Port where
  | rx
  | tx
  | ctl
deriving DecidableEq, Repr

/-- One port: its command stream from the command pointer on, CP_p, and its response stream (rules R41, R80). -/
structure PortState where
  /-- Words received and not yet taken by a command, oldest first; a partly received command waits here. -/
  pending : List Word
  /-- CP_p: how many words of the command stream have been taken (rule R41). -/
  cp : Nat
  /-- The response words emitted so far, oldest first (rule R102, log 6). -/
  resp : List Word
deriving DecidableEq, Repr

/-- One ring (rule R42). -/
structure Ring where
  /-- buf[0..RING_N-1]. -/
  buf : List Word
  /-- The read index. -/
  rd : Nat
  /-- The write index. -/
  wr : Nat
deriving DecidableEq, Repr

/-- One delay line with its length register and its cursor (rules R50, R51, R52). -/
structure DelayLine where
  len : Nat
  cells : List S16
  idx : Nat
deriving DecidableEq, Repr

/-- One comb (rule R51): CB_LEN, CB and CB_IDX in `line`, CB_G, CB_FILT. -/
structure Comb where
  line : DelayLine
  gain : S16
  filt : S16
deriving DecidableEq, Repr

/-- One channel of the reverb (rule R190): pre-delay, combs 0..7, allpasses 0..3. -/
structure ReverbChannel where
  pd : DelayLine
  combs : List Comb
  aps : List DelayLine
deriving DecidableEq, Repr

/-- The reverb's registers and its two channels (rules R48 to R52). -/
structure ReverbState where
  /-- RV_DRY. -/
  dry : S16
  /-- RV_WET. -/
  wet : S16
  /-- RV_DAMP. -/
  damp : S16
  /-- RV_APG. -/
  apg : S16
  /-- RV_MASTER, Q14. -/
  master : S16
  /-- RV_EN. -/
  en : Bool
  /-- Channel 0. -/
  left : ReverbChannel
  /-- Channel 1. -/
  right : ReverbChannel
deriving DecidableEq, Repr

/-- One grain slot (rule R56). -/
structure Grain where
  /-- G_ACT. -/
  act : Bool
  /-- G_EL. -/
  el : Nat
  /-- G_ST. -/
  st : Nat
deriving DecidableEq, Repr

/-- The granular effect's registers and storage (rules R53 to R57). -/
structure GranularState where
  /-- GR_DRY. -/
  dry : S16
  /-- GR_WET. -/
  wet : S16
  /-- GR_DENSITY. -/
  density : S16
  /-- GR_LEN. -/
  grainLen : S16
  /-- GR_FROZEN. -/
  frozen : Bool
  /-- CAP[0..CAP_LEN-1]. -/
  cap : List S16
  /-- WC. -/
  wc : Nat
  /-- Grain slots 0..7. -/
  grains : List Grain
  /-- RNG. -/
  rng : BitVec 32
deriving DecidableEq, Repr

/-- The configuration input bundle CFG (rule R104). -/
structure CfgInput where
  rate : BitVec 32
  bits : Octet
  ch : Octet
deriving DecidableEq, Repr

/-- One thing the outside world does to the block between two commands (log 3). -/
inductive Arrival where
  /-- Words appear at the ports at one instant (rule R88). -/
  | words (rx tx ctl : List Word)
  /-- The transport drives a new value on CFG (rule R104). -/
  | cfg (c : CfgInput)
  /-- The freeze/bypass collaborator drives a new value on CTL_IN (rule R105). -/
  | ctlIn (b : Bool)
  /-- The reset input (rule R330). -/
  | reset
deriving DecidableEq, Repr

/-- The whole block. -/
structure State where
  /-- The build parameters (rules R8, R9); no step writes them (log 1). -/
  cfg : Config
  /-- Port RX. -/
  rx : PortState
  /-- Port TX. -/
  tx : PortState
  /-- Port CTL. -/
  ctl : PortState
  /-- MODEL'S OWN: the port whose command is being executed, the p of rule R111 (log 5). -/
  issuer : Port
  /-- Ring IN. -/
  ringIn : Ring
  /-- Ring OUT. -/
  ringOut : Ring
  /-- CUR_RATE (rule R45). -/
  curRate : BitVec 32
  /-- ACC (rule R46). -/
  acc : BitVec 32
  /-- FX_INITED (rule R47). -/
  fxInited : Bool
  /-- FX_FATAL (rule R47). -/
  fxFatal : Bool
  /-- FX_RATE (rule R47). -/
  fxRate : BitVec 32
  /-- FX_BITS (rule R47). -/
  fxBits : Octet
  /-- Reverb state (rules R48 to R52). -/
  reverb : ReverbState
  /-- Granular state (rules R53 to R57). -/
  granular : GranularState
  /-- The level on CFG (rule R104). -/
  cfgIn : CfgInput
  /-- The level on CTL_IN (rule R105). -/
  ctlIn : Bool
  /-- MODEL'S OWN: what the outside world does next, in order (log 3). -/
  arrivals : List Arrival
deriving DecidableEq, Repr

/-- Faults: there are none. "The block never traps, never raises an interrupt, never halts" (rule R304); every failure
is a status code in the response of its command. No one raises a fault; safe, as it says the machine goes on. -/
inductive Fault where
deriving DecidableEq, Repr

/-- Reasons the model gives no meaning. -/
inductive Refusal where
  /-- An arm of exec that has no meaning yet. Raised by no arm of this model. Safe: the machine stops by name. -/
  | notModelled (mnemonic : String)
  /-- The build configuration breaks rule R11, which says a model refuses it (93_implementation_defined.md U7), or a range
  of rule R9 (DEDUCED, log 15).
  Raised by `step` before anything is fetched. Safe: no claim is made about such a build. -/
  | illFormedConfiguration
deriving DecidableEq, Repr

/-- What a meaning answers. -/
abbrev Result := Host.Outcome State Fault Refusal

/-- A port after reset: the first word of its stream is next, no partial command held (rule R61). -/
def PortState.reset : PortState := ⟨[], 0, []⟩

/-- A ring after reset: empty (rule R61); its cells are unspecified there, 0 here (log 9). -/
def Ring.reset (ringN : Nat) : Ring := ⟨List.replicate ringN 0, 0, 0⟩

/-- A delay line that FX_INIT has not built: unspecified in rule R61; here one cell of 0 (log 10). -/
def DelayLine.unbuilt : DelayLine := ⟨1, [0], 0⟩

/-- A comb that FX_INIT has not built (log 10). -/
def Comb.unbuilt : Comb := ⟨DelayLine.unbuilt, 0, 0⟩

/-- A reverb channel that FX_INIT has not built (log 10). -/
def ReverbChannel.unbuilt : ReverbChannel :=
  ⟨DelayLine.unbuilt, List.replicate nComb Comb.unbuilt, List.replicate nAp DelayLine.unbuilt⟩

/-- The reverb after reset: the defaults of rule R48, enabled (rule R49), nothing built (log 10). -/
def ReverbState.reset : ReverbState where
  dry := 16384
  wet := 16384
  damp := 13107
  apg := 16384
  master := 24576
  en := true
  left := ReverbChannel.unbuilt
  right := ReverbChannel.unbuilt

/-- An idle grain slot (rule R232; unspecified at reset, log 11). -/
def Grain.idle : Grain := ⟨false, 0, 0⟩

/-- The granular effect after reset: the build's parameter values (rules R53, R61), not frozen, nothing captured
(log 11). -/
def GranularState.reset (c : Config) : GranularState where
  dry := c.gdryReset
  wet := c.gwetReset
  density := BitVec.ofNat 16 c.grainDensityReset
  grainLen := BitVec.ofNat 16 c.grainLenReset
  frozen := false
  cap := List.replicate c.capLen 0
  wc := 0
  grains := List.replicate nGrain Grain.idle
  rng := c.rngSeed

/-- The block built with configuration `c`, right after reset (rule R61). -/
def State.resetOf (c : Config) : State where
  cfg := c
  rx := PortState.reset
  tx := PortState.reset
  ctl := PortState.reset
  issuer := .ctl
  ringIn := Ring.reset c.ringN
  ringOut := Ring.reset c.ringN
  curRate := 0
  acc := 0
  fxInited := false
  fxFatal := false
  fxRate := BitVec.ofNat 32 defaultRate
  fxBits := 0
  reverb := ReverbState.reset
  granular := GranularState.reset c
  cfgIn := ⟨0, 0, 0⟩
  ctlIn := false
  arrivals := []

/-- The machine right after reset, in the spec's own test build TC-R (rule R10; DESIGN CHOICE, log 1). -/
def State.reset : State := State.resetOf Config.tcR

end Sys2Proof.Machine
end

