-- ==== Sys2Proof/Machine/Flags.lean ====
section
/-! DEFINITION. Status codes and outcome codes (rules R103, R271, R282, R300), the port permission table (rule R106),
and the one-bit engine state (rule R58). The block has no condition codes. -/

namespace Sys2Proof.Machine

/-- The status codes of rule R300. -/
inductive Status where
  | ok
  | capacity
  | illegal
  | port
  | notInit
  | fatal
  | badArg
deriving DecidableEq, Repr

/-- The value of a status code (rule R300). -/
def statusCode : Status → Octet
  | .ok => 0x00#8
  | .capacity => 0x01#8
  | .illegal => 0x02#8
  | .port => 0x03#8
  | .notInit => 0x04#8
  | .fatal => 0x05#8
  | .badArg => 0x06#8

/-- The status word `0x0000 :: INFO :: ST` (rule R103). -/
def statusWord (st : Status) (info : Octet) : Word := (0 : BitVec 16) ++ info ++ statusCode st

/-- The TASK_STEP outcomes of rule R271. -/
inductive TaskOutcome where
  | processed
  | idle
  | formatChangeSkip
  | unconfigured
  | refused
deriving DecidableEq, Repr

/-- INFO of a TASK_STEP outcome (rule R271). -/
def taskInfo : TaskOutcome → Octet
  | .processed => 0x00#8
  | .idle => 0x01#8
  | .formatChangeSkip => 0x02#8
  | .unconfigured => 0x03#8
  | .refused => 0x04#8

/-- INFO of a SOF_TICK with m of K frames available (rules R281, R282). -/
def fillInfo (k m : Nat) : Octet :=
  if m < k then (if 0 < m then 0x01#8 else 0x02#8) else 0x00#8

/-- RB_PUSH: IN from RX, OUT from CTL (rule R106). -/
def mayPush (p : Port) (r : RingSel) : Bool :=
  match r, p with
  | .ringIn, .rx => true
  | .ringOut, .ctl => true
  | _, _ => false

/-- RB_POP: IN from CTL, OUT from TX (rule R106). -/
def mayPop (p : Port) (r : RingSel) : Bool :=
  match r, p with
  | .ringIn, .ctl => true
  | .ringOut, .tx => true
  | _, _ => false

/-- RB_SIZE and RB_FREE: IN from RX or CTL, OUT from TX or CTL (rule R106). -/
def mayQuery (p : Port) (r : RingSel) : Bool :=
  match r, p with
  | .ringIn, .rx => true
  | .ringOut, .tx => true
  | _, .ctl => true
  | _, _ => false

/-- The FX_ commands and TASK_STEP: CTL only (rule R106). -/
def mayControl (p : Port) : Bool :=
  match p with
  | .ctl => true
  | _ => false

/-- SOF_TICK: TX only (rule R106). -/
def mayTick (p : Port) : Bool :=
  match p with
  | .tx => true
  | _ => false

/-- The state effect of FX_SET_ENABLED (rule R168): RV_EN for REVERB, GR_FROZEN for GRANULAR. -/
def setEnabled (e : Bool) (s : State) : State :=
  match s.cfg.activeFx with
  | .reverb => { s with reverb := { s.reverb with en := e } }
  | .granular => { s with granular := { s.granular with frozen := e } }

/-- The state effect of FX_SET_FORMAT with a non-zero rate (rule R165): for REVERB the built state is invalidated. -/
def setFormat (d : Octet) (rate : BitVec 32) (s : State) : State :=
  match s.cfg.activeFx with
  | .reverb => { s with fxBits := d, fxRate := rate, fxInited := false }
  | .granular => { s with fxBits := d, fxRate := rate }

end Sys2Proof.Machine
end

