-- ==== Sys2Proof/Machine/Operands.lean ====
section
/-! DEFINITION. Values and sample containers (rules R13 to R18): exact integer arithmetic, floor shifts and
divisions, saturation where a rule says so, and the two views of a 32-bit container. -/

namespace Sys2Proof.Machine

/-- The clamp of rule R14, before the value is stored in 16 bits. -/
def clamp16 (v : Int) : Int :=
  if v > 32767 then 32767 else if v < -32768 then -32768 else v

/-- `sat16` of rule R14, as the s16 cell that holds the result. -/
def sat16 (v : Int) : S16 := BitVec.ofInt 16 (clamp16 v)

/-- `asr(v, k)` of rule R15: floor(v / 2^k). -/
def asr (v : Int) (k : Nat) : Int := v / 2 ^ k

/-- `fdiv(a, b)` of rule R15, for b > 0: floor(a / b). -/
def fdiv (a b : Int) : Int := a / b

/-- `a mod b` of rule R15, for b > 0: in 0..b-1. -/
def fmodNat (a : Int) (b : Nat) : Nat := (a % (b : Int)).toNat

/-- `qmul(a, b)` of rule R16, not saturated. -/
def qmul (a b : Int) : Int := asr (a * b) 15

/-- `q15(w)` of rule R17: the s16 cell in bits 31:16 of a container. -/
def q15 (w : Word) : S16 := w.extractLsb' 16 16

/-- `cont(q)` of rule R18: q in bits 31:16, zero padding. -/
def cont (q : S16) : Word := q ++ (0 : BitVec 16)

end Sys2Proof.Machine
end

