-- ==== Sys2Proof/Machine/Ops.lean ====
section
/-! DEFINITION. The named operations over ports, rings and delay lines. The block takes no exception and has none to
return from (rule R304): what stands in that place is `reject`, the one way a command that fails a check ends, a
status word and nothing else (rules R302, R306). -/

namespace Sys2Proof.Machine

/-! ### Ports -/

/-- Read a port. -/
def getPort (p : Port) (s : State) : PortState :=
  match p with
  | .rx => s.rx
  | .tx => s.tx
  | .ctl => s.ctl

/-- Write a port. -/
def setPort (p : Port) (v : PortState) (s : State) : State :=
  match p with
  | .rx => { s with rx := v }
  | .tx => { s with tx := v }
  | .ctl => { s with ctl := v }

/-- Append response words to a port's response stream (rule R19, `Emit`, word after word). -/
def PortState.emit (ws : List Word) (v : PortState) : PortState := { v with resp := v.resp ++ ws }

/-- Append words to the response stream of the issuing port (rule R19). -/
def emit (ws : List Word) (s : State) : State :=
  setPort s.issuer ((getPort s.issuer s).emit ws) s

/-- The whole response of a command: one status word, then its data words (rules R102, R103). -/
def respond (st : Status) (info : Octet) (data : List Word) (s : State) : State :=
  emit (statusWord st info :: data) s

/-- A command that fails a check: its status word and no other effect (rules R302, R306). -/
def reject (st : Status) (s : State) : State := respond st 0 [] s

/-- The port check of rule R111: a command not permitted on the issuing port answers PORT and does nothing. -/
def ifPermitted (permitted : Bool) (s : State) (body : Result) : Result :=
  if permitted then body else .next (reject .port s)

/-! ### Rings (rules R43, R130, R131) -/

/-- Read a ring. -/
def getRing (r : RingSel) (s : State) : Ring :=
  match r with
  | .ringIn => s.ringIn
  | .ringOut => s.ringOut

/-- Write a ring. -/
def setRing (r : RingSel) (v : Ring) (s : State) : State :=
  match r with
  | .ringIn => { s with ringIn := v }
  | .ringOut => { s with ringOut := v }

/-- `size(r) = (r.wr - r.rd) mod RING_N` (rule R43). -/
def ringSize (n : Nat) (r : Ring) : Nat := fmodNat ((r.wr : Int) - (r.rd : Int)) n

/-- `free(r) = (RING_N - 1) - size(r)` (rule R43). -/
def ringFree (n : Nat) (r : Ring) : Nat := (n - 1) - ringSize n r

/-- Write words into consecutive cells from `pos` on, wrapping at `n` (rule R130). -/
def writeCells (n : Nat) : List Word → Nat → List Word → List Word
  | buf, _, [] => buf
  | buf, pos, w :: ws => writeCells n (buf.set (pos % n) w) (pos + 1) ws

/-- Read `k` consecutive cells from `pos` on, wrapping at `n` (rule R131). -/
def readCells (n : Nat) (buf : List Word) (pos k : Nat) : List Word :=
  (List.range k).map fun j => buf.getD ((pos + j) % n) 0

/-- `ring_push` (rule R130); `none` is FAIL. -/
def ringPush (n : Nat) (r : Ring) (ws : List Word) : Option Ring :=
  if ws.length = 0 ∨ ws.length > ringFree n r then none
  else some { r with buf := writeCells n r.buf r.wr ws, wr := (r.wr + ws.length) % n }

/-- `ring_pop` (rule R131); `none` is FAIL. -/
def ringPop (n : Nat) (r : Ring) (k : Nat) : Option (List Word × Ring) :=
  if k = 0 ∨ k > ringSize n r then none
  else some (readCells n r.buf r.rd k, { r with rd := (r.rd + k) % n })

/-! ### Delay lines (rules R195, R196, R198) -/

/-- The cell at the cursor. -/
def lineRead (l : DelayLine) : S16 := l.cells.getD l.idx 0

/-- Write the cell at the cursor and advance the cursor, wrapping at the line's length. -/
def lineWrite (v : S16) (l : DelayLine) : DelayLine :=
  { l with cells := l.cells.set l.idx v, idx := (l.idx + 1) % l.len }

/-- A cleared line of a given length, cursor 0 (rule R194). -/
def lineClear (len : Nat) : DelayLine := ⟨len, List.replicate len 0, 0⟩

end Sys2Proof.Machine
end

