-- ==== Sys2Proof/Machine/Granular.lean ====
section
/-! DEFINITION. The GRANULAR variant (43_granular.md): initialisation and the per-frame function. -/

namespace Sys2Proof.Machine

/-- `gran_init()` (rule R232); GR_FROZEN and the parameter registers stay (rule R164). -/
def granInit (c : Config) (g : GranularState) : GranularState :=
  { g with
    cap := List.replicate c.capLen 0
    wc := 0
    grains := List.replicate nGrain Grain.idle
    rng := c.rngSeed }

/-- The generator step of rule R243: the new RNG, which `draw()` also returns. -/
def rngNext (x : BitVec 32) : BitVec 32 :=
  let a := x ^^^ (x <<< 13)
  let b := a ^^^ (a >>> 17)
  b ^^^ (b <<< 5)

/-- The down-mix of rule R233. -/
def downMix (xl xr : S16) : S16 := BitVec.ofInt 16 (fdiv (xl.toInt + xr.toInt) 2)

/-- `env_num(e)` of rule R235. -/
def envNum (grainLen fade : Int) (e : Nat) : Int := max 0 (min (e : Int) (min (grainLen - e) fade))

/-- Stage (a), the capture write (rule R236). -/
def captureWrite (c : Config) (mono : S16) (g : GranularState) : GranularState :=
  if g.frozen then g else { g with cap := g.cap.set g.wc mono, wc := (g.wc + 1) % c.capLen }

/-- What a grain at elapsed count `e` with start `st` adds to the wet sum (rules R235, R238). -/
def grainContribution (c : Config) (g : GranularState) (st e : Nat) : Int :=
  fdiv ((g.cap.getD ((st + e) % c.capLen) 0).toInt * envNum g.grainLen.toInt c.grainFade e) c.grainFade

/-- The start offset of a new grain (rules R239, R240), from the drawn value. -/
def grainStart (c : Config) (g : GranularState) (drawn : BitVec 32) : Nat :=
  let r := fmodNat (drawn.toNat : Int) (((c.capLen : Int) - g.grainLen.toInt + 1).toNat)
  fmodNat ((g.wc : Int) - g.grainLen.toInt - r) c.capLen

/-- An active slot plays one sample (rule R238). -/
def playGrain (c : Config) (g : GranularState) (gr : Grain) : Grain × Int :=
  ({ gr with el := gr.el + 1, act := decide ((gr.el : Int) + 1 < g.grainLen.toInt) },
    grainContribution c g gr.st gr.el)

/-- An idle slot schedules a new grain (rules R239, R241). -/
def scheduleGrain (c : Config) (g : GranularState) (drawn : BitVec 32) : Grain :=
  ⟨true, 0, grainStart c g drawn⟩

/-- Stage (b) over the first `n` slots, in ascending order (rules R237, R244); `g` is the state after stage (a), the
other arguments carry the slots, the generator and the wet sum. -/
def serviceSlots (c : Config) (g : GranularState) : Nat → List Grain → BitVec 32 → Int → List Grain × BitVec 32 × Int
  | 0, gs, rng, acc => (gs, rng, acc)
  | _ + 1, [], rng, acc => ([], rng, acc)
  | n + 1, gr :: gs, rng, acc =>
    if gr.act then
      let p := playGrain c g gr
      let rest := serviceSlots c g n gs rng (acc + p.2)
      (p.1 :: rest.1, rest.2)
    else
      let rest := serviceSlots c g n gs (rngNext rng) acc
      (scheduleGrain c g (rngNext rng) :: rest.1, rest.2)

/-- The mix of rule R242 for one channel. -/
def granularMix (g : GranularState) (x wet : S16) : S16 :=
  sat16 (asr (x.toInt * g.dry.toInt + wet.toInt * g.wet.toInt) 15)

/-- `gran_frame(wL, wR)` (rule R245). -/
def granFrame (c : Config) (g : GranularState) (f : Frame) : GranularState × Frame :=
  let xl := q15 f.left
  let xr := q15 f.right
  let ga := captureWrite c (downMix xl xr) g
  let svc := serviceSlots c ga ga.density.toInt.toNat ga.grains ga.rng 0
  let wet := sat16 svc.2.2
  ({ ga with grains := svc.1, rng := svc.2.1 }, ⟨cont (granularMix g xl wet), cont (granularMix g xr wet)⟩)

/-- The granular writes of FX_SET_PARAM, with the clamps of rules R53 and R169. -/
def granularSetParam (c : Config) (id : Octet) (v : S16) (g : GranularState) : GranularState :=
  if id = 0x00#8 then { g with dry := v }
  else if id = 0x01#8 then { g with wet := v }
  else if id = 0x02#8 then { g with density := BitVec.ofInt 16 (min 8 (max 1 v.toInt)) }
  else if id = 0x03#8 then { g with grainLen := BitVec.ofInt 16 (min (c.capLen : Int) (max 1 v.toInt)) }
  else g

end Sys2Proof.Machine
end

