-- ==== Sys2Proof/Machine/Reverb.lean ====
section
/-! DEFINITION. The REVERB variant (42_reverb.md): initialisation and the per-frame function. -/

namespace Sys2Proof.Machine

/-! ### The feedback-gain law (rule R193) -/

/-- 32112 = floor(0.98 x 32768), the largest gain (rule R193). -/
def gainMax : Nat := 32112

/-- Whether g is at most 32768 x min(10^(-a / b), 0.98), for b > 0, decided over the integers: g^b x 10^a at most
32768^b, and g at most 32112. -/
def gainAtMost (a b g : Nat) : Bool :=
  decide (g ≤ gainMax) && decide (g ^ b * 10 ^ a ≤ 32768 ^ b)

/-- The largest g below `base + 2^k` that passes, from one that does: one bit of g at a time, high bit first. -/
def gainSearch (a b : Nat) : Nat → Nat → Nat
  | 0, base => base
  | k + 1, base =>
    if gainAtMost a b (base + 2 ^ k) then gainSearch a b k (base + 2 ^ k) else gainSearch a b k base

/-- `FB_GAIN(len, S, t)` of rule R193: floor(min(10^(-3000 len / (S t)), 0.98) x 32768), exactly. -/
def fbGain (len rate t60 : Nat) : Nat :=
  let a := 3000 * len
  let b := rate * t60
  let d := Nat.gcd a b
  gainSearch (a / d) (b / d) 15 0

/-! ### Initialisation (rules R191, R192, R194) -/

/-- `scale(L)` of rule R191. -/
def scaleLen (c : Config) (rate : Nat) (len : Nat) : Nat := max 1 (len * rate / c.refRate)

/-- The reference tables fit their storage at this rate (rule R192), for one channel. -/
def channelFits (c : Config) (rate : Nat) (t : ChannelTables) : Bool :=
  decide (scaleLen c rate c.pdRefLen ≤ c.maxPdLen) &&
  (t.combRefLen.all fun l => decide (scaleLen c rate l ≤ c.maxCombLen)) &&
  (t.apRefLen.all fun l => decide (scaleLen c rate l ≤ c.maxApLen))

/-- One comb built and cleared (rule R194). -/
def buildComb (c : Config) (rate len t60 : Nat) : Comb :=
  ⟨lineClear (scaleLen c rate len), BitVec.ofNat 16 (fbGain (scaleLen c rate len) rate t60), 0⟩

/-- One channel built and cleared (rule R194). -/
def buildChannel (c : Config) (rate : Nat) (t : ChannelTables) : ReverbChannel where
  pd := lineClear (scaleLen c rate c.pdRefLen)
  combs := List.zipWith (buildComb c rate) t.combRefLen t.t60Ms
  aps := t.apRefLen.map fun l => lineClear (scaleLen c rate l)

/-- `reverb_init()` (rule R194): every storage check before any write; `none` is FAIL. The parameter registers and
RV_EN stay (rule R164). -/
def reverbInit (c : Config) (rate : Nat) (rv : ReverbState) : Option ReverbState :=
  if channelFits c rate c.left && channelFits c rate c.right then
    some { rv with left := buildChannel c rate c.left, right := buildChannel c rate c.right }
  else none

/-! ### Per-sample stages (rules R195 to R200) -/

/-- The new filter memory of a comb (rule R196), from the old one and the delayed value. -/
def combFilt (damp gain filt d : Int) : S16 :=
  sat16 (asr (filt * (32768 - damp) + qmul d gain * damp) 15)

/-- One comb (rule R196): its new state and its contribution to the wet sum. -/
def combStep (damp outGain p : S16) (cb : Comb) : Comb × Int :=
  let d := lineRead cb.line
  let f := combFilt damp.toInt cb.gain.toInt cb.filt.toInt d.toInt
  ({ cb with line := lineWrite (sat16 (p.toInt + f.toInt)) cb.line, filt := f }, qmul d.toInt outGain.toInt)

/-- The comb bank (rule R197): combs in order, contributions added up. -/
def combBank (damp outGain p : S16) : List Comb → Int → List Comb × Int
  | [], acc => ([], acc)
  | cb :: cbs, acc =>
    let r := combStep damp outGain p cb
    let rest := combBank damp outGain p cbs (acc + r.2)
    (r.1 :: rest.1, rest.2)

/-- One allpass (rule R198): its new line and its output. -/
def allpassStep (apg : S16) (w : S16) (l : DelayLine) : DelayLine × S16 :=
  let d := lineRead l
  let o := sat16 (d.toInt - qmul w.toInt apg.toInt)
  (lineWrite (sat16 (w.toInt + qmul o.toInt apg.toInt)) l, o)

/-- The allpass chain (rule R199): each output is the next one's input. -/
def allpassChain (apg : S16) : List DelayLine → S16 → List DelayLine × S16
  | [], w => ([], w)
  | l :: ls, w =>
    let r := allpassStep apg w l
    let rest := allpassChain apg ls r.2
    (r.1 :: rest.1, rest.2)

/-- The dry/wet mix of rule R200, m. -/
def mixDryWet (dry wet x w : S16) : S16 := sat16 (asr (x.toInt * dry.toInt + w.toInt * wet.toInt) 15)

/-- The master gain of rule R200, y; RV_MASTER is Q14. -/
def masterGain (master m : S16) : S16 := sat16 (asr (m.toInt * master.toInt) 14)

/-- `reverb_sample(c, x)` (rule R203) on channel state `ch`. -/
def reverbSample (outGain : S16) (rv : ReverbState) (ch : ReverbChannel) (x : S16) : ReverbChannel × S16 :=
  let p := lineRead ch.pd
  let bank := combBank rv.damp outGain p ch.combs 0
  let chain := allpassChain rv.apg ch.aps (sat16 bank.2)
  ({ pd := lineWrite x ch.pd, combs := bank.1, aps := chain.1 },
    masterGain rv.master (mixDryWet rv.dry rv.wet x chain.2))

/-- `reverb_frame(wL, wR)` (rules R204 to R206): the state advances whether enabled or not. -/
def reverbFrame (outGain : S16) (rv : ReverbState) (f : Frame) : ReverbState × Frame :=
  let l := reverbSample outGain rv rv.left (q15 f.left)
  let r := reverbSample outGain rv rv.right (q15 f.right)
  ({ rv with left := l.1, right := r.1 }, if rv.en then ⟨cont l.2, cont r.2⟩ else f)

/-- The reverb's writes of FX_SET_PARAM (rules R48, R169). -/
def reverbSetParam (id : Octet) (v : S16) (rv : ReverbState) : ReverbState :=
  if id = 0x00#8 then { rv with dry := v }
  else if id = 0x01#8 then { rv with wet := v }
  else if id = 0x02#8 then { rv with damp := v }
  else if id = 0x03#8 then { rv with apg := v }
  else if id = 0x04#8 then { rv with master := v }
  else rv

end Sys2Proof.Machine
end

