-- ==== Sys2Proof/Machine/Effect.lean ====
section
/-! DEFINITION. The effect engine commands FX_NAME, FX_INIT, FX_SET_FORMAT, FX_SET_ENABLED, FX_SET_PARAM, FX_PROCESS
(41_effect_engine.md). -/

namespace Sys2Proof.Machine

/-- NAME_CODE (rule R162): "REVB" or "GRAN". -/
def nameCode : Variant → Word
  | .reverb => 0x52455642#32
  | .granular => 0x4752414E#32

/-- The effect state built by the active variant's initialisation for FX_RATE (rule R163); `none` is FAIL. -/
def buildEffect (s : State) : Option State :=
  match s.cfg.activeFx with
  | .reverb =>
    match reverbInit s.cfg s.fxRate.toNat s.reverb with
    | none => none
    | some rv => some { s with reverb := rv }
  | .granular => some { s with granular := granInit s.cfg s.granular }

/-- State effect and status of FX_INIT (rule R163), used by FX_INIT and by TASK_STEP's rebuild. -/
def initEffect (s : State) : State × Status :=
  if s.fxFatal then (s, .fatal)
  else
    match buildEffect s with
    | none => ({ s with fxFatal := true, fxInited := false }, .fatal)
    | some t => ({ t with fxInited := true }, .ok)

/-- The state effect of FX_SET_PARAM (rules R169, R170). -/
def setParam (id : Octet) (v : S16) (s : State) : State :=
  match s.cfg.activeFx with
  | .reverb => { s with reverb := reverbSetParam id v s.reverb }
  | .granular => { s with granular := granularSetParam s.cfg id v s.granular }

/-- One frame through the active variant (rule R172). -/
def fxFrame (s : State) (f : Frame) : State × Frame :=
  match s.cfg.activeFx with
  | .reverb =>
    let r := reverbFrame s.cfg.combOutGain s.reverb f
    ({ s with reverb := r.1 }, r.2)
  | .granular =>
    let r := granFrame s.cfg s.granular f
    ({ s with granular := r.1 }, r.2)

/-- `fx_block(ins, F)` (rule R172): frames strictly in order. -/
def fxBlock : State → List Frame → State × List Frame
  | s, [] => (s, [])
  | s, f :: fs =>
    let r := fxFrame s f
    let rest := fxBlock r.1 fs
    (rest.1, r.2 :: rest.2)

/-- FX_NAME (rule R162). -/
def execFxName (s : State) : Result :=
  ifPermitted (mayControl s.issuer) s <|
    .next (respond .ok 0 [nameCode s.cfg.activeFx] s)

/-- FX_INIT (rule R163). -/
def execFxInit (s : State) : Result :=
  ifPermitted (mayControl s.issuer) s <|
    .next (respond (initEffect s).2 0 [] (initEffect s).1)

/-- FX_SET_FORMAT (rule R165). -/
def execFxSetFormat (d : Octet) (rate : BitVec 32) (s : State) : Result :=
  ifPermitted (mayControl s.issuer) s <|
    if rate = 0 then .next (reject .badArg s)
    else .next (respond .ok 0 [] (setFormat d rate s))

/-- FX_SET_ENABLED (rule R168). -/
def execFxSetEnabled (e : Bool) (s : State) : Result :=
  ifPermitted (mayControl s.issuer) s <|
    .next (respond .ok 0 [] (setEnabled e s))

/-- FX_SET_PARAM (rule R169). -/
def execFxSetParam (id : Octet) (v : S16) (s : State) : Result :=
  ifPermitted (mayControl s.issuer) s <|
    .next (respond .ok 0 [] (setParam id v s))

/-- FX_PROCESS (rule R171). -/
def execFxProcess (frames : List Frame) (s : State) : Result :=
  ifPermitted (mayControl s.issuer) s <|
    if s.fxFatal then .next (reject .fatal s)
    else if !s.fxInited then .next (reject .notInit s)
    else .next (respond .ok 0 (wordsOf (fxBlock s frames).2) (fxBlock s frames).1)

end Sys2Proof.Machine
end

