-- ==== Sys2Proof/Machine/AudioTask.lean ====
section
/-! DEFINITION. The audio task and the transmit tick, TASK_STEP and SOF_TICK (44_audio_task.md). -/

namespace Sys2Proof.Machine

/-- What a TASK_STEP does before its status word: the new state, ST and INFO (rule R270). -/
structure TaskResult where
  state : State
  status : Status
  outcome : TaskOutcome

/-- The rate-change branch (rule R272), from the state in which CUR_RATE holds the new rate. -/
def taskRebuild (r : BitVec 32) (s : State) : State × Status :=
  if r = 0 then (s, .ok) else initEffect (setFormat s.cfgIn.bits r s)

/-- Pop one quantum, process it, push the result (rules R274, R276). -/
def taskQuantum (s : State) : TaskResult :=
  let n := s.cfg.ringN
  match ringPop n s.ringIn (2 * s.cfg.quantumFrames) with
  | none => ⟨s, .ok, .idle⟩
  | some (ins, q) =>
    let b := fxBlock { s with ringIn := q } (framesOf ins)
    match ringPush n b.1.ringOut (wordsOf b.2) with
    | none => ⟨b.1, .capacity, .processed⟩
    | some o => ⟨{ b.1 with ringOut := o }, .ok, .processed⟩

/-- The steps of a TASK_STEP whose rate is unchanged, after the enable input is applied (rule R270). -/
def taskSteady (r : BitVec 32) (s : State) : TaskResult :=
  if r = 0 then ⟨s, .ok, .unconfigured⟩
  else if s.fxFatal then ⟨s, .fatal, .refused⟩
  else if !s.fxInited then ⟨s, .notInit, .refused⟩
  else if ringSize s.cfg.ringN s.ringIn < 2 * s.cfg.quantumFrames then ⟨s, .ok, .idle⟩
  else taskQuantum s

/-- One AudioTask invocation (rules R270 to R276). -/
def taskEffect (s : State) : TaskResult :=
  let r := s.cfgIn.rate
  if r ≠ s.curRate then
    let b := taskRebuild r { s with curRate := r }
    ⟨setEnabled s.ctlIn b.1, b.2, .formatChangeSkip⟩
  else taskSteady r (setEnabled s.ctlIn s)

/-- TASK_STEP (rule R270). -/
def execTaskStep (s : State) : Result :=
  ifPermitted (mayControl s.issuer) s <|
    .next (respond (taskEffect s).status (taskInfo (taskEffect s).outcome) [] (taskEffect s).state)

/-- K of this tick (rule R280). -/
def tickFrames (s : State) : Nat := (s.acc.toNat + s.curRate.toNat) / cadenceHz

/-- The remainder kept in ACC (rule R280). -/
def tickAcc (s : State) : BitVec 32 := BitVec.ofNat 32 ((s.acc.toNat + s.curRate.toNat) % cadenceHz)

/-- The whole frames this tick takes from OUT, m (rule R281). -/
def tickAvailable (s : State) : Nat := min (tickFrames s) (ringSize s.cfg.ringN s.ringOut / 2)

/-- The 2m containers popped and the ring after (rule R281); nothing is popped when m = 0. -/
def tickPop (s : State) : List Word × Ring :=
  match ringPop s.cfg.ringN s.ringOut (2 * tickAvailable s) with
  | none => ([], s.ringOut)
  | some r => r

/-- n copies of one frame, as words. -/
def repeatFrame : Nat → Word → Word → List Word
  | 0, _, _ => []
  | n + 1, l, r => l :: r :: repeatFrame n l r

/-- The fill after the popped containers: the last frame popped in this tick, or zeros (rules R281, R282). -/
def tickFill (k m : Nat) (ws : List Word) : List Word :=
  if m < k then
    if 0 < m then repeatFrame (k - m) (ws.getD (2 * m - 2) 0) (ws.getD (2 * m - 1) 0)
    else repeatFrame k 0 0
  else []

/-- SOF_TICK (rule R281). -/
def execSofTick (s : State) : Result :=
  ifPermitted (mayTick s.issuer) s <|
    .next (respond .ok (fillInfo (tickFrames s) (tickAvailable s))
      (BitVec.ofNat 32 (tickFrames s) ::
        ((tickPop s).1 ++ tickFill (tickFrames s) (tickAvailable s) (tickPop s).1))
      { s with acc := tickAcc s, ringOut := (tickPop s).2 })

end Sys2Proof.Machine
end

