-- ==== Sys2Proof/Machine/RingBuffer.lean ====
section
/-! DEFINITION. The ring buffer commands RB_PUSH, RB_POP, RB_SIZE, RB_FREE (40_ringbuffer.md). -/

namespace Sys2Proof.Machine

/-- RB_PUSH (rule R132). -/
def execRbPush (r : RingSel) (data : List Word) (s : State) : Result :=
  ifPermitted (mayPush s.issuer r) s <|
    match ringPush s.cfg.ringN (getRing r s) data with
    | none => .next (reject .capacity s)
    | some q => .next (respond .ok 0 [] (setRing r q s))

/-- RB_POP (rule R133). -/
def execRbPop (r : RingSel) (n : BitVec 16) (s : State) : Result :=
  ifPermitted (mayPop s.issuer r) s <|
    match ringPop s.cfg.ringN (getRing r s) n.toNat with
    | none => .next (reject .capacity s)
    | some (ws, q) => .next (respond .ok 0 ws (setRing r q s))

/-- RB_SIZE (rule R134). -/
def execRbSize (r : RingSel) (s : State) : Result :=
  ifPermitted (mayQuery s.issuer r) s <|
    .next (respond .ok 0 [BitVec.ofNat 32 (ringSize s.cfg.ringN (getRing r s))] s)

/-- RB_FREE (rule R135). -/
def execRbFree (r : RingSel) (s : State) : Result :=
  ifPermitted (mayQuery s.issuer r) s <|
    .next (respond .ok 0 [BitVec.ofNat 32 (ringFree s.cfg.ringN (getRing r s))] s)

end Sys2Proof.Machine
end

