-- ==== Sys2Proof/Machine/Dispatch.lean ====
section
/-! DEFINITION. The meaning of each command, one arm per constructor of Instr (rule R107). -/

namespace Sys2Proof.Machine

def exec (i : Instr) (s : State) : Host.Outcome State Fault Refusal :=
  match i with
  | .rbPush r data => Sys2Proof.Machine.execRbPush r data s
  | .rbPop r n => Sys2Proof.Machine.execRbPop r n s
  | .rbSize r => Sys2Proof.Machine.execRbSize r s
  | .rbFree r => Sys2Proof.Machine.execRbFree r s
  | .fxName => Sys2Proof.Machine.execFxName s
  | .fxInit => Sys2Proof.Machine.execFxInit s
  | .fxSetFormat d rate => Sys2Proof.Machine.execFxSetFormat d rate s
  | .fxSetEnabled e => Sys2Proof.Machine.execFxSetEnabled e s
  | .fxSetParam id v => Sys2Proof.Machine.execFxSetParam id v s
  | .fxProcess frames => Sys2Proof.Machine.execFxProcess frames s
  | .taskStep => Sys2Proof.Machine.execTaskStep s
  | .sofTick => Sys2Proof.Machine.execSofTick s

end Sys2Proof.Machine
end

