-- ==== Sys2Proof/Machine/BuildCheck.lean ====
section
/-! DEFINITION. The well-formedness of a build: the constraints of rule R11, with the parameter types of rule R9
(log 15). -/

namespace Sys2Proof.Machine

/-- Every entry of a table is at least 1 (rules R9, R11). -/
def allPositive (l : List Nat) : Bool := l.all fun x => decide (1 ≤ x)

/-- The tables of one channel: eight combs, four allpasses, every entry at least 1 (rules R9, R11). -/
def tablesWf (t : ChannelTables) : Bool :=
  decide (t.combRefLen.length = nComb) && decide (t.t60Ms.length = nComb) && decide (t.apRefLen.length = nAp) &&
  allPositive t.combRefLen && allPositive t.t60Ms && allPositive t.apRefLen

/-- The ring and quantum constraints of rule R11. -/
def geometryWf (c : Config) : Bool :=
  decide (2 ≤ c.ringN) && decide (c.ringN % 2 = 0) && decide (1 ≤ c.quantumFrames) &&
  decide (2 * c.quantumFrames ≤ c.ringN - 1)

/-- The reverb constraints of rule R11, and the storage sizes of rule R9. -/
def reverbBuildWf (c : Config) : Bool :=
  decide (1 ≤ c.refRate) && decide (1 ≤ c.pdRefLen) && tablesWf c.left && tablesWf c.right &&
  decide (1 ≤ c.maxPdLen) && decide (1 ≤ c.maxCombLen) && decide (1 ≤ c.maxApLen)

/-- The granular constraints of rule R11, and the range of GRAIN_LEN_RESET of rule R9. -/
def granularBuildWf (c : Config) : Bool :=
  decide (2 ≤ c.capLen) && decide (1 ≤ c.grainFade) && decide (1 ≤ c.grainLenReset) &&
  decide (c.grainLenReset ≤ c.capLen) && decide (c.grainLenReset ≤ 32767) &&
  decide (1 ≤ c.grainDensityReset) && decide (c.grainDensityReset ≤ 8) && decide (c.rngSeed ≠ 0)

/-- A configuration is well formed: the constraints of rule R11 and the ranges of rule R9 (DEDUCED, log 15). -/
def configWf (c : Config) : Bool := geometryWf c && reverbBuildWf c && granularBuildWf c

end Sys2Proof.Machine
end

