-- ==== Sys2Proof/Machine/Fetch.lean ====
section
/-! DEFINITION. Where the next command comes from (rules R87, R88, R111, R310): the first of RX, TX, CTL whose command
stream holds a whole command; and, when none does, what the outside world does next. -/

namespace Sys2Proof.Machine

/-- The port's stream holds a whole command. -/
def commandReady (v : PortState) : Bool :=
  match decode v.pending with
  | .incomplete => false
  | .illegal _ _ => true
  | .command _ _ => true

/-- The port that goes next: RX, then TX, then CTL (rule R88). -/
def nextPort (s : State) : Option Port :=
  if commandReady s.rx then some .rx
  else if commandReady s.tx then some .tx
  else if commandReady s.ctl then some .ctl
  else none

/-- The port past a command: `rest` is pending and CP_p has advanced by the command's length (rules R41, R110). -/
def PortState.consume (rest : List Word) (v : PortState) : PortState :=
  { v with pending := rest, cp := v.cp + cmdLen (v.pending.headD 0) }

/-- The state in which port p's command executes: its words are taken, p is the issuing port. -/
def takeCommand (p : Port) (rest : List Word) (s : State) : State :=
  { setPort p ((getPort p s).consume rest) s with issuer := p }

/-- Words appear at a port. -/
def PortState.receive (ws : List Word) (v : PortState) : PortState := { v with pending := v.pending ++ ws }

/-- A port after the reset event: a partly received command is lost, the stream begins anew; the response words
already emitted stay emitted (rule R330, log 8). -/
def PortState.afterReset (v : PortState) : PortState := { v with pending := [], cp := 0 }

/-- The reset event (rule R330): every state element takes its reset value; the build, the levels on CFG and CTL_IN and
what the outside world does next are no state elements of the block and stay (log 8). -/
def resetEvent (s : State) : State :=
  { State.resetOf s.cfg with
    rx := s.rx.afterReset
    tx := s.tx.afterReset
    ctl := s.ctl.afterReset
    cfgIn := s.cfgIn
    ctlIn := s.ctlIn
    arrivals := s.arrivals }

/-- One arrival (log 3). -/
def applyArrival (a : Arrival) (s : State) : State :=
  match a with
  | .words rx tx ctl => { s with rx := s.rx.receive rx, tx := s.tx.receive tx, ctl := s.ctl.receive ctl }
  | .cfg c => { s with cfgIn := c }
  | .ctlIn b => { s with ctlIn := b }
  | .reset => resetEvent s

/-- The next arrival, if any; with none the block waits (rule R318, 93_implementation_defined.md U6). -/
def nextArrival (s : State) : State :=
  match s.arrivals with
  | [] => s
  | a :: as => applyArrival a { s with arrivals := as }

/-- What fetching finds. -/
inductive Fetched where
  /-- Nothing is left to execute in this step: an arrival was taken in, an ILLEGAL command was answered, or the block
  waits. -/
  | settled (s : State)
  /-- A command to execute, and the state it executes in. -/
  | run (i : Instr) (s : State)

/-- Fetch (rule R111): an ILLEGAL command is answered here, its operand words consumed and discarded. -/
def fetch (s : State) : Fetched :=
  match nextPort s with
  | none => .settled (nextArrival s)
  | some p =>
    match decode (getPort p s).pending with
    | .incomplete => .settled s
    | .illegal _ rest => .settled (reject .illegal (takeCommand p rest s))
    | .command i rest => .run i (takeCommand p rest s)

/-- A port on which a command is permitted (rule R106), where the model places an instruction it is given. -/
def homePort : Instr → Port
  | .rbPush .ringIn _ => .rx
  | .rbPush .ringOut _ => .ctl
  | .rbPop .ringIn _ => .ctl
  | .rbPop .ringOut _ => .tx
  | .rbSize .ringIn => .rx
  | .rbSize .ringOut => .tx
  | .rbFree .ringIn => .rx
  | .rbFree .ringOut => .tx
  | .fxName => .ctl
  | .fxInit => .ctl
  | .fxSetFormat _ _ => .ctl
  | .fxSetEnabled _ => .ctl
  | .fxSetParam _ _ => .ctl
  | .fxProcess _ => .ctl
  | .taskStep => .ctl
  | .sofTick => .tx

/-- The port where an instruction word is placed; a word that decodes to no instruction goes to CTL. -/
def placePort (nbits w : Nat) : Port :=
  match decodeTableWord nbits w with
  | some i => homePort i
  | none => .ctl

/-- The instruction's words, alone, at the front of the command stream of a port that permits it; nothing pending at
the other ports, so that it is the next command to execute. -/
def placeCommand (nbits w : Nat) (s : State) : State :=
  let p := placePort nbits w
  let clear := { s with
    rx := { s.rx with pending := [] }
    tx := { s.tx with pending := [] }
    ctl := { s.ctl with pending := [] } }
  setPort p { getPort p clear with pending := tableWords nbits w } clear

end Sys2Proof.Machine
end

