-- ==== Sys2Proof/Machine/Step.lean ====
section
/-! DEFINITION. One step of the block: one command of one port, whole (rule R87), or one arrival. -/

namespace Sys2Proof.Machine

/-- One step. A build that breaks rule R11, or a range of rule R9 (log 15), is refused; otherwise the fetched command executes. -/
def step (s : State) : Host.Outcome State Fault Refusal :=
  if configWf s.cfg then
    match fetch s with
    | .settled t => .next t
    | .run i t => exec i t
  else .refused .illFormedConfiguration

/-- `s` with the instruction whose bits are `w` as the next command to execute (log 3). -/
def State.withFetchWord (s : State) (nbits w : Nat) : State := placeCommand nbits w s

end Sys2Proof.Machine
end

