-- ==== Sys2Proof/Safety.lean ====
section
/-! DEFINITION. What a sound state of the block is: every array has its length, every index and cursor is inside its
array, every register holds a value the spec calls legal (rules R42, R46, R50 to R57). And what a safe step is: one
that goes on (rule R304). -/

namespace Sys2Proof.Machine

/-- A ring of `n` cells with both indices inside it (rule R42). -/
abbrev RingWf (n : Nat) (r : Ring) : Prop := r.buf.length = n ∧ r.rd < n ∧ r.wr < n

/-- A delay line of at most `most` cells with its cursor inside it (rules R50, R51, R52). -/
abbrev LineWf (most : Nat) (l : DelayLine) : Prop :=
  1 ≤ l.len ∧ l.len ≤ most ∧ l.cells.length = l.len ∧ l.idx < l.len

/-- A comb (rule R51): its gain is in [0, 32112]. -/
abbrev CombWf (c : Config) (cb : Comb) : Prop := LineWf c.maxCombLen cb.line ∧ cb.gain.toNat ≤ 32112

/-- A reverb channel (rules R50 to R52): eight combs, four allpasses. -/
abbrev ChannelWf (c : Config) (ch : ReverbChannel) : Prop :=
  LineWf c.maxPdLen ch.pd ∧ ch.combs.length = nComb ∧ ch.aps.length = nAp ∧
  (∀ cb ∈ ch.combs, CombWf c cb) ∧ (∀ l ∈ ch.aps, LineWf c.maxApLen l)

/-- A grain slot (rule R56): the counter stays in [0, 32767], an active grain below its end, the start inside CAP. -/
abbrev GrainWf (c : Config) (g : Grain) : Prop :=
  g.el ≤ 32767 ∧ (g.act = true → g.el < 32767) ∧ g.st < c.capLen

/-- The granular state (rules R53, R55, R56, R57). -/
abbrev GranularWf (c : Config) (g : GranularState) : Prop :=
  1 ≤ g.density.toInt ∧ g.density.toInt ≤ 8 ∧ 1 ≤ g.grainLen.toInt ∧ g.grainLen.toInt ≤ c.capLen ∧
  g.cap.length = c.capLen ∧ g.wc < c.capLen ∧ g.grains.length = nGrain ∧ (∀ x ∈ g.grains, GrainWf c x) ∧ g.rng ≠ 0

/-- A sound state: a build that rules R9 and R11 admit (log 15), and every element in the range the spec gives it; the built flag and
the fatal flag are never set together (rules R163, R307). -/
abbrev WellFormedState (s : State) : Prop :=
  configWf s.cfg = true ∧
  RingWf s.cfg.ringN s.ringIn ∧ RingWf s.cfg.ringN s.ringOut ∧
  s.acc.toNat < cadenceHz ∧
  ¬ (s.fxInited = true ∧ s.fxFatal = true) ∧
  ChannelWf s.cfg s.reverb.left ∧ ChannelWf s.cfg s.reverb.right ∧
  GranularWf s.cfg s.granular

/-- A step that goes on (rule R304). -/
abbrev GoesOn (o : Result) : Prop := ∃ t, o = Host.Outcome.next t

end Sys2Proof.Machine
end

