-- ==== Sys2Proof/Certificates/Slice0/Obligations.lean ====
section
/-! DEFINITION. The statements for the provers, each citing the rules of spec/ it formalises. First the small vocabulary
they share (namespace Sys2Proof.Spec), written from the spec's own words and tables, not from the model's. -/

namespace Sys2Proof.Spec

open Sys2Proof.Machine

/-- Saturation to s16 (rule R14), as an integer function. -/
def sat (v : Int) : Int := max (-32768) (min 32767 v)

/-- The block with words appended to the response stream of one port, everything else as it was. -/
def answered (p : Port) (ws : List Word) (s : State) : State :=
  match p with
  | .rx => { s with rx := { s.rx with resp := s.rx.resp ++ ws } }
  | .tx => { s with tx := { s.tx with resp := s.tx.resp ++ ws } }
  | .ctl => { s with ctl := { s.ctl with resp := s.ctl.resp ++ ws } }

/-- The "yes" entries of the table of rule R106. -/
def portsFor : Instr → List Port
  | .rbPush .ringIn _ => [.rx]
  | .rbPush .ringOut _ => [.ctl]
  | .rbPop .ringIn _ => [.ctl]
  | .rbPop .ringOut _ => [.tx]
  | .rbSize .ringIn => [.rx, .ctl]
  | .rbSize .ringOut => [.tx, .ctl]
  | .rbFree .ringIn => [.rx, .ctl]
  | .rbFree .ringOut => [.tx, .ctl]
  | .fxName => [.ctl]
  | .fxInit => [.ctl]
  | .fxSetFormat _ _ => [.ctl]
  | .fxSetEnabled _ => [.ctl]
  | .fxSetParam _ _ => [.ctl]
  | .fxProcess _ => [.ctl]
  | .taskStep => [.ctl]
  | .sofTick => [.tx]

/-- The status codes of rule R301, less ILLEGAL, which a decoded command never answers. -/
def codesFor : Instr → List Nat
  | .rbPush _ _ => [0, 1, 3]
  | .rbPop _ _ => [0, 1, 3]
  | .rbSize _ => [0, 3]
  | .rbFree _ => [0, 3]
  | .fxName => [0, 3]
  | .fxInit => [0, 5, 3]
  | .fxSetFormat _ _ => [0, 6, 3]
  | .fxSetEnabled _ => [0, 3]
  | .fxSetParam _ _ => [0, 3]
  | .fxProcess _ => [0, 5, 4, 3]
  | .taskStep => [0, 1, 5, 4, 3]
  | .sofTick => [0, 3]

/-- How many data words follow an OK status word (last column of rule R107); `first` is the first of them. -/
def okDataCount (first : Word) : Instr → Nat
  | .rbPush _ _ => 0
  | .rbPop _ n => n.toNat
  | .rbSize _ => 1
  | .rbFree _ => 1
  | .fxName => 1
  | .fxInit => 0
  | .fxSetFormat _ _ => 0
  | .fxSetEnabled _ => 0
  | .fxSetParam _ _ => 0
  | .fxProcess frames => 2 * frames.length
  | .taskStep => 0
  | .sofTick => 1 + 2 * first.toNat

/-- Match and mask of the twelve rows of spec/opcode_table.json. -/
def opcodeRows : List (Word × Word) :=
  [(0x01000000#32, 0xFFFE0000#32), (0x02000000#32, 0xFFFE0000#32), (0x03000000#32, 0xFFFEFFFF#32),
   (0x04000000#32, 0xFFFEFFFF#32), (0x10000000#32, 0xFFFFFFFF#32), (0x11000000#32, 0xFFFFFFFF#32),
   (0x12000000#32, 0xFF00FFFF#32), (0x13000000#32, 0xFFFEFFFF#32), (0x14000000#32, 0xFF000000#32),
   (0x15000000#32, 0xFFFF0000#32), (0x20000000#32, 0xFFFFFFFF#32), (0x21000000#32, 0xFFFFFFFF#32)]

/-- The producer of a ring (rule R44). -/
def producer : RingSel → Port
  | .ringIn => .rx
  | .ringOut => .ctl

/-- The consumer of a ring (rule R44). -/
def consumer : RingSel → Port
  | .ringIn => .ctl
  | .ringOut => .tx

/-- The number of live samples of a ring whose indices are in range (rule R43). -/
def liveCount (n : Nat) (r : Ring) : Nat := if r.rd ≤ r.wr then r.wr - r.rd else r.wr + n - r.rd

/-- The live cells in FIFO order (rule R43). -/
def live (n : Nat) (r : Ring) : List Word :=
  (List.range (liveCount n r)).map fun j => r.buf.getD ((r.rd + j) % n) 0

/-- One ring operation of rules R130 and R131. -/
inductive RingOp where
  | push (ws : List Word)
  | pop (k : Nat)

/-- A sequence of ring operations, failed ones skipped: the ring after, the lists pushed put together, the lists popped
put together. -/
def runRing (n : Nat) : Ring → List RingOp → Ring × List Word × List Word
  | r, [] => (r, [], [])
  | r, .push ws :: ops =>
    match ringPush n r ws with
    | none => runRing n r ops
    | some q => let x := runRing n q ops; (x.1, ws ++ x.2.1, x.2.2)
  | r, .pop k :: ops =>
    match ringPop n r k with
    | none => runRing n r ops
    | some (ws, q) => let x := runRing n q ops; (x.1, x.2.1, ws ++ x.2.2)

/-- The scaled length of rule R191. -/
def scaled (c : Config) (rate l : Nat) : Nat := max 1 (l * rate / c.refRate)

/-- Every scaled length of one channel fits its storage (rule R192). -/
def Fits (c : Config) (rate : Nat) (t : ChannelTables) : Prop :=
  scaled c rate c.pdRefLen ≤ c.maxPdLen ∧
  (∀ l ∈ t.combRefLen, scaled c rate l ≤ c.maxCombLen) ∧
  (∀ l ∈ t.apRefLen, scaled c rate l ≤ c.maxApLen)

/-- A cleared delay line of length n, cursor 0 (rule R194). -/
def clearedLine (n : Nat) : DelayLine := ⟨n, List.replicate n 0, 0⟩

/-- The channel that reverb_init leaves (rule R194). -/
def IsBuilt (c : Config) (rate : Nat) (t : ChannelTables) (ch : ReverbChannel) : Prop :=
  ch.pd = clearedLine (scaled c rate c.pdRefLen) ∧
  ch.combs.length = 8 ∧
  (∀ (k l d : Nat), t.combRefLen[k]? = some l → t.t60Ms[k]? = some d →
    ch.combs[k]? = some (Comb.mk (clearedLine (scaled c rate l)) (BitVec.ofNat 16 (fbGain (scaled c rate l) rate d)) 0)) ∧
  ch.aps.length = 4 ∧
  (∀ (k l : Nat), t.apRefLen[k]? = some l → ch.aps[k]? = some (clearedLine (scaled c rate l)))

/-- A delay line after its cell at the cursor is written and the cursor advanced. -/
def stepped (l : DelayLine) (v : S16) : DelayLine := ⟨l.len, l.cells.set l.idx v, (l.idx + 1) % l.len⟩

/-- The value at a line's cursor, as an integer. -/
def tap (l : DelayLine) : Int := (l.cells.getD l.idx 0).toInt

/-- A channel after a list of input samples, outputs dropped. -/
def afterSamples (outGain : S16) (rv : ReverbState) (ch : ReverbChannel) (xs : List S16) : ReverbChannel :=
  xs.foldl (fun ch x => (reverbSample outGain rv ch x).1) ch

/-- The block after T SOF_TICKs. -/
def afterTicks : Nat → State → State
  | 0, s => s
  | n + 1, s =>
    match exec .sofTick (afterTicks n s) with
    | .next t => t
    | .fault _ => s
    | .refused _ => s

/-- The sum of the K words of T SOF_TICKs: of each tick's response, the word after the status word. -/
def framesDelivered (ticks : Nat) (s : State) : Nat :=
  ((List.range ticks).map fun i =>
    ((afterTicks (i + 1) s).tx.resp.getD ((afterTicks i s).tx.resp.length + 1) 0).toNat).sum

/-- How many of the first `i` slots are idle, slots at or above the density not counted: the draws made before slot i is
serviced (rules R237, R244). -/
def drawsBefore (g : GranularState) (i : Nat) : Nat :=
  ((g.grains.take (min i g.density.toInt.toNat)).filter fun x => !x.act).length

/-- The generator after n draws (rule R243). -/
def drawn (n : Nat) (x : BitVec 32) : BitVec 32 := rngNext^[n] x

/-- The envelope numerator of rule R235. -/
def envelope (grainLen fade e : Int) : Int := max 0 (min e (min (grainLen - e) fade))

/-- The sum of what the active slots below the density play (rules R237, R238), read from capture buffer `cap`. -/
def grainSum (c : Config) (g : GranularState) (cap : List S16) : Int :=
  (((g.grains.take g.density.toInt.toNat).filter fun x => x.act).map fun x =>
    (cap.getD ((x.st + x.el) % c.capLen) 0).toInt * envelope g.grainLen.toInt c.grainFade x.el / c.grainFade).sum

/-- The container of a Q15 value (rule R18): the value in bits 31:16, zero padding. -/
def IsContainer (w : Word) (q : Int) : Prop := (w.extractLsb' 16 16).toInt = q ∧ w.extractLsb' 0 16 = 0

end Sys2Proof.Spec

open Sys2Proof Sys2Proof.Machine Sys2Proof.Spec

/-! ### Encoding -/

/-- Decoding the words of a well-formed command gives the command and what follows it (rules R100, R101, R107, R108,
R110): no operand bit is lost. -/
def Obligations.DecodeOfEncodeIsTheCommand : Prop :=
  ∀ (i : Instr) (rest : List Word), i.WellFormed → decode (encode i ++ rest) = .command i rest

/-- A command that decodes is well formed and its words are exactly its encoding: every command has one encoding
(rules R101, R112). -/
def Obligations.EncodeOfDecodeIsTheWords : Prop :=
  ∀ (ws rest : List Word) (i : Instr), decode ws = .command i rest → i.WellFormed ∧ ws = encode i ++ rest

/-- The five encoding examples of rule R116, both ways. -/
def Obligations.ExampleWordsOfRuleR116 : Prop :=
  (encode (.fxSetParam 0x02 8192) = [0x14022000] ∧ decode [0x14022000] = .command (.fxSetParam 0x02 8192) []) ∧
  (encode (.rbPush .ringIn [0x7FFF0000, 0x80000000]) = [0x01000002, 0x7FFF0000, 0x80000000] ∧
    decode [0x01000002, 0x7FFF0000, 0x80000000] = .command (.rbPush .ringIn [0x7FFF0000, 0x80000000]) []) ∧
  (encode (.fxSetFormat 16 44100) = [0x12100000, 0x0000AC44] ∧
    decode [0x12100000, 0x0000AC44] = .command (.fxSetFormat 16 44100) []) ∧
  (encode .sofTick = [0x21000000] ∧ decode [0x21000000] = .command .sofTick []) ∧
  (encode (.fxSetParam 0x03 (BitVec.ofInt 16 (-1))) = [0x1403FFFF] ∧
    decode [0x1403FFFF] = .command (.fxSetParam 0x03 (BitVec.ofInt 16 (-1))) [])

/-- A word begins a command exactly when it matches a row of the opcode table and its operand words are there; every
other word whose operand words are there is ILLEGAL (rules R107, R111, R112). -/
def Obligations.LegalWordsAreExactlyTheOpcodeTable : Prop :=
  ∀ (w : Word) (ws : List Word), cmdLen w ≤ ws.length + 1 →
    ((∃ row ∈ opcodeRows, w &&& row.2 = row.1) → ∃ i rest, decode (w :: ws) = .command i rest) ∧
    ((∀ row ∈ opcodeRows, w &&& row.2 ≠ row.1) →
      ∃ why, decode (w :: ws) = .illegal why (ws.drop (cmdLen w - 1)))

/-- The length of a command (rule R110), from its command word alone, and the decoder waits exactly while words are
missing. -/
def Obligations.CommandLengthByOpcode : Prop :=
  ∀ w : Word,
    (w >>> 24 = 0x01 → cmdLen w = 1 + w.toNat % 65536) ∧
    (w >>> 24 = 0x12 → cmdLen w = 2) ∧
    (w >>> 24 = 0x15 → cmdLen w = 1 + 2 * (w.toNat % 65536)) ∧
    (w >>> 24 ≠ 0x01 → w >>> 24 ≠ 0x12 → w >>> 24 ≠ 0x15 → cmdLen w = 1) ∧
    ∀ ws : List Word, decode (w :: ws) = .incomplete ↔ ws.length + 1 < cmdLen w

/-! ### The step -/

/-- When a port's stream begins with a command, and no port before it in the order RX, TX, CTL has one, the step is that
command's meaning, in the state in which the command's words are taken, CP_p has advanced by its length, and p is the
issuing port (rules R41, R88, R111; that whole commands run before the next arrival is the model's reading, log 4). -/
def Obligations.StepRunsTheDecodedCommand : Prop :=
  ∀ (s : State) (i : Instr) (rest : List Word), configWf s.cfg = true →
    (decode s.rx.pending = .command i rest →
      step s = exec i { s with issuer := .rx, rx := ⟨rest, s.rx.cp + (encode i).length, s.rx.resp⟩ }) ∧
    (decode s.rx.pending = .incomplete → decode s.tx.pending = .command i rest →
      step s = exec i { s with issuer := .tx, tx := ⟨rest, s.tx.cp + (encode i).length, s.tx.resp⟩ }) ∧
    (decode s.rx.pending = .incomplete → decode s.tx.pending = .incomplete →
      decode s.ctl.pending = .command i rest →
      step s = exec i { s with issuer := .ctl, ctl := ⟨rest, s.ctl.cp + (encode i).length, s.ctl.resp⟩ })

/-- An illegal command answers ILLEGAL (0x02), its operand words are consumed, and nothing else changes but CP_p (and
the model's note of the issuing port) (rules R111, R112, R302). -/
def Obligations.IllegalCommandIsConsumedAndAnswered : Prop :=
  ∀ (s : State) (w : Word) (ops rest : List Word), configWf s.cfg = true →
    (∀ row ∈ opcodeRows, w &&& row.2 ≠ row.1) → ops.length + 1 = cmdLen w →
    (s.rx.pending = w :: (ops ++ rest) →
      step s = .next { s with issuer := .rx, rx := ⟨rest, s.rx.cp + cmdLen w, s.rx.resp ++ [0x00000002]⟩ }) ∧
    (decode s.rx.pending = .incomplete → s.tx.pending = w :: (ops ++ rest) →
      step s = .next { s with issuer := .tx, tx := ⟨rest, s.tx.cp + cmdLen w, s.tx.resp ++ [0x00000002]⟩ }) ∧
    (decode s.rx.pending = .incomplete → decode s.tx.pending = .incomplete → s.ctl.pending = w :: (ops ++ rest) →
      step s = .next { s with issuer := .ctl, ctl := ⟨rest, s.ctl.cp + cmdLen w, s.ctl.resp ++ [0x00000002]⟩ })

/-- The model's choice (log 3): while no port holds a whole command, a step takes in what the outside world does next;
with nothing left the block waits, unchanged (93_implementation_defined.md U6, rule R318). -/
def Obligations.WaitingTakesTheNextArrival : Prop :=
  ∀ (s : State) (rest : List Arrival), configWf s.cfg = true →
    decode s.rx.pending = .incomplete → decode s.tx.pending = .incomplete → decode s.ctl.pending = .incomplete →
    (s.arrivals = [] → step s = .next s) ∧
    (∀ a b c, s.arrivals = .words a b c :: rest →
      step s = .next { s with
        rx := { s.rx with pending := s.rx.pending ++ a }
        tx := { s.tx with pending := s.tx.pending ++ b }
        ctl := { s.ctl with pending := s.ctl.pending ++ c }
        arrivals := rest }) ∧
    (∀ v, s.arrivals = .cfg v :: rest → step s = .next { s with cfgIn := v, arrivals := rest }) ∧
    (∀ b, s.arrivals = .ctlIn b :: rest → step s = .next { s with ctlIn := b, arrivals := rest })

/-- The reset event (rule R330): every state element takes its reset value, partly received commands are lost, no
response word is emitted; that the inputs' levels and the words already emitted stay is the model's reading (log 8). The
elements that rules R61 and R332 leave unspecified (ring cells, reverb and granular storage) take the values the model names
(logs 9, 10, 11), and so does the model's own field issuer (log 5). -/
def Obligations.ResetEventRestoresResetValues : Prop :=
  ∀ (s : State) (rest : List Arrival), configWf s.cfg = true →
    decode s.rx.pending = .incomplete → decode s.tx.pending = .incomplete → decode s.ctl.pending = .incomplete →
    s.arrivals = .reset :: rest →
    step s = .next { State.resetOf s.cfg with
      rx := ⟨[], 0, s.rx.resp⟩
      tx := ⟨[], 0, s.tx.resp⟩
      ctl := ⟨[], 0, s.ctl.resp⟩
      cfgIn := s.cfgIn
      ctlIn := s.ctlIn
      arrivals := rest }

/-- The reset values of rule R61, for every build. -/
def Obligations.ResetValuesOfRuleR61 : Prop :=
  ∀ c : Config, configWf c = true →
    let s := State.resetOf c
    (s.rx.pending = [] ∧ s.tx.pending = [] ∧ s.ctl.pending = [] ∧ s.rx.cp = 0 ∧ s.tx.cp = 0 ∧ s.ctl.cp = 0) ∧
    (s.ringIn.rd = 0 ∧ s.ringIn.wr = 0 ∧ s.ringOut.rd = 0 ∧ s.ringOut.wr = 0) ∧
    s.curRate = 0 ∧ s.acc = 0 ∧ s.fxInited = false ∧ s.fxFatal = false ∧ s.fxRate.toNat = 48000 ∧ s.fxBits = 0 ∧
    (s.reverb.dry.toInt = 16384 ∧ s.reverb.wet.toInt = 16384 ∧ s.reverb.damp.toInt = 13107 ∧
      s.reverb.apg.toInt = 16384 ∧ s.reverb.master.toInt = 24576 ∧ s.reverb.en = true) ∧
    (s.granular.dry = c.gdryReset ∧ s.granular.wet = c.gwetReset ∧
      s.granular.density.toInt = c.grainDensityReset ∧ s.granular.grainLen.toInt = c.grainLenReset ∧
      s.granular.frozen = false ∧ s.granular.rng = c.rngSeed)

/-- The state after reset is sound, for every build; for the elements rule R61 leaves unspecified this rests on the
values the model names (logs 9, 10, 11). -/
def Obligations.ResetStateIsWellFormed : Prop :=
  ∀ c : Config, configWf c = true → WellFormedState (State.resetOf c)

/-- Every step keeps a sound state sound: indices and cursors stay inside their arrays, arrays keep their lengths, ACC
stays below 1000, gains stay at most 32112, GR_DENSITY, GR_LEN, grain slots and RNG stay legal (rules R42, R46, R50 to
R57). -/
def Obligations.StepKeepsStateWellFormed : Prop :=
  ∀ s t : State, WellFormedState s → step s = .next t → WellFormedState t

/-- The block never halts and never stops accepting commands (rule R304); a build that breaks rule R11 has no meaning. The
model's check configWf also takes in the parameter ranges of rule R9, a choice of the model that rule R11 does not list
(DEDUCED, log 15): a GRAIN_LEN_RESET above 32767 is refused too. -/
def Obligations.StepNeverStops : Prop :=
  ∀ s : State,
    (configWf s.cfg = true → GoesOn (step s)) ∧
    (configWf s.cfg = false → step s = .refused .illFormedConfiguration)

/-! ### What commands may write, and how they answer -/

/-- Which commands write which registers (rules R40, R42, R45 to R58, R80, R92, R164): for every command, in every state.
Ring cells and indices, the rate and accumulator registers, the engine's flags, the parameter registers, and the delay
lines, cursors, gains, filter memories, capture buffer, grain slots and generator (by FX_INIT, FX_PROCESS and TASK_STEP,
which runs both, rules R272 and R274). The build, the inputs and the state of the variant that is not built are written by
none. -/
def Obligations.RegistersAreWrittenOnlyByTheirCommands : Prop :=
  ∀ (i : Instr) (s t : State), exec i s = .next t →
    (t.cfg = s.cfg ∧ t.cfgIn = s.cfgIn ∧ t.ctlIn = s.ctlIn ∧ t.arrivals = s.arrivals ∧ t.issuer = s.issuer) ∧
    (i ≠ .taskStep → t.curRate = s.curRate) ∧
    (i ≠ .sofTick → t.acc = s.acc) ∧
    (i ≠ .taskStep → (∀ d r, i ≠ .fxSetFormat d r) → t.fxRate = s.fxRate ∧ t.fxBits = s.fxBits) ∧
    (i ≠ .taskStep → i ≠ .fxInit → t.fxFatal = s.fxFatal) ∧
    (i ≠ .taskStep → i ≠ .fxInit → (∀ d r, i ≠ .fxSetFormat d r) → t.fxInited = s.fxInited) ∧
    (i ≠ .taskStep → (∀ e, i ≠ .fxSetEnabled e) →
      t.reverb.en = s.reverb.en ∧ t.granular.frozen = s.granular.frozen) ∧
    ((∀ id v, i ≠ .fxSetParam id v) →
      t.reverb.dry = s.reverb.dry ∧ t.reverb.wet = s.reverb.wet ∧ t.reverb.damp = s.reverb.damp ∧
      t.reverb.apg = s.reverb.apg ∧ t.reverb.master = s.reverb.master ∧ t.granular.dry = s.granular.dry ∧
      t.granular.wet = s.granular.wet ∧ t.granular.density = s.granular.density ∧
      t.granular.grainLen = s.granular.grainLen) ∧
    (i ≠ .taskStep → i ≠ .fxInit → (∀ frames, i ≠ .fxProcess frames) →
      t.reverb.left = s.reverb.left ∧ t.reverb.right = s.reverb.right ∧ t.granular.cap = s.granular.cap ∧
      t.granular.wc = s.granular.wc ∧ t.granular.grains = s.granular.grains ∧ t.granular.rng = s.granular.rng) ∧
    ((∀ ws, i ≠ .rbPush .ringIn ws) → t.ringIn.wr = s.ringIn.wr ∧ t.ringIn.buf = s.ringIn.buf) ∧
    (i ≠ .taskStep → (∀ n, i ≠ .rbPop .ringIn n) → t.ringIn.rd = s.ringIn.rd) ∧
    (i ≠ .taskStep → (∀ ws, i ≠ .rbPush .ringOut ws) → t.ringOut.wr = s.ringOut.wr ∧ t.ringOut.buf = s.ringOut.buf) ∧
    (i ≠ .sofTick → (∀ n, i ≠ .rbPop .ringOut n) → t.ringOut.rd = s.ringOut.rd) ∧
    (s.cfg.activeFx = .reverb → t.granular = s.granular) ∧
    (s.cfg.activeFx = .granular → t.reverb = s.reverb)

/-- Only the producer of a ring moves its write index or writes its cells, only its consumer moves its read index
(rules R44, R106). -/
def Obligations.OnlyTheOwnerMovesAnIndex : Prop :=
  ∀ (i : Instr) (s t : State) (r : RingSel), exec i s = .next t →
    (s.issuer ≠ producer r → (getRing r t).wr = (getRing r s).wr ∧ (getRing r t).buf = (getRing r s).buf) ∧
    (s.issuer ≠ consumer r → (getRing r t).rd = (getRing r s).rd)

/-- A query is a bound until its owner's next command (rule R91): a command of another port never shrinks the space a
producer sees, nor the data a consumer sees. -/
def Obligations.OtherPortsNeverShrinkWhatAnOwnerSees : Prop :=
  ∀ (i : Instr) (s t : State) (r : RingSel), WellFormedState s → exec i s = .next t →
    (s.issuer ≠ producer r →
      s.cfg.ringN - 1 - liveCount s.cfg.ringN (getRing r s) ≤ s.cfg.ringN - 1 - liveCount s.cfg.ringN (getRing r t)) ∧
    (s.issuer ≠ consumer r →
      liveCount s.cfg.ringN (getRing r s) ≤ liveCount s.cfg.ringN (getRing r t))

/-- Response framing (rules R102, R103, R107, R301): one status word, its high half 0, its code one of rule R301, INFO 0
but for TASK_STEP and SOF_TICK; data words only after OK, as many as rule R107 says; the other ports, and the issuing
port's command stream, untouched. -/
def Obligations.ResponseFraming : Prop :=
  ∀ (i : Instr) (s t : State), exec i s = .next t →
    (∀ p, p ≠ s.issuer → getPort p t = getPort p s) ∧
    (getPort s.issuer t).pending = (getPort s.issuer s).pending ∧
    (getPort s.issuer t).cp = (getPort s.issuer s).cp ∧
    ∃ (status : Word) (data : List Word),
      (getPort s.issuer t).resp = (getPort s.issuer s).resp ++ status :: data ∧
      status.extractLsb' 16 16 = 0 ∧
      (status.extractLsb' 0 8).toNat ∈ codesFor i ∧
      (i ≠ .taskStep → i ≠ .sofTick → status.extractLsb' 8 8 = 0) ∧
      (status.extractLsb' 0 8 ≠ 0 → data = []) ∧
      (status.extractLsb' 0 8 = 0 → data.length = okDataCount (data.headD 0) i)

/-- A command that answers anything but OK changes nothing else (rules R302, R306), FX_INIT and TASK_STEP aside. -/
def Obligations.RejectedCommandsChangeNothing : Prop :=
  ∀ (i : Instr) (s t : State) (status : Word) (data : List Word), exec i s = .next t →
    i ≠ .fxInit → i ≠ .taskStep →
    (getPort s.issuer t).resp = (getPort s.issuer s).resp ++ status :: data →
    status.extractLsb' 0 8 ≠ 0 → t = answered s.issuer [status] s

/-- The port table (rule R106): elsewhere a command answers PORT and does nothing else; where the table says yes it never
answers PORT. -/
def Obligations.PortTableDecidesPermission : Prop :=
  ∀ (i : Instr) (s : State),
    (s.issuer ∉ portsFor i → exec i s = .next (answered s.issuer [0x00000003] s)) ∧
    (s.issuer ∈ portsFor i → ∀ (t : State) (status : Word) (data : List Word), exec i s = .next t →
      (getPort s.issuer t).resp = (getPort s.issuer s).resp ++ status :: data → status.extractLsb' 0 8 ≠ 3)

/-! ### Rings -/

/-- RB_PUSH from the ring's producer (rules R130, R132): a push that fits stores the words from the write index on,
wrapping, and advances it; any other push answers CAPACITY and changes nothing. -/
def Obligations.PushStoresAllTheWordsOrNone : Prop :=
  ∀ (s : State) (r : RingSel) (data : List Word),
    RingWf s.cfg.ringN (getRing r s) → s.issuer = producer r →
    (0 < data.length → data.length ≤ s.cfg.ringN - 1 - liveCount s.cfg.ringN (getRing r s) →
      ∃ buf : List Word,
        exec (.rbPush r data) s = .next (answered s.issuer [0x00000000] (setRing r
          ⟨buf, (getRing r s).rd, ((getRing r s).wr + data.length) % s.cfg.ringN⟩ s)) ∧
        buf.length = s.cfg.ringN ∧
        (∀ j < data.length, buf[((getRing r s).wr + j) % s.cfg.ringN]? = data[j]?) ∧
        (∀ a : Nat, (∀ j < data.length, a ≠ ((getRing r s).wr + j) % s.cfg.ringN) →
          buf[a]? = (getRing r s).buf[a]?)) ∧
    (data.length = 0 ∨ s.cfg.ringN - 1 - liveCount s.cfg.ringN (getRing r s) < data.length →
      exec (.rbPush r data) s = .next (answered s.issuer [0x00000001] s))

/-- RB_POP from the ring's consumer (rules R131, R133): a pop of n live samples answers the n oldest and advances the
read index; any other pop answers CAPACITY and changes nothing. -/
def Obligations.PopAnswersTheOldestOrNothing : Prop :=
  ∀ (s : State) (r : RingSel) (n : BitVec 16),
    RingWf s.cfg.ringN (getRing r s) → s.issuer = consumer r →
    (0 < n.toNat → n.toNat ≤ liveCount s.cfg.ringN (getRing r s) →
      exec (.rbPop r n) s = .next (answered s.issuer
        (0x00000000 :: (live s.cfg.ringN (getRing r s)).take n.toNat) (setRing r
          ⟨(getRing r s).buf, ((getRing r s).rd + n.toNat) % s.cfg.ringN, (getRing r s).wr⟩ s))) ∧
    (n.toNat = 0 ∨ liveCount s.cfg.ringN (getRing r s) < n.toNat →
      exec (.rbPop r n) s = .next (answered s.issuer [0x00000001] s))

/-- RB_SIZE and RB_FREE (rules R43, R134, R135), from the ports that may ask: the number of live samples and the free
space, nothing written. -/
def Obligations.SizeAndFreeReportTheIndices : Prop :=
  ∀ (s : State) (r : RingSel), RingWf s.cfg.ringN (getRing r s) → s.issuer = producer r ∨ s.issuer = consumer r →
    exec (.rbSize r) s = .next (answered s.issuer
      [0x00000000, BitVec.ofNat 32 (liveCount s.cfg.ringN (getRing r s))] s) ∧
    exec (.rbFree r) s = .next (answered s.issuer
      [0x00000000, BitVec.ofNat 32 (s.cfg.ringN - 1 - liveCount s.cfg.ringN (getRing r s))] s)

/-- The capacity law (rule R139): size and free space add up to RING_N - 1; a ring of 768 cells takes 7 quanta of 96
samples from empty, and refuses 8 in every state. -/
def Obligations.RingHoldsOneSampleLessThanItsCells : Prop :=
  (∀ (n : Nat) (r : Ring), RingWf n r → ringSize n r = liveCount n r ∧ ringSize n r + ringFree n r = n - 1) ∧
  (∀ (r : Ring) (ws : List Word), RingWf 768 r →
    (r.rd = r.wr → ws.length = 7 * 96 → ∃ q, ringPush 768 r ws = some q) ∧
    (ws.length = 8 * 96 → ringPush 768 r ws = none))

/-- The FIFO law (rule R136): over every sequence of pushes and pops, what was popped followed by what is live is what
was live followed by what was pushed; from an empty ring the popped words are a prefix of the pushed ones. -/
def Obligations.RingIsAFifo : Prop :=
  ∀ (n : Nat) (r : Ring) (ops : List RingOp), RingWf n r →
    (runRing n r ops).2.2 ++ live n (runRing n r ops).1 = live n r ++ (runRing n r ops).2.1 ∧
    (r.rd = r.wr → (runRing n r ops).2.2 <+: (runRing n r ops).2.1)

/-- The round-trip law (rule R138): from an empty ring at any position, a push of n that fits and a pop of n give the
words back and leave the ring empty n places on. -/
def Obligations.PushThenPopGivesTheWordsBack : Prop :=
  ∀ (n k : Nat) (buf ws : List Word), RingWf n ⟨buf, k, k⟩ → 0 < ws.length → ws.length ≤ n - 1 →
    ∃ q q' : Ring, ringPush n ⟨buf, k, k⟩ ws = some q ∧ ringPop n q ws.length = some (ws, q') ∧
      ringSize n q' = 0 ∧ q'.rd = (k + ws.length) % n ∧ q'.wr = (k + ws.length) % n

/-! ### The effect engine's commands -/

/-- FX_NAME (rule R162). -/
def Obligations.NameCodeOfTheBuiltVariant : Prop :=
  ∀ s : State, s.issuer = .ctl →
    (s.cfg.activeFx = .reverb → exec .fxName s = .next (answered .ctl [0x00000000, 0x52455642] s)) ∧
    (s.cfg.activeFx = .granular → exec .fxName s = .next (answered .ctl [0x00000000, 0x4752414E] s))

/-- FX_INIT of a REVERB build (rules R163, R164, R191, R192, R194): when every scaled length fits, both channels are built
and cleared for FX_RATE and nothing else changes; when one does not fit, FATAL, FX_FATAL set, nothing built; when FX_FATAL
was set already, FATAL and nothing changes. -/
def Obligations.InitBuildsTheReverbOrIsFatal : Prop :=
  ∀ s : State, configWf s.cfg = true → s.issuer = .ctl → s.cfg.activeFx = .reverb →
    (s.fxFatal = false →
      Fits s.cfg s.fxRate.toNat s.cfg.left → Fits s.cfg s.fxRate.toNat s.cfg.right →
      ∃ l r : ReverbChannel, IsBuilt s.cfg s.fxRate.toNat s.cfg.left l ∧ IsBuilt s.cfg s.fxRate.toNat s.cfg.right r ∧
        exec .fxInit s = .next (answered .ctl [0x00000000]
          { s with fxInited := true, reverb := { s.reverb with left := l, right := r } })) ∧
    (s.fxFatal = false →
      ¬ (Fits s.cfg s.fxRate.toNat s.cfg.left ∧ Fits s.cfg s.fxRate.toNat s.cfg.right) →
      exec .fxInit s = .next (answered .ctl [0x00000005] { s with fxInited := false, fxFatal := true })) ∧
    (s.fxFatal = true → exec .fxInit s = .next (answered .ctl [0x00000005] s))

/-- FX_INIT of a GRANULAR build (rules R163, R164, R231, R232): capture buffer, cursor, slots and generator, nothing else;
it cannot fail, but answers FATAL where FX_FATAL is set. -/
def Obligations.InitClearsTheGranularState : Prop :=
  ∀ s : State, s.issuer = .ctl → s.cfg.activeFx = .granular →
    (s.fxFatal = false →
      exec .fxInit s = .next (answered .ctl [0x00000000] { s with
        fxInited := true
        granular := { s.granular with
          cap := List.replicate s.cfg.capLen 0
          wc := 0
          grains := List.replicate 8 ⟨false, 0, 0⟩
          rng := s.cfg.rngSeed } })) ∧
    (s.fxFatal = true → exec .fxInit s = .next (answered .ctl [0x00000005] s))

/-- The feedback-gain law (rule R193), over the real numbers: the model's integer search gives exactly the floor of the
clamped power. -/
def Obligations.FeedbackGainLaw : Prop :=
  ∀ len rate t60 : Nat, 1 ≤ len → 1 ≤ rate → 1 ≤ t60 →
    ((fbGain len rate t60 : Nat) : Int) =
      ⌊min ((10 : ℝ) ^ (-(3 * (len : ℝ) * 1000) / ((rate : ℝ) * (t60 : ℝ)))) (0.98 : ℝ) * 32768⌋ ∧
    fbGain len rate t60 ≤ 32112

/-- FX_SET_FORMAT (rules R165, R166): rate 0 is BAD_ARG and changes nothing; any other rate is recorded with the bit
depth, and a REVERB build is invalidated. -/
def Obligations.SetFormatRecordsTheFormat : Prop :=
  ∀ (s : State) (d : Octet) (rate : BitVec 32), s.issuer = .ctl →
    (rate = 0 → exec (.fxSetFormat d rate) s = .next (answered .ctl [0x00000006] s)) ∧
    (rate ≠ 0 → s.cfg.activeFx = .reverb →
      exec (.fxSetFormat d rate) s =
        .next (answered .ctl [0x00000000] { s with fxBits := d, fxRate := rate, fxInited := false })) ∧
    (rate ≠ 0 → s.cfg.activeFx = .granular →
      exec (.fxSetFormat d rate) s = .next (answered .ctl [0x00000000] { s with fxBits := d, fxRate := rate }))

/-- FX_SET_ENABLED (rules R168, R246): RV_EN for REVERB, GR_FROZEN for GRANULAR, nothing else. -/
def Obligations.SetEnabledWritesTheFlag : Prop :=
  ∀ (s : State) (e : Bool), s.issuer = .ctl →
    (s.cfg.activeFx = .reverb → exec (.fxSetEnabled e) s =
      .next (answered .ctl [0x00000000] { s with reverb := { s.reverb with en := e } })) ∧
    (s.cfg.activeFx = .granular → exec (.fxSetEnabled e) s =
      .next (answered .ctl [0x00000000] { s with granular := { s.granular with frozen := e } }))

/-- FX_SET_PARAM (rules R48, R53, R169, R170): the named register takes the value, GR_DENSITY and GR_LEN clamped; an
identifier that names no register changes nothing. -/
def Obligations.SetParamWritesOneRegister : Prop :=
  ∀ (s : State) (id : Octet) (v : S16), s.issuer = .ctl → 1 ≤ s.cfg.capLen →
    (s.cfg.activeFx = .reverb →
      ∃ rv : ReverbState, exec (.fxSetParam id v) s = .next (answered .ctl [0x00000000] { s with reverb := rv }) ∧
        (id.toNat = 0 → rv = { s.reverb with dry := v }) ∧
        (id.toNat = 1 → rv = { s.reverb with wet := v }) ∧
        (id.toNat = 2 → rv = { s.reverb with damp := v }) ∧
        (id.toNat = 3 → rv = { s.reverb with apg := v }) ∧
        (id.toNat = 4 → rv = { s.reverb with master := v }) ∧
        (5 ≤ id.toNat → rv = s.reverb)) ∧
    (s.cfg.activeFx = .granular →
      ∃ g : GranularState, exec (.fxSetParam id v) s = .next (answered .ctl [0x00000000] { s with granular := g }) ∧
        (id.toNat = 0 → g = { s.granular with dry := v }) ∧
        (id.toNat = 1 → g = { s.granular with wet := v }) ∧
        (id.toNat = 2 → ∃ d : S16, d.toInt = min 8 (max 1 v.toInt) ∧ g = { s.granular with density := d }) ∧
        (id.toNat = 3 → ∃ l : S16, l.toInt = min (s.cfg.capLen : Int) (max 1 v.toInt) ∧
          g = { s.granular with grainLen := l }) ∧
        (4 ≤ id.toNat → g = s.granular))

/-- FX_PROCESS (rules R171, R172): FATAL before NOT_INIT, both without any effect; otherwise OK and the frames of the
block function, which runs the frames one after another through the built variant and writes the engine's state alone; with
no frames, OK, no data and no state change. -/
def Obligations.ProcessAnswersEveryFrameInOrder : Prop :=
  ∀ (s : State) (frames more : List Frame) (f : Frame), s.issuer = .ctl →
    (s.fxFatal = true → exec (.fxProcess frames) s = .next (answered .ctl [0x00000005] s)) ∧
    (s.fxFatal = false → s.fxInited = false →
      exec (.fxProcess frames) s = .next (answered .ctl [0x00000004] s)) ∧
    (s.fxFatal = false → s.fxInited = true →
      ∃ (rv : ReverbState) (g : GranularState) (outs : List Frame),
        exec (.fxProcess frames) s =
          .next (answered .ctl (0x00000000 :: wordsOf outs) { s with reverb := rv, granular := g }) ∧
        fxBlock s frames = ({ s with reverb := rv, granular := g }, outs) ∧ outs.length = frames.length) ∧
    (s.fxFatal = false → s.fxInited = true → exec (.fxProcess []) s = .next (answered .ctl [0x00000000] s)) ∧
    fxBlock s [] = (s, []) ∧
    fxBlock s (frames ++ more) =
      ((fxBlock (fxBlock s frames).1 more).1, (fxBlock s frames).2 ++ (fxBlock (fxBlock s frames).1 more).2) ∧
    (s.cfg.activeFx = .reverb → fxBlock s [f] =
      ({ s with reverb := (reverbFrame s.cfg.combOutGain s.reverb f).1 },
        [(reverbFrame s.cfg.combOutGain s.reverb f).2])) ∧
    (s.cfg.activeFx = .granular → fxBlock s [f] =
      ({ s with granular := (granFrame s.cfg s.granular f).1 }, [(granFrame s.cfg s.granular f).2]))

/-! ### The reverb -/

/-- A disabled reverb (rule R205): FX_PROCESS answers its input words unchanged, and the state advances exactly as when
enabled. -/
def Obligations.DisabledReverbIsTheIdentity : Prop :=
  ∀ (s : State) (frames : List Frame), s.issuer = .ctl → s.cfg.activeFx = .reverb → s.fxFatal = false →
    s.fxInited = true → s.reverb.en = false →
    ∃ rv : ReverbState,
      exec (.fxProcess frames) s = .next (answered .ctl (0x00000000 :: wordsOf frames) { s with reverb := rv }) ∧
      (fxBlock { s with reverb := { s.reverb with en := true } } frames).1 =
        { s with reverb := { rv with en := true } } ∧ rv.en = false

/-- The delay law (rule R195): after n inputs a line of length L gives at its cursor the input of L inputs before, and
before that the cell it held there. -/
def Obligations.DelayLineReturnsTheInputOfLenSamplesBefore : Prop :=
  ∀ (most : Nat) (l : DelayLine) (xs : List S16), LineWf most l →
    (xs.length < l.len →
      lineRead (xs.foldl (fun l x => lineWrite x l) l) = l.cells.getD ((l.idx + xs.length) % l.len) 0) ∧
    (l.len ≤ xs.length →
      lineRead (xs.foldl (fun l x => lineWrite x l) l) = xs.getD (xs.length - l.len) 0)

/-- One sample of one channel (rules R195 to R200, R203): pre-delay, every comb, the wet sum, every allpass in series, the
mix and the master gain, each in the rules' integer arithmetic. -/
def Obligations.ReverbSampleStages : Prop :=
  ∀ (outGain : S16) (rv : ReverbState) (ch : ReverbChannel) (x : S16),
    let out := reverbSample outGain rv ch x
    out.1.pd = stepped ch.pd x ∧
    out.1.combs.length = ch.combs.length ∧
    (∀ (k : Nat) (cb : Comb), ch.combs[k]? = some cb → ∃ f v : S16,
      f.toInt = sat ((cb.filt.toInt * (32768 - rv.damp.toInt) +
        (tap cb.line * cb.gain.toInt / 32768) * rv.damp.toInt) / 32768) ∧
      v.toInt = sat (tap ch.pd + f.toInt) ∧
      out.1.combs[k]? = some (Comb.mk (stepped cb.line v) cb.gain f)) ∧
    out.1.aps.length = ch.aps.length ∧
    ∃ w : List S16, w.length = ch.aps.length + 1 ∧
      (w.getD 0 0).toInt = sat ((ch.combs.map fun cb => tap cb.line * outGain.toInt / 32768).sum) ∧
      (∀ (k : Nat) (l : DelayLine), ch.aps[k]? = some l →
        (w.getD (k + 1) 0).toInt = sat (tap l - (w.getD k 0).toInt * rv.apg.toInt / 32768) ∧
        ∃ v : S16, v.toInt = sat ((w.getD k 0).toInt + (w.getD (k + 1) 0).toInt * rv.apg.toInt / 32768) ∧
          out.1.aps[k]? = some (stepped l v)) ∧
      ∃ m : S16,
        m.toInt = sat ((x.toInt * rv.dry.toInt + (w.getD ch.aps.length 0).toInt * rv.wet.toInt) / 32768) ∧
        out.2.toInt = sat (m.toInt * rv.master.toInt / 16384)

/-- One frame of the reverb (rules R17, R18, R204, R206): each channel's sample on its own channel's input; an enabled
output has zero padding. -/
def Obligations.ReverbFrameContainers : Prop :=
  ∀ (outGain : S16) (rv : ReverbState) (f : Frame),
    let l := reverbSample outGain rv rv.left (f.left.extractLsb' 16 16)
    let r := reverbSample outGain rv rv.right (f.right.extractLsb' 16 16)
    (reverbFrame outGain rv f).1 = { rv with left := l.1, right := r.1 } ∧
    (rv.en = true → IsContainer (reverbFrame outGain rv f).2.left l.2.toInt ∧
      IsContainer (reverbFrame outGain rv f).2.right r.2.toInt) ∧
    (rv.en = false → (reverbFrame outGain rv f).2 = f)

/-- No cross-channel coupling (rule R190): over any block, what the left channel becomes and answers does not depend on the
right channel's state or input, nor the other way round. -/
def Obligations.ReverbChannelsAreIndependent : Prop :=
  ∀ (s : State) (other : ReverbChannel) (frames : List (Word × Word × Word)), s.cfg.activeFx = .reverb →
    (let a := fxBlock s (frames.map fun x => ⟨x.1, x.2.1⟩)
     let b := fxBlock { s with reverb := { s.reverb with right := other } } (frames.map fun x => ⟨x.1, x.2.2⟩)
     a.1.reverb.left = b.1.reverb.left ∧ a.2.map Frame.left = b.2.map Frame.left) ∧
    (let a := fxBlock s (frames.map fun x => ⟨x.2.1, x.1⟩)
     let b := fxBlock { s with reverb := { s.reverb with left := other } } (frames.map fun x => ⟨x.2.2, x.1⟩)
     a.1.reverb.right = b.1.reverb.right ∧ a.2.map Frame.right = b.2.map Frame.right)

/-- The latency of the first echo (rule R208): on a freshly built channel, whatever the input, the output of a frame
before PD_LEN plus the shortest CB_LEN is its dry part alone. -/
def Obligations.OutputIsDryBeforeTheFirstEcho : Prop :=
  ∀ (c : Config) (rate : Nat) (t : ChannelTables) (ch : ReverbChannel) (outGain : S16) (rv : ReverbState)
    (xs : List S16) (x : S16),
    tablesWf t = true → IsBuilt c rate t ch →
    (∀ cb ∈ ch.combs, xs.length < ch.pd.len + cb.line.len) →
    (reverbSample outGain rv (afterSamples outGain rv ch xs) x).2.toInt =
      sat (sat (x.toInt * rv.dry.toInt / 32768) * rv.master.toInt / 16384)

/-- Bounded filter memory (rule R209): with RV_DAMP from 0 up, a comb's new memory is no larger in magnitude than the larger
of the old memory and the feedback, but for one. -/
def Obligations.CombMemoryIsBounded : Prop :=
  ∀ damp gain filt d : S16, 0 ≤ damp.toInt →
    |(combFilt damp.toInt gain.toInt filt.toInt d.toInt).toInt| ≤
      max |filt.toInt| |d.toInt * gain.toInt / 32768| + 1

/-! ### The granular effect -/

/-- The generator (rule R243): the three xor-shifts on 32-bit values, the first six values from 1, and never 0 from a
non-zero value. -/
def Obligations.GeneratorNeverReachesZero : Prop :=
  (∀ x : BitVec 32,
    let a := x.toNat ^^^ (x.toNat * 2 ^ 13 % 2 ^ 32)
    let b := a ^^^ (a / 2 ^ 17)
    (rngNext x).toNat = b ^^^ (b * 2 ^ 5 % 2 ^ 32)) ∧
  (List.range 6).map (fun n => (drawn (n + 1) 1).toNat) =
    [270369, 67634689, 2647435461, 307599695, 2398689233, 745495504] ∧
  (∀ x : BitVec 32, x ≠ 0 → rngNext x ≠ 0)

/-- One frame of the granular effect (rules R233 to R239, R241, R242, R244, R245): capture, then the slots below the
density in order, each playing or scheduling, then the mix of one wet value with each channel's input. -/
def Obligations.GranularFrameStages : Prop :=
  ∀ (c : Config) (g : GranularState) (f : Frame), configWf c = true → GranularWf c g →
    let xl := (f.left.extractLsb' 16 16).toInt
    let xr := (f.right.extractLsb' 16 16).toInt
    let out := granFrame c g f
    (g.frozen = true → out.1.cap = g.cap ∧ out.1.wc = g.wc) ∧
    (g.frozen = false → out.1.wc = (g.wc + 1) % c.capLen ∧
      ∃ mono : S16, mono.toInt = (xl + xr) / 2 ∧ out.1.cap = g.cap.set g.wc mono) ∧
    (out.1.dry = g.dry ∧ out.1.wet = g.wet ∧ out.1.density = g.density ∧ out.1.grainLen = g.grainLen ∧
      out.1.frozen = g.frozen) ∧
    out.1.rng = drawn (drawsBefore g 8) g.rng ∧
    out.1.grains.length = 8 ∧
    (∀ (i : Nat) (x : Grain), g.grains[i]? = some x →
      ((g.density.toInt ≤ i → out.1.grains[i]? = some x) ∧
       ((i : Int) < g.density.toInt → x.act = true →
         out.1.grains[i]? = some (Grain.mk (decide ((x.el : Int) + 1 < g.grainLen.toInt)) (x.el + 1) x.st)) ∧
       ((i : Int) < g.density.toInt → x.act = false →
         ∃ st : Nat, out.1.grains[i]? = some (Grain.mk true 0 st) ∧
           (st : Int) = ((out.1.wc : Int) - g.grainLen.toInt -
             ((drawn (drawsBefore g i + 1) g.rng).toNat : Int) % ((c.capLen : Int) - g.grainLen.toInt + 1)) %
               c.capLen))) ∧
    ∃ wet : S16, wet.toInt = sat (grainSum c g out.1.cap) ∧
      IsContainer out.2.left (sat ((xl * g.dry.toInt + wet.toInt * g.wet.toInt) / 32768)) ∧
      IsContainer out.2.right (sat ((xr * g.dry.toInt + wet.toInt * g.wet.toInt) / 32768))

/-- The freeze law (rules R234, R248): while frozen, processing writes neither the capture buffer nor its cursor, whether
by FX_PROCESS or by a TASK_STEP that keeps the freeze and does not rebuild. -/
def Obligations.FreezeHoldsTheCaptureBuffer : Prop :=
  ∀ (s t : State) (frames : List Frame), s.cfg.activeFx = .granular → s.granular.frozen = true →
    (exec (.fxProcess frames) s = .next t →
      t.granular.cap = s.granular.cap ∧ t.granular.wc = s.granular.wc ∧ t.granular.frozen = true) ∧
    (s.ctlIn = true → s.cfgIn.rate = s.curRate → exec .taskStep s = .next t →
      t.granular.cap = s.granular.cap ∧ t.granular.wc = s.granular.wc ∧ t.granular.frozen = true)

/-- No read ahead of the cursor (rules R240, R249): the cell a new grain reads at its e-th play lies GR_LEN + r - e cells
behind the cursor, r the drawn offset in 0..CAP_LEN - GR_LEN: with the cursor still, reads run forward and end at or before
the newest cell. -/
def Obligations.NewGrainsStayBehindTheCursor : Prop :=
  ∀ (c : Config) (g : GranularState) (value : BitVec 32) (e : Nat), GranularWf c g → (e : Int) < g.grainLen.toInt →
    ∃ r : Int, 0 ≤ r ∧ r ≤ c.capLen - g.grainLen.toInt ∧
      r = (value.toNat : Int) % ((c.capLen : Int) - g.grainLen.toInt + 1) ∧
      ((g.wc : Int) - 1 - ((grainStart c g value + e) % c.capLen : Nat)) % c.capLen = g.grainLen.toInt + r - 1 - e

/-- Grain contributions (rules R235, R250): what a grain adds is no larger in magnitude than the cell it reads, so the
sum before saturation is at most GR_DENSITY x 32768 in magnitude. -/
def Obligations.GrainContributionsAreBounded : Prop :=
  ∀ (c : Config) (g : GranularState) (cap : List S16), 1 ≤ c.grainFade →
    (∀ st e : Nat, |grainContribution c g st e| ≤ |(g.cap.getD ((st + e) % c.capLen) 0).toInt|) ∧
    |grainSum c g cap| ≤ (g.density.toInt.toNat : Int) * 32768

/-! ### The audio task and the transmit tick -/

/-- A TASK_STEP that sees a new rate (rules R270, R272, R273): the rate is recorded and nothing is processed; a non-zero
rate sets the format and has FX_INIT's state effect and status; then the enable input is applied. -/
def Obligations.TaskStepOnARateChange : Prop :=
  ∀ s : State, s.issuer = .ctl → s.cfgIn.rate ≠ s.curRate →
    (s.cfgIn.rate = 0 →
      exec .taskStep s = .next (answered .ctl [0x00000200] (setEnabled s.ctlIn { s with curRate := 0 }))) ∧
    (s.cfgIn.rate ≠ 0 →
      ∃ (u : State) (status : Word), (status = 0 ∨ status = 5) ∧
        exec .fxInit { s with
          curRate := s.cfgIn.rate
          fxBits := s.cfgIn.bits
          fxRate := s.cfgIn.rate
          fxInited := if s.cfg.activeFx = .reverb then false else s.fxInited } = .next (answered .ctl [status] u) ∧
        exec .taskStep s = .next (answered .ctl [0x00000200 + status] (setEnabled s.ctlIn u)))

/-- A TASK_STEP with an unchanged rate that processes nothing (rules R270, R271, R273, R303): UNCONFIGURED, then REFUSED
with FATAL, then REFUSED with NOT_INIT, then IDLE, in that order; only the enable input is applied. -/
def Obligations.TaskStepWithoutProcessing : Prop :=
  ∀ s : State, s.issuer = .ctl → s.cfgIn.rate = s.curRate →
    (s.curRate = 0 → exec .taskStep s = .next (answered .ctl [0x00000300] (setEnabled s.ctlIn s))) ∧
    (s.curRate ≠ 0 → s.fxFatal = true →
      exec .taskStep s = .next (answered .ctl [0x00000405] (setEnabled s.ctlIn s))) ∧
    (s.curRate ≠ 0 → s.fxFatal = false → s.fxInited = false →
      exec .taskStep s = .next (answered .ctl [0x00000404] (setEnabled s.ctlIn s))) ∧
    (s.curRate ≠ 0 → s.fxFatal = false → s.fxInited = true → RingWf s.cfg.ringN s.ringIn →
      liveCount s.cfg.ringN s.ringIn < 2 * s.cfg.quantumFrames →
      exec .taskStep s = .next (answered .ctl [0x00000100] (setEnabled s.ctlIn s)))

/-- A TASK_STEP that processes (rules R270, R273, R274, R276): with a quantum waiting, exactly the 2 x QUANTUM_FRAMES oldest
samples leave IN and go through the block function after the enable input is applied; the results go into OUT in order if
they fit, and are dropped with CAPACITY if they do not. -/
def Obligations.TaskStepMovesOneQuantum : Prop :=
  ∀ s : State, configWf s.cfg = true → RingWf s.cfg.ringN s.ringIn → RingWf s.cfg.ringN s.ringOut →
    s.issuer = .ctl → s.cfgIn.rate = s.curRate → s.curRate ≠ 0 → s.fxFatal = false → s.fxInited = true →
    2 * s.cfg.quantumFrames ≤ liveCount s.cfg.ringN s.ringIn →
    let n := s.cfg.ringN
    let q := 2 * s.cfg.quantumFrames
    let popped := { setEnabled s.ctlIn s with ringIn := ⟨s.ringIn.buf, (s.ringIn.rd + q) % n, s.ringIn.wr⟩ }
    ∃ (u : State) (outs : List Frame),
      fxBlock popped (framesOf ((live n s.ringIn).take q)) = (u, outs) ∧
      u = { popped with reverb := u.reverb, granular := u.granular } ∧
      wordsOf (framesOf ((live n s.ringIn).take q)) = (live n s.ringIn).take q ∧
      (wordsOf outs).length = q ∧
      (q ≤ n - 1 - liveCount n s.ringOut →
        ∃ out : Ring, exec .taskStep s = .next (answered .ctl [0x00000000] { u with ringOut := out }) ∧
          RingWf n out ∧ out.rd = s.ringOut.rd ∧ live n out = live n s.ringOut ++ wordsOf outs) ∧
      (n - 1 - liveCount n s.ringOut < q →
        exec .taskStep s = .next (answered .ctl [0x00000001] u))

/-- SOF_TICK (rules R280, R281, R282): K frames by the accumulator, the m available ones popped, the shortfall filled with
the last frame popped in this tick, or with zeros when none was. -/
def Obligations.SofTickDeliversKFrames : Prop :=
  ∀ s : State, s.issuer = .tx → RingWf s.cfg.ringN s.ringOut →
    let n := s.cfg.ringN
    let total := s.acc.toNat + s.curRate.toNat
    let k := total / 1000
    let m := min k (liveCount n s.ringOut / 2)
    let ws := (live n s.ringOut).take (2 * m)
    let after := { s with
      acc := BitVec.ofNat 32 (total % 1000)
      ringOut := ⟨s.ringOut.buf, (s.ringOut.rd + 2 * m) % n, s.ringOut.wr⟩ }
    (m = k → exec .sofTick s =
      .next (answered .tx (0x00000000 :: BitVec.ofNat 32 k :: ws) after)) ∧
    (m < k → 0 < m → exec .sofTick s =
      .next (answered .tx (0x00000100 :: BitVec.ofNat 32 k ::
        (ws ++ (List.replicate (k - m) [ws.getD (2 * m - 2) 0, ws.getD (2 * m - 1) 0]).flatten)) after)) ∧
    (m < k → m = 0 → exec .sofTick s =
      .next (answered .tx (0x00000200 :: BitVec.ofNat 32 k :: List.replicate (2 * k) 0) after))

/-- The clock reconciliation law (rule R283): after T ticks at a constant rate S from ACC = A0, the frames delivered (the sum
of the K words) total floor((A0 + T S) / 1000) and ACC is the remainder; from A0 = 0 the total is within one frame of
round(T S / 1000). Each tick answers two words and two words a frame. -/
def Obligations.ClockReconciliation : Prop :=
  ∀ (ticks : Nat) (s : State), s.issuer = .tx → s.acc.toNat < 1000 →
    let t := afterTicks ticks s
    framesDelivered ticks s = (s.acc.toNat + ticks * s.curRate.toNat) / 1000 ∧
    t.acc.toNat = (s.acc.toNat + ticks * s.curRate.toNat) % 1000 ∧
    t.curRate = s.curRate ∧
    t.tx.resp.length =
      s.tx.resp.length + 2 * ticks + 2 * ((s.acc.toNat + ticks * s.curRate.toNat) / 1000) ∧
    (s.acc.toNat = 0 →
      |(framesDelivered ticks s : Int) - round (((ticks * s.curRate.toNat : Nat) : ℚ) / 1000)| ≤ 1)

/-- Independence of the two sides (rule R285): what SOF_TICK answers and writes depends on CUR_RATE, ACC and OUT alone, and
it writes ACC and OUT alone; TASK_STEP neither reads nor writes ACC. -/
def Obligations.TransmitAndTaskSidesAreIndependent : Prop :=
  (∀ s s' : State, s.issuer = .tx → s'.issuer = .tx → s.cfg.ringN = s'.cfg.ringN → s.curRate = s'.curRate →
    s.acc = s'.acc → s.ringOut = s'.ringOut →
    ∃ (ws : List Word) (a : BitVec 32) (o : Ring),
      exec .sofTick s = .next (answered .tx ws { s with acc := a, ringOut := o }) ∧
      exec .sofTick s' = .next (answered .tx ws { s' with acc := a, ringOut := o })) ∧
  (∀ (s : State) (a : BitVec 32), ∃ t : State, exec .taskStep s = .next t ∧ t.acc = s.acc ∧
    exec .taskStep { s with acc := a } = .next { t with acc := a })

/-- The fatal flag is sticky (rule R307): no step clears it but the reset event. -/
def Obligations.OnlyResetClearsTheFatalFlag : Prop :=
  ∀ s t : State, s.fxFatal = true → step s = .next t →
    t.fxFatal = true ∨ (nextPort s = none ∧ ∃ rest, s.arrivals = .reset :: rest)
end

