-- ==== Sys2Proof/Laws/Arith.lean ====
section
/-! SUPPORT. The value-level operations once each: what saturation, the Q15 views and the status word are, as integers and
bit fields. -/

namespace Sys2Proof.Machine

/-- An integer in the s16 range survives storage in 16 bits. -/
theorem ofInt16_toInt {v : Int} (lo : -32768 ≤ v) (hi : v ≤ 32767) : (BitVec.ofInt 16 v).toInt = v := by
  rw [BitVec.toInt_ofInt, Int.bmod_def]; norm_num; split <;> omega

/-- A natural number below 32768 survives storage in 16 bits. -/
theorem ofNat16_toInt {n : Nat} (h : n ≤ 32767) : (BitVec.ofNat 16 n).toInt = n := by
  rw [BitVec.toInt_eq_toNat_cond, BitVec.toNat_ofNat, Nat.mod_eq_of_lt (by omega)]; norm_num; omega

/-- Every s16 cell holds an integer in the s16 range. -/
theorem s16_toInt_bounds (x : S16) : -32768 ≤ x.toInt ∧ x.toInt ≤ 32767 := by
  have := BitVec.le_toInt x; have := BitVec.toInt_le (x := x); norm_num at *; omega

/-- The clamp lands in the s16 range (rule R14). -/
theorem clamp16_bounds (v : Int) : -32768 ≤ clamp16 v ∧ clamp16 v ≤ 32767 := by
  unfold clamp16; split_ifs <;> omega

/-- The clamp as minimum and maximum (rule R14). -/
theorem clamp16_eq (v : Int) : clamp16 v = max (-32768) (min 32767 v) := by
  unfold clamp16; split_ifs <;> omega

/-- `sat16` holds the clamped value (rule R14). -/
theorem sat16_toInt (v : Int) : (sat16 v).toInt = max (-32768) (min 32767 v) := by
  rw [sat16, ofInt16_toInt (clamp16_bounds v).1 (clamp16_bounds v).2, clamp16_eq]

@[simp] theorem sat16_zero : sat16 0 = 0 := by decide

@[simp] theorem asr_zero (k : Nat) : asr 0 k = 0 := by simp [asr]

@[simp] theorem qmul_zero_left (b : Int) : qmul 0 b = 0 := by simp [qmul]

@[simp] theorem qmul_zero_right (a : Int) : qmul a 0 = 0 := by simp [qmul]

/-- `asr` by 15 is floor division by 2^15 (rule R15). -/
theorem asr15 (v : Int) : asr v 15 = v / 32768 := by simp [asr]

/-- `asr` by 14 is floor division by 2^14 (rule R15). -/
theorem asr14 (v : Int) : asr v 14 = v / 16384 := by simp [asr]

/-- `qmul` is the floor of the Q15 product (rule R16). -/
theorem qmul_eq (a b : Int) : qmul a b = a * b / 32768 := by simp [qmul, asr15]

/-- A bit of two fields put together, whatever name the sum of the widths goes by. -/
theorem getLsbD_of_append {v w n : Nat} (x : BitVec v) (y : BitVec w) (h : v + w = n) (i : Nat) :
    ((x ++ y).cast h).getLsbD i = if i < w then y.getLsbD i else x.getLsbD (i - w) := by
  rw [BitVec.getLsbD_cast, BitVec.getLsbD_append]

/-- The high half of a container is its Q15 value (rule R18). -/
@[simp] theorem cont_high (q : S16) : (cont q).extractLsb' 16 16 = q := by
  have e : cont q = (q ++ (0 : BitVec 16)).cast (by rfl : 16 + 16 = 32) := rfl
  ext i hi
  simp only [BitVec.getElem_extractLsb', e, getLsbD_of_append]
  simp [show ¬ 16 + i < 16 by omega, BitVec.getLsbD_eq_getElem hi]

/-- The padding of a written container is zero (rule R18). -/
@[simp] theorem cont_low (q : S16) : (cont q).extractLsb' 0 16 = 0 := by
  have e : cont q = (q ++ (0 : BitVec 16)).cast (by rfl : 16 + 16 = 32) := rfl
  ext i hi
  simp only [BitVec.getElem_extractLsb', e, getLsbD_of_append]
  simp [hi]

/-- Reading back what was written (rules R17, R18). -/
@[simp] theorem q15_cont (q : S16) : q15 (cont q) = q := cont_high q

/-- A bit of a status word: code, then INFO, then zeros (rule R103). -/
theorem statusWord_getLsbD (st : Status) (info : Octet) (i : Nat) :
    (statusWord st info).getLsbD i =
      if i < 8 then (statusCode st).getLsbD i else if i - 8 < 8 then info.getLsbD (i - 8) else false := by
  have e : statusWord st info = (((0 : BitVec 16) ++ info) ++ statusCode st).cast (by rfl : 16 + 8 + 8 = 32) := rfl
  rw [e, getLsbD_of_append, BitVec.getLsbD_append]
  simp

/-- Bits 31:16 of a status word are 0 (rule R103). -/
@[simp] theorem statusWord_high (st : Status) (info : Octet) : (statusWord st info).extractLsb' 16 16 = 0 := by
  ext i hi
  simp only [BitVec.getElem_extractLsb', statusWord_getLsbD]
  simp [show ¬ 16 + i < 8 by omega, show ¬ 16 + i - 8 < 8 by omega]

/-- Bits 15:8 of a status word are INFO (rule R103). -/
@[simp] theorem statusWord_info (st : Status) (info : Octet) : (statusWord st info).extractLsb' 8 8 = info := by
  ext i hi
  simp only [BitVec.getElem_extractLsb', statusWord_getLsbD]
  simp [show ¬ 8 + i < 8 by omega, hi]

/-- Bits 7:0 of a status word are the status code (rule R103). -/
@[simp] theorem statusWord_code (st : Status) (info : Octet) :
    (statusWord st info).extractLsb' 0 8 = statusCode st := by
  ext i hi
  simp only [BitVec.getElem_extractLsb', statusWord_getLsbD]
  simp [hi]

/-- The status codes are distinct; 0 is OK alone (rule R300). -/
@[simp] theorem statusCode_eq_zero (st : Status) : statusCode st = 0#8 ↔ st = .ok := by cases st <;> decide

end Sys2Proof.Machine
end

