-- ==== Sys2Proof/Laws/Codec.lean ====
section
/-! SUPPORT. The pieces of the decoder and the encoder, once each: the fields of a command word, the opcode map, the
operand words. -/

namespace Sys2Proof

open Machine (getLsbD_of_append)

/-- A bit of a command word: B, then A, then OPC (rule R100). -/
theorem commandWord_getLsbD (opc a : Octet) (b : BitVec 16) (i : Nat) :
    (commandWord opc a b).getLsbD i =
      if i < 16 then b.getLsbD i else if i - 16 < 8 then a.getLsbD (i - 16) else opc.getLsbD (i - 16 - 8) := by
  have e : commandWord opc a b = ((opc ++ a) ++ b).cast (by rfl : 8 + 8 + 16 = 32) := rfl
  rw [e, getLsbD_of_append, BitVec.getLsbD_append]

@[simp] theorem fieldOpc_commandWord (opc a : Octet) (b : BitVec 16) : fieldOpc (commandWord opc a b) = opc := by
  ext i hi
  simp only [fieldOpc, BitVec.getElem_extractLsb', commandWord_getLsbD]
  simp [show ¬ 24 + i < 16 by omega, show ¬ 24 + i - 16 < 8 by omega, show 24 + i - 16 - 8 = i by omega, hi]

@[simp] theorem fieldA_commandWord (opc a : Octet) (b : BitVec 16) : fieldA (commandWord opc a b) = a := by
  ext i hi
  simp only [fieldA, BitVec.getElem_extractLsb', commandWord_getLsbD]
  simp [show ¬ 16 + i < 16 by omega, hi]

@[simp] theorem fieldB_commandWord (opc a : Octet) (b : BitVec 16) : fieldB (commandWord opc a b) = b := by
  ext i hi
  simp only [fieldB, BitVec.getElem_extractLsb', commandWord_getLsbD]
  simp [hi]

@[simp] theorem fieldBit_commandWord (opc a : Octet) (b : BitVec 16) :
    fieldBit (commandWord opc a b) = a[0] := by
  simp only [fieldBit, commandWord_getLsbD]; simp

@[simp] theorem highA_commandWord (opc a : Octet) (b : BitVec 16) :
    (commandWord opc a b).extractLsb' 17 7 = a.extractLsb' 1 7 := by
  ext i hi
  simp only [BitVec.getElem_extractLsb', commandWord_getLsbD]
  simp [show ¬ 17 + i < 16 by omega, show 17 + i - 16 = 1 + i by omega, show 1 + i < 8 by omega]

/-- A command word is its three fields put together (rule R100). -/
theorem commandWord_fields (w : Word) : commandWord (fieldOpc w) (fieldA w) (fieldB w) = w := by
  apply BitVec.eq_of_getLsbD_eq
  intro i hi
  rw [commandWord_getLsbD]
  simp only [fieldOpc, fieldA, fieldB, BitVec.getLsbD_extractLsb']
  split_ifs with h1 h2
  · simp [h1]
  · simp [h2, show 16 + (i - 16) = i by omega]
  · simp [show i - 16 - 8 < 8 by omega, show 24 + (i - 16 - 8) = i by omega]

@[simp] theorem octetOfBit_zero (b : Bool) : (octetOfBit b)[0] = b := by cases b <;> decide
@[simp] theorem octetOfBit_high (b : Bool) : (octetOfBit b).extractLsb' 1 7 = 0 := by cases b <;> decide
@[simp] theorem ringOfBit_bitOfRing (r : RingSel) : ringOfBit (bitOfRing r) = r := by cases r <;> rfl
@[simp] theorem bitOfRing_ringOfBit (b : Bool) : bitOfRing (ringOfBit b) = b := by cases b <;> rfl

/-- An operand A with A[7:1] = 0 is its bit A[0] (rule R101). -/
theorem octetOfBit_of_high (a : Octet) (h : a.extractLsb' 1 7 = 0) : octetOfBit a[0] = a := by
  revert a; decide

/-- The opcode map reads back what the opcode values say (rule R107). -/
@[simp] theorem opcodeOf_opcodeValue (o : Opcode) : opcodeOf (opcodeValue o) = some o := by cases o <;> decide

/-- An assigned opcode value is the value of its opcode (rule R107). -/
theorem opcodeValue_of_opcodeOf (v : Octet) (o : Opcode) (h : opcodeOf v = some o) : opcodeValue o = v := by
  revert v o; decide

/-- What splitting off n words does: the first n, and the rest. -/
theorem splitWords_some {n : Nat} {ws ops rest : List Word} (h : splitWords n ws = some (ops, rest)) :
    ws = ops ++ rest ∧ ops.length = n := by
  induction n generalizing ws ops with
  | zero => simp_all [splitWords]
  | succ n ih =>
    cases ws with
    | nil => simp [splitWords] at h
    | cons w ws =>
      simp only [splitWords] at h
      split at h
      · cases h
      · next o r hs =>
        simp only [Option.some.injEq, Prod.mk.injEq] at h
        obtain ⟨rfl, rfl⟩ := h
        obtain ⟨rfl, hl⟩ := ih hs
        simp [hl]

/-- n words followed by others split into the n and the others. -/
@[simp] theorem splitWords_append (ops rest : List Word) :
    splitWords ops.length (ops ++ rest) = some (ops, rest) := by
  induction ops with
  | nil => rfl
  | cons w ops ih => simp [splitWords, ih]

/-- Splitting fails exactly where words are missing. -/
theorem splitWords_none {n : Nat} {ws : List Word} : splitWords n ws = none ↔ ws.length < n := by
  induction n generalizing ws with
  | zero => simp [splitWords]
  | succ n ih =>
    cases ws with
    | nil => simp [splitWords]
    | cons w ws =>
      simp only [splitWords, List.length_cons, Nat.add_lt_add_iff_right, ← ih (ws := ws)]
      split <;> simp_all

@[simp] theorem wordsOf_length (fs : List Frame) : (wordsOf fs).length = 2 * fs.length := by
  induction fs with
  | nil => rfl
  | cons f fs ih => simp [wordsOf, ih]; omega

@[simp] theorem framesOf_wordsOf (fs : List Frame) : framesOf (wordsOf fs) = fs := by
  induction fs with
  | nil => rfl
  | cons f fs ih => simp [wordsOf, framesOf, ih]

@[simp] theorem wordsOf_append (fs gs : List Frame) : wordsOf (fs ++ gs) = wordsOf fs ++ wordsOf gs := by
  induction fs with
  | nil => rfl
  | cons f fs ih => simp [wordsOf, ih]

/-- An even number of words is the words of its frames. -/
theorem wordsOf_framesOf (n : Nat) (ws : List Word) (h : ws.length = 2 * n) :
    wordsOf (framesOf ws) = ws ∧ (framesOf ws).length = n := by
  induction n generalizing ws with
  | zero => simp_all [framesOf, wordsOf]
  | succ n ih =>
    match ws, h with
    | l :: r :: rest, h =>
      have := ih rest (by simp at h; omega)
      simp [framesOf, wordsOf, this]

/-- The length of a command read from its encoding (rule R110) is the number of words of the encoding. -/
theorem decode_cons (w : Word) (ops rest : List Word) (h : ops.length = cmdLen w - 1) :
    decode (w :: (ops ++ rest)) = decodeCommand w ops rest := by
  simp [decode, ← h]

/-- A command is at least its command word long (rule R110). -/
theorem cmdLen_pos (w : Word) : 1 ≤ cmdLen w := by unfold cmdLen; split_ifs <;> omega

end Sys2Proof
end

