-- ==== Sys2Proof/Laws/State.lean ====
section
/-! SUPPORT. One lemma per field per update: what the port, ring and flag writes leave alone, so that no proof unfolds a
record update. -/

namespace Sys2Proof.Machine

section Ports
variable (p : Port) (v : PortState) (s : State)

@[simp] theorem getPort_rx : getPort .rx s = s.rx := rfl
@[simp] theorem getPort_tx : getPort .tx s = s.tx := rfl
@[simp] theorem getPort_ctl : getPort .ctl s = s.ctl := rfl
@[simp] theorem getPort_setPort_same : getPort p (setPort p v s) = v := by cases p <;> rfl
theorem getPort_setPort_other {q : Port} (h : q ≠ p) : getPort q (setPort p v s) = getPort q s := by
  cases p <;> cases q <;> simp_all [setPort]

@[simp] theorem setPort_cfg : (setPort p v s).cfg = s.cfg := by cases p <;> rfl
@[simp] theorem setPort_issuer : (setPort p v s).issuer = s.issuer := by cases p <;> rfl
@[simp] theorem setPort_ringIn : (setPort p v s).ringIn = s.ringIn := by cases p <;> rfl
@[simp] theorem setPort_ringOut : (setPort p v s).ringOut = s.ringOut := by cases p <;> rfl
@[simp] theorem setPort_curRate : (setPort p v s).curRate = s.curRate := by cases p <;> rfl
@[simp] theorem setPort_acc : (setPort p v s).acc = s.acc := by cases p <;> rfl
@[simp] theorem setPort_fxInited : (setPort p v s).fxInited = s.fxInited := by cases p <;> rfl
@[simp] theorem setPort_fxFatal : (setPort p v s).fxFatal = s.fxFatal := by cases p <;> rfl
@[simp] theorem setPort_fxRate : (setPort p v s).fxRate = s.fxRate := by cases p <;> rfl
@[simp] theorem setPort_fxBits : (setPort p v s).fxBits = s.fxBits := by cases p <;> rfl
@[simp] theorem setPort_reverb : (setPort p v s).reverb = s.reverb := by cases p <;> rfl
@[simp] theorem setPort_granular : (setPort p v s).granular = s.granular := by cases p <;> rfl
@[simp] theorem setPort_cfgIn : (setPort p v s).cfgIn = s.cfgIn := by cases p <;> rfl
@[simp] theorem setPort_ctlIn : (setPort p v s).ctlIn = s.ctlIn := by cases p <;> rfl
@[simp] theorem setPort_arrivals : (setPort p v s).arrivals = s.arrivals := by cases p <;> rfl
end Ports

section PortFields
variable (ws : List Word) (v : PortState)

@[simp] theorem emit_pending : (v.emit ws).pending = v.pending := rfl
@[simp] theorem emit_cp : (v.emit ws).cp = v.cp := rfl
@[simp] theorem emit_resp : (v.emit ws).resp = v.resp ++ ws := rfl
@[simp] theorem consume_pending : (v.consume ws).pending = ws := rfl
@[simp] theorem consume_cp : (v.consume ws).cp = v.cp + cmdLen (v.pending.headD 0) := rfl
@[simp] theorem consume_resp : (v.consume ws).resp = v.resp := rfl
@[simp] theorem receive_pending : (v.receive ws).pending = v.pending ++ ws := rfl
@[simp] theorem receive_cp : (v.receive ws).cp = v.cp := rfl
@[simp] theorem receive_resp : (v.receive ws).resp = v.resp := rfl
end PortFields

section Respond
variable (st : Status) (info : Octet) (data : List Word) (s : State)

@[simp] theorem respond_cfg : (respond st info data s).cfg = s.cfg := by simp [respond, emit]
@[simp] theorem respond_issuer : (respond st info data s).issuer = s.issuer := by simp [respond, emit]
@[simp] theorem respond_ringIn : (respond st info data s).ringIn = s.ringIn := by simp [respond, emit]
@[simp] theorem respond_ringOut : (respond st info data s).ringOut = s.ringOut := by simp [respond, emit]
@[simp] theorem respond_curRate : (respond st info data s).curRate = s.curRate := by simp [respond, emit]
@[simp] theorem respond_acc : (respond st info data s).acc = s.acc := by simp [respond, emit]
@[simp] theorem respond_fxInited : (respond st info data s).fxInited = s.fxInited := by simp [respond, emit]
@[simp] theorem respond_fxFatal : (respond st info data s).fxFatal = s.fxFatal := by simp [respond, emit]
@[simp] theorem respond_fxRate : (respond st info data s).fxRate = s.fxRate := by simp [respond, emit]
@[simp] theorem respond_fxBits : (respond st info data s).fxBits = s.fxBits := by simp [respond, emit]
@[simp] theorem respond_reverb : (respond st info data s).reverb = s.reverb := by simp [respond, emit]
@[simp] theorem respond_granular : (respond st info data s).granular = s.granular := by simp [respond, emit]
@[simp] theorem respond_cfgIn : (respond st info data s).cfgIn = s.cfgIn := by simp [respond, emit]
@[simp] theorem respond_ctlIn : (respond st info data s).ctlIn = s.ctlIn := by simp [respond, emit]
@[simp] theorem respond_arrivals : (respond st info data s).arrivals = s.arrivals := by simp [respond, emit]

/-- What a response does to the issuing port: its words are appended. -/
theorem respond_getPort_issuer :
    getPort s.issuer (respond st info data s) =
      (getPort s.issuer s).emit (statusWord st info :: data) := by
  simp [respond, emit]

/-- A response leaves the other ports alone. -/
theorem respond_getPort_other {q : Port} (h : q ≠ s.issuer) :
    getPort q (respond st info data s) = getPort q s := by
  simp only [respond, emit]; exact getPort_setPort_other _ _ _ h

/-- A rejection is a response with no data. -/
theorem reject_eq : reject st s = respond st 0 [] s := rfl
end Respond

section Rings
variable (r : RingSel) (q : Ring) (s : State)

@[simp] theorem getRing_in : getRing .ringIn s = s.ringIn := rfl
@[simp] theorem getRing_out : getRing .ringOut s = s.ringOut := rfl
@[simp] theorem setRing_in : setRing .ringIn q s = { s with ringIn := q } := rfl
@[simp] theorem setRing_out : setRing .ringOut q s = { s with ringOut := q } := rfl
@[simp] theorem setRing_issuer : (setRing r q s).issuer = s.issuer := by cases r <;> rfl
@[simp] theorem setRing_cfg : (setRing r q s).cfg = s.cfg := by cases r <;> rfl
end Rings

section Flags
variable (e : Bool) (d : Octet) (rate : BitVec 32) (s : State)

@[simp] theorem setEnabled_cfg : (setEnabled e s).cfg = s.cfg := by unfold setEnabled; split <;> rfl
@[simp] theorem setEnabled_issuer : (setEnabled e s).issuer = s.issuer := by unfold setEnabled; split <;> rfl
@[simp] theorem setEnabled_rx : (setEnabled e s).rx = s.rx := by unfold setEnabled; split <;> rfl
@[simp] theorem setEnabled_tx : (setEnabled e s).tx = s.tx := by unfold setEnabled; split <;> rfl
@[simp] theorem setEnabled_ctl : (setEnabled e s).ctl = s.ctl := by unfold setEnabled; split <;> rfl
@[simp] theorem setEnabled_ringIn : (setEnabled e s).ringIn = s.ringIn := by unfold setEnabled; split <;> rfl
@[simp] theorem setEnabled_ringOut : (setEnabled e s).ringOut = s.ringOut := by unfold setEnabled; split <;> rfl
@[simp] theorem setEnabled_curRate : (setEnabled e s).curRate = s.curRate := by unfold setEnabled; split <;> rfl
@[simp] theorem setEnabled_acc : (setEnabled e s).acc = s.acc := by unfold setEnabled; split <;> rfl
@[simp] theorem setEnabled_fxInited : (setEnabled e s).fxInited = s.fxInited := by unfold setEnabled; split <;> rfl
@[simp] theorem setEnabled_fxFatal : (setEnabled e s).fxFatal = s.fxFatal := by unfold setEnabled; split <;> rfl
@[simp] theorem setEnabled_fxRate : (setEnabled e s).fxRate = s.fxRate := by unfold setEnabled; split <;> rfl
@[simp] theorem setEnabled_fxBits : (setEnabled e s).fxBits = s.fxBits := by unfold setEnabled; split <;> rfl
@[simp] theorem setEnabled_cfgIn : (setEnabled e s).cfgIn = s.cfgIn := by unfold setEnabled; split <;> rfl
@[simp] theorem setEnabled_ctlIn : (setEnabled e s).ctlIn = s.ctlIn := by unfold setEnabled; split <;> rfl
@[simp] theorem setEnabled_arrivals : (setEnabled e s).arrivals = s.arrivals := by unfold setEnabled; split <;> rfl

@[simp] theorem setFormat_cfg : (setFormat d rate s).cfg = s.cfg := by unfold setFormat; split <;> rfl
@[simp] theorem setFormat_issuer : (setFormat d rate s).issuer = s.issuer := by unfold setFormat; split <;> rfl
@[simp] theorem setFormat_rx : (setFormat d rate s).rx = s.rx := by unfold setFormat; split <;> rfl
@[simp] theorem setFormat_tx : (setFormat d rate s).tx = s.tx := by unfold setFormat; split <;> rfl
@[simp] theorem setFormat_ctl : (setFormat d rate s).ctl = s.ctl := by unfold setFormat; split <;> rfl
@[simp] theorem setFormat_ringIn : (setFormat d rate s).ringIn = s.ringIn := by unfold setFormat; split <;> rfl
@[simp] theorem setFormat_ringOut : (setFormat d rate s).ringOut = s.ringOut := by unfold setFormat; split <;> rfl
@[simp] theorem setFormat_curRate : (setFormat d rate s).curRate = s.curRate := by unfold setFormat; split <;> rfl
@[simp] theorem setFormat_acc : (setFormat d rate s).acc = s.acc := by unfold setFormat; split <;> rfl
@[simp] theorem setFormat_fxFatal : (setFormat d rate s).fxFatal = s.fxFatal := by unfold setFormat; split <;> rfl
@[simp] theorem setFormat_fxRate : (setFormat d rate s).fxRate = rate := by unfold setFormat; split <;> rfl
@[simp] theorem setFormat_fxBits : (setFormat d rate s).fxBits = d := by unfold setFormat; split <;> rfl
@[simp] theorem setFormat_reverb : (setFormat d rate s).reverb = s.reverb := by unfold setFormat; split <;> rfl
@[simp] theorem setFormat_granular : (setFormat d rate s).granular = s.granular := by unfold setFormat; split <;> rfl
@[simp] theorem setFormat_cfgIn : (setFormat d rate s).cfgIn = s.cfgIn := by unfold setFormat; split <;> rfl
@[simp] theorem setFormat_ctlIn : (setFormat d rate s).ctlIn = s.ctlIn := by unfold setFormat; split <;> rfl
@[simp] theorem setFormat_arrivals : (setFormat d rate s).arrivals = s.arrivals := by unfold setFormat; split <;> rfl
end Flags

end Sys2Proof.Machine
end

