-- ==== Sys2Proof/Laws/Effect.lean ====
section
/-! SUPPORT. The engine's shared operations once each: what the block function, the initialisation, the parameter write
and a task invocation leave alone. -/

namespace Sys2Proof.Machine

/-- One frame writes the engine's state alone (rule R172). -/
theorem fxFrame_frame (s : State) (f : Frame) :
    (fxFrame s f).1 = { s with reverb := (fxFrame s f).1.reverb, granular := (fxFrame s f).1.granular } := by
  unfold fxFrame; split <;> rfl

/-- The block function writes the engine's state alone (rule R172). -/
theorem fxBlock_frame (s : State) (fs : List Frame) :
    (fxBlock s fs).1 = { s with reverb := (fxBlock s fs).1.reverb, granular := (fxBlock s fs).1.granular } := by
  induction fs generalizing s with
  | nil => rfl
  | cons f fs ih =>
    simp only [fxBlock]
    rw [ih, fxFrame_frame]

/-- As many frames come out as go in (rule R172). -/
@[simp] theorem fxBlock_length (s : State) (fs : List Frame) : (fxBlock s fs).2.length = fs.length := by
  induction fs generalizing s with
  | nil => rfl
  | cons f fs ih => simp [fxBlock, ih]

/-- The block function runs frames one after another (rules R171, R172). -/
theorem fxBlock_append (s : State) (as bs : List Frame) :
    fxBlock s (as ++ bs) =
      ((fxBlock (fxBlock s as).1 bs).1, (fxBlock s as).2 ++ (fxBlock (fxBlock s as).1 bs).2) := by
  induction as generalizing s with
  | nil => rfl
  | cons f fs ih => simp [fxBlock, ih]

/-- A granular frame keeps the parameter registers and the freeze flag (rules R53, R54). -/
theorem granFrame_registers (c : Config) (g : GranularState) (f : Frame) :
    (granFrame c g f).1.dry = g.dry ∧ (granFrame c g f).1.wet = g.wet ∧ (granFrame c g f).1.density = g.density ∧
    (granFrame c g f).1.grainLen = g.grainLen ∧ (granFrame c g f).1.frozen = g.frozen := by
  simp only [granFrame, captureWrite]; split <;> simp_all

/-- The registers a block of frames keeps, and the variant it does not touch. -/
theorem fxBlock_registers (s : State) (fs : List Frame) :
    (fxBlock s fs).1.reverb =
      { s.reverb with left := (fxBlock s fs).1.reverb.left, right := (fxBlock s fs).1.reverb.right } ∧
    (fxBlock s fs).1.granular.dry = s.granular.dry ∧ (fxBlock s fs).1.granular.wet = s.granular.wet ∧
    (fxBlock s fs).1.granular.density = s.granular.density ∧
    (fxBlock s fs).1.granular.grainLen = s.granular.grainLen ∧
    (fxBlock s fs).1.granular.frozen = s.granular.frozen ∧
    (s.cfg.activeFx = .reverb → (fxBlock s fs).1.granular = s.granular) ∧
    (s.cfg.activeFx = .granular → (fxBlock s fs).1.reverb = s.reverb) := by
  induction fs generalizing s with
  | nil => simp [fxBlock]
  | cons f fs ih =>
    simp only [fxBlock]
    cases hv : s.cfg.activeFx with
    | reverb =>
      have e : (fxFrame s f).1 = { s with reverb := (reverbFrame s.cfg.combOutGain s.reverb f).1 } := by
        simp [fxFrame, hv]
      obtain ⟨h1, h2, h3, h4, h5, h6, h7, -⟩ := ih (fxFrame s f).1
      rw [e] at h1 h2 h3 h4 h5 h6 h7 ⊢
      refine ⟨?_, h2, h3, h4, h5, h6, fun _ => h7 hv, by simp⟩
      rw [h1]; simp [reverbFrame]
    | granular =>
      have e : (fxFrame s f).1 = { s with granular := (granFrame s.cfg s.granular f).1 } := by simp [fxFrame, hv]
      obtain ⟨g1, g2, g3, g4, g5⟩ := granFrame_registers s.cfg s.granular f
      obtain ⟨h1, h2, h3, h4, h5, h6, -, h8⟩ := ih (fxFrame s f).1
      rw [e] at h1 h2 h3 h4 h5 h6 h8 ⊢
      exact ⟨h1, h2.trans g1, h3.trans g2, h4.trans g3, h5.trans g4, h6.trans g5, by simp, fun _ => h8 hv⟩

/-- What FX_INIT's state effect leaves alone (rules R163, R164). -/
theorem initEffect_frame (s : State) :
    (initEffect s).1 = { s with
      fxInited := (initEffect s).1.fxInited
      fxFatal := (initEffect s).1.fxFatal
      reverb := { s.reverb with left := (initEffect s).1.reverb.left, right := (initEffect s).1.reverb.right }
      granular := { s.granular with
        cap := (initEffect s).1.granular.cap
        wc := (initEffect s).1.granular.wc
        grains := (initEffect s).1.granular.grains
        rng := (initEffect s).1.granular.rng } } := by
  unfold initEffect
  split
  · rfl
  · unfold buildEffect reverbInit granInit
    cases s.cfg.activeFx with
    | reverb => dsimp only; by_cases h : (channelFits s.cfg s.fxRate.toNat s.cfg.left && channelFits s.cfg s.fxRate.toNat s.cfg.right) = true <;> simp only [h] <;> rfl
    | granular => rfl

/-- Which variant's state FX_INIT writes, and that it never clears FX_FATAL (rules R163, R307). -/
theorem initEffect_variant (s : State) :
    (s.cfg.activeFx = .reverb → (initEffect s).1.granular = s.granular) ∧
    (s.cfg.activeFx = .granular → (initEffect s).1.reverb = s.reverb) ∧
    (s.fxFatal = true → initEffect s = (s, .fatal)) ∧
    ((initEffect s).2 = .ok ∨ (initEffect s).2 = .fatal) := by
  unfold initEffect buildEffect
  cases hv : s.cfg.activeFx <;> cases hf : s.fxFatal <;> simp
  split <;> simp_all
  split at * <;> simp_all
  rename_i h; rw [← h]

/-- What a parameter write leaves alone (rule R169). -/
theorem setParam_frame (id : Octet) (v : S16) (s : State) :
    setParam id v s = { s with
      reverb := (setParam id v s).reverb
      granular := (setParam id v s).granular } := by
  unfold setParam; split <;> rfl

end Sys2Proof.Machine
end

