-- ==== Sys2Proof/Laws/Fetch.lean ====
section
/-! SUPPORT. Fetch once: which port goes next, and what fetching answers there. -/

namespace Sys2Proof.Machine

/-- A port is ready exactly when its stream does not decode to "not all there". -/
theorem commandReady_eq_false {v : PortState} : commandReady v = false ↔ decode v.pending = .incomplete := by
  unfold commandReady; split <;> simp_all

theorem commandReady_eq_true {v : PortState} : commandReady v = true ↔ decode v.pending ≠ .incomplete := by
  rw [ne_eq, ← commandReady_eq_false]; simp

/-- RX goes first (rule R88). -/
theorem nextPort_rx {s : State} (h : decode s.rx.pending ≠ .incomplete) : nextPort s = some .rx := by
  simp [nextPort, commandReady_eq_true.mpr h]

/-- TX goes next (rule R88). -/
theorem nextPort_tx {s : State} (h1 : decode s.rx.pending = .incomplete) (h2 : decode s.tx.pending ≠ .incomplete) :
    nextPort s = some .tx := by
  simp [nextPort, commandReady_eq_false.mpr h1, commandReady_eq_true.mpr h2]

/-- CTL goes last (rule R88). -/
theorem nextPort_ctl {s : State} (h1 : decode s.rx.pending = .incomplete) (h2 : decode s.tx.pending = .incomplete)
    (h3 : decode s.ctl.pending ≠ .incomplete) : nextPort s = some .ctl := by
  simp [nextPort, commandReady_eq_false.mpr h1, commandReady_eq_false.mpr h2, commandReady_eq_true.mpr h3]

/-- No port has a whole command. -/
theorem nextPort_none {s : State} : nextPort s = none ↔ decode s.rx.pending = .incomplete ∧
    decode s.tx.pending = .incomplete ∧ decode s.ctl.pending = .incomplete := by
  unfold nextPort
  rw [← commandReady_eq_false, ← commandReady_eq_false, ← commandReady_eq_false]
  split_ifs <;> simp_all

/-- What a step of a well-formed build is, from what fetching finds. -/
theorem step_of_fetch {s : State} (h : configWf s.cfg = true) :
    step s = match fetch s with
      | .settled t => .next t
      | .run i t => exec i t := by
  simp only [step, h, if_true] <;> rfl

/-- Fetching a command at port p (rule R111). -/
theorem fetch_command {s : State} {p : Port} {i : Instr} {rest : List Word} (hp : nextPort s = some p)
    (hd : decode (getPort p s).pending = .command i rest) : fetch s = .run i (takeCommand p rest s) := by
  simp [fetch, hp, hd]

/-- Fetching an illegal command at port p (rule R111). -/
theorem fetch_illegal {s : State} {p : Port} {why : IllegalReason} {rest : List Word} (hp : nextPort s = some p)
    (hd : decode (getPort p s).pending = .illegal why rest) :
    fetch s = .settled (reject .illegal (takeCommand p rest s)) := by
  simp [fetch, hp, hd]

/-- Fetching where no port has a whole command: the next arrival. -/
theorem fetch_none {s : State} (hp : nextPort s = none) : fetch s = .settled (nextArrival s) := by
  simp [fetch, hp]

/-- The ways a step of a well-formed build goes. -/
theorem step_cases {s t : State} (h : step s = .next t) :
    configWf s.cfg = true ∧
    ((nextPort s = none ∧ t = nextArrival s) ∨
     (∃ p why rest, nextPort s = some p ∧ decode (getPort p s).pending = .illegal why rest ∧
        t = reject .illegal (takeCommand p rest s)) ∨
     (∃ p i rest, nextPort s = some p ∧ decode (getPort p s).pending = .command i rest ∧
        exec i (takeCommand p rest s) = .next t)) := by
  by_cases hc : configWf s.cfg = true
  · refine ⟨hc, ?_⟩
    rw [step_of_fetch hc] at h
    cases hp : nextPort s with
    | none => rw [fetch_none hp] at h; left; simp_all
    | some p =>
      right
      cases hd : decode (getPort p s).pending with
      | incomplete =>
        exfalso
        unfold nextPort at hp
        split_ifs at hp with h1 h2 h3 <;> simp only [Option.some.injEq] at hp <;> subst hp <;>
          simp_all [commandReady]
      | illegal why rest => rw [fetch_illegal hp hd] at h; left; exact ⟨p, why, rest, rfl, hd, by simp_all⟩
      | command i rest => rw [fetch_command hp hd] at h; right; exact ⟨p, i, rest, rfl, hd, h⟩
  · simp [step, hc] at h

section Take
variable (p : Port) (rest : List Word) (s : State)

@[simp] theorem takeCommand_issuer : (takeCommand p rest s).issuer = p := rfl
@[simp] theorem takeCommand_cfg : (takeCommand p rest s).cfg = s.cfg := by cases p <;> rfl
@[simp] theorem takeCommand_ringIn : (takeCommand p rest s).ringIn = s.ringIn := by cases p <;> rfl
@[simp] theorem takeCommand_ringOut : (takeCommand p rest s).ringOut = s.ringOut := by cases p <;> rfl
@[simp] theorem takeCommand_curRate : (takeCommand p rest s).curRate = s.curRate := by cases p <;> rfl
@[simp] theorem takeCommand_acc : (takeCommand p rest s).acc = s.acc := by cases p <;> rfl
@[simp] theorem takeCommand_fxInited : (takeCommand p rest s).fxInited = s.fxInited := by cases p <;> rfl
@[simp] theorem takeCommand_fxFatal : (takeCommand p rest s).fxFatal = s.fxFatal := by cases p <;> rfl
@[simp] theorem takeCommand_reverb : (takeCommand p rest s).reverb = s.reverb := by cases p <;> rfl
@[simp] theorem takeCommand_granular : (takeCommand p rest s).granular = s.granular := by cases p <;> rfl
@[simp] theorem takeCommand_arrivals : (takeCommand p rest s).arrivals = s.arrivals := by cases p <;> rfl
end Take

/-- A permitted command is its body; any other is rejected with PORT (rule R111). -/
theorem ifPermitted_next {permitted : Bool} {s t : State} {body : Result} (h : ifPermitted permitted s body = .next t) :
    (permitted = true ∧ body = .next t) ∨ (permitted = false ∧ t = reject .port s) := by
  unfold ifPermitted at h
  cases permitted <;> simp_all

end Sys2Proof.Machine
end

