-- ==== Sys2Proof/Laws/Granular.lean ====
section
/-! SUPPORT. The granular operations once each (rules R233 to R244): the capture write, a grain's start offset, and the
service of the slots in order. -/

namespace Sys2Proof.Machine

/-- The capture write touches the buffer and its cursor alone, and neither while frozen (rule R236). -/
theorem captureWrite_frame (c : Config) (m : S16) (g : GranularState) :
    captureWrite c m g = { g with cap := (captureWrite c m g).cap, wc := (captureWrite c m g).wc } := by
  unfold captureWrite; split <;> rfl

theorem captureWrite_frozen (c : Config) (m : S16) {g : GranularState} (h : g.frozen = true) :
    captureWrite c m g = g := by simp [captureWrite, h]

theorem captureWrite_running (c : Config) (m : S16) {g : GranularState} (h : g.frozen = false) :
    captureWrite c m g = { g with cap := g.cap.set g.wc m, wc := (g.wc + 1) % c.capLen } := by simp [captureWrite, h]

/-- The down-mix is the floor of the mean (rule R233). -/
theorem downMix_toInt (xl xr : S16) : (downMix xl xr).toInt = (xl.toInt + xr.toInt) / 2 := by
  have := s16_toInt_bounds xl
  have := s16_toInt_bounds xr
  unfold downMix fdiv; exact ofInt16_toInt (by omega) (by omega)

/-- The start offset as integers (rule R240). -/
theorem grainStart_eq (c : Config) (g : GranularState) (v : BitVec 32) (h : g.grainLen.toInt ≤ c.capLen)
    (hc : 0 < c.capLen) :
    ((grainStart c g v : Nat) : Int) =
      ((g.wc : Int) - g.grainLen.toInt - (v.toNat : Int) % ((c.capLen : Int) - g.grainLen.toInt + 1)) % c.capLen := by
  unfold grainStart fmodNat
  dsimp only
  have e : (((c.capLen : Int) - g.grainLen.toInt + 1).toNat : Int) = (c.capLen : Int) - g.grainLen.toInt + 1 := by omega
  have := Int.emod_nonneg (v.toNat : Int) (show (c.capLen : Int) - g.grainLen.toInt + 1 ≠ 0 by omega)
  rw [e, Int.toNat_of_nonneg this, Int.toNat_of_nonneg (Int.emod_nonneg _ (by omega))]

/-- The service of the first n slots (rules R237 to R241, R244): one draw for each idle one, in order; the sum of what
the active ones play; each active slot plays, each idle one is scheduled with its own draw, the others are untouched. -/
theorem serviceSlots_spec (c : Config) (g : GranularState) (n : Nat) (gs : List Grain) (rng : BitVec 32) (acc : Int) :
    (serviceSlots c g n gs rng acc).2.1 = rngNext^[((gs.take n).filter fun x => !x.act).length] rng ∧
    (serviceSlots c g n gs rng acc).2.2 =
      acc + (((gs.take n).filter fun x => x.act).map fun x => grainContribution c g x.st x.el).sum ∧
    ∀ (i : Nat) (x : Grain), gs[i]? = some x →
      (n ≤ i → (serviceSlots c g n gs rng acc).1[i]? = some x) ∧
      (i < n → x.act = true → (serviceSlots c g n gs rng acc).1[i]? = some (playGrain c g x).1) ∧
      (i < n → x.act = false → (serviceSlots c g n gs rng acc).1[i]? =
        some (scheduleGrain c g (rngNext^[((gs.take i).filter fun x => !x.act).length + 1] rng))) := by
  induction n generalizing gs rng acc with
  | zero => simp [serviceSlots]
  | succ n ih =>
    cases gs with
    | nil => simp [serviceSlots]
    | cons gr gs =>
      cases ha : gr.act
      · obtain ⟨i1, i2, i3⟩ := ih gs (rngNext rng) acc
        simp only [serviceSlots, ha]
        refine ⟨by simp [i1, ha], by simp [i2, ha], fun i x hx => ?_⟩
        cases i with
        | zero => simp at hx; subst hx; simp [ha]
        | succ i => simpa [ha] using i3 i x (by simpa using hx)
      · obtain ⟨i1, i2, i3⟩ := ih gs rng (acc + (playGrain c g gr).2)
        simp only [serviceSlots, ha, if_true]
        refine ⟨by simp [i1, ha], ?_, fun i x hx => ?_⟩
        · rw [i2, List.take_succ_cons, List.filter_cons]; simp only [ha, if_true, List.map_cons, List.sum_cons]
          rw [Int.add_assoc]; rfl
        · cases i with
          | zero => simp at hx; subst hx; simp [ha]
          | succ i => simpa [ha] using i3 i x (by simpa using hx)

end Sys2Proof.Machine
end

