-- ==== Sys2Proof/Laws/Ring.lean ====
section
/-! SUPPORT. The ring primitives once each (rules R43, R130, R131): what a push or a pop that succeeds does to every
cell and index, when it succeeds, and that both keep a sound ring sound. -/

namespace Sys2Proof.Machine

/-- The size of a ring by the order of its indices (rule R43). -/
theorem ringSize_eq {n : Nat} {r : Ring} (h : RingWf n r) :
    ringSize n r = if r.rd ≤ r.wr then r.wr - r.rd else r.wr + n - r.rd := by
  obtain ⟨-, h1, h2⟩ := h
  unfold ringSize fmodNat
  split_ifs with hle
  · rw [Int.emod_eq_of_lt (by omega) (by omega)]; omega
  · rw [show (r.wr : Int) - r.rd = ((r.wr : Int) + n - r.rd) + n * (-1) by ring, Int.add_mul_emod_self_left,
      Int.emod_eq_of_lt (by omega) (by omega)]
    omega

/-- At most RING_N - 1 samples are live (rule R43). -/
theorem ringSize_lt {n : Nat} {r : Ring} (h : RingWf n r) : ringSize n r ≤ n - 1 := by
  rw [ringSize_eq h]; obtain ⟨-, h1, h2⟩ := h; split_ifs <;> omega

@[simp] theorem writeCells_length (n : Nat) (buf : List Word) (pos : Nat) (ws : List Word) :
    (writeCells n buf pos ws).length = buf.length := by
  induction ws generalizing buf pos with
  | nil => rfl
  | cons w ws ih => simp [writeCells, ih]

/-- A cell that no written position wraps to keeps its word (rule R130). -/
theorem writeCells_other (n : Nat) (buf : List Word) (pos : Nat) (ws : List Word) (a : Nat)
    (h : ∀ j < ws.length, a ≠ (pos + j) % n) : (writeCells n buf pos ws)[a]? = buf[a]? := by
  induction ws generalizing buf pos with
  | nil => rfl
  | cons w ws ih =>
    rw [writeCells, ih]
    · have := h 0 (by simp)
      rw [List.getElem?_set_ne]; simpa using this.symm
    · intro j hj
      have := h (j + 1) (by simpa using hj)
      rwa [show pos + 1 + j = pos + (j + 1) by ring]

/-- Two positions less than n apart wrap to different cells. -/
theorem mod_ne_of_lt {n pos i j : Nat} (hij : i < j) (hj : j < i + n) : (pos + i) % n ≠ (pos + j) % n := by
  intro h
  have := (Nat.modEq_iff_dvd' (by omega : pos + i ≤ pos + j)).mp h
  have := Nat.le_of_dvd (by omega) this
  omega

/-- The written cells hold the words, in order (rule R130). -/
theorem writeCells_written (n : Nat) (buf : List Word) (pos : Nat) (ws : List Word) (hb : buf.length = n)
    (hn : ws.length ≤ n) (j : Nat) (hj : j < ws.length) : (writeCells n buf pos ws)[(pos + j) % n]? = ws[j]? := by
  induction ws generalizing buf pos j with
  | nil => simp at hj
  | cons w ws ih =>
    have hn0 : 0 < n := by simp at hn; omega
    rw [writeCells]
    cases j with
    | zero =>
      rw [writeCells_other]
      · simp [hb, Nat.mod_lt _ hn0]
      · intro j hj'
        simp only [List.length_cons] at hn
        have := mod_ne_of_lt (n := n) (pos := pos) (i := 0) (j := j + 1) (by omega) (by omega)
        rwa [show pos + 1 + j = pos + (j + 1) by ring]
    | succ j =>
      have := ih (buf.set (pos % n) w) (pos + 1) (by simpa using hb) (by simp at hn; omega) j (by simpa using hj)
      rw [show pos + (j + 1) = pos + 1 + j by ring]
      simpa using this

@[simp] theorem readCells_length (n : Nat) (buf : List Word) (pos k : Nat) :
    (readCells n buf pos k).length = k := by simp [readCells]

/-- What a push that succeeds does (rule R130). -/
theorem ringPush_some {n : Nat} {r q : Ring} {ws : List Word} (h : ringPush n r ws = some q) :
    0 < ws.length ∧ ws.length ≤ ringFree n r ∧ q.rd = r.rd ∧ q.wr = (r.wr + ws.length) % n ∧
      q.buf = writeCells n r.buf r.wr ws := by
  unfold ringPush at h
  split_ifs at h with hc
  simp only [Option.some.injEq] at h
  subst h
  refine ⟨?_, ?_, rfl, rfl, rfl⟩ <;> omega

/-- When a push succeeds (rule R130). -/
theorem ringPush_isSome {n : Nat} {r : Ring} {ws : List Word} (h0 : 0 < ws.length) (h1 : ws.length ≤ ringFree n r) :
    ringPush n r ws =
      some { r with buf := writeCells n r.buf r.wr ws, wr := (r.wr + ws.length) % n } := by
  unfold ringPush; rw [if_neg]; omega

/-- When a push fails (rule R130). -/
theorem ringPush_none {n : Nat} {r : Ring} {ws : List Word} (h : ws.length = 0 ∨ ringFree n r < ws.length) :
    ringPush n r ws = none := by
  unfold ringPush; rw [if_pos]; omega

/-- What a pop that succeeds does (rule R131). -/
theorem ringPop_some {n : Nat} {r q : Ring} {k : Nat} {ws : List Word} (h : ringPop n r k = some (ws, q)) :
    0 < k ∧ k ≤ ringSize n r ∧ ws = readCells n r.buf r.rd k ∧ q.buf = r.buf ∧ q.wr = r.wr ∧
      q.rd = (r.rd + k) % n := by
  unfold ringPop at h
  split_ifs at h with hc
  simp only [Option.some.injEq, Prod.mk.injEq] at h
  obtain ⟨rfl, rfl⟩ := h
  refine ⟨?_, ?_, rfl, rfl, rfl, rfl⟩ <;> omega

/-- When a pop succeeds (rule R131). -/
theorem ringPop_isSome {n : Nat} {r : Ring} {k : Nat} (h0 : 0 < k) (h1 : k ≤ ringSize n r) :
    ringPop n r k = some (readCells n r.buf r.rd k, { r with rd := (r.rd + k) % n }) := by
  unfold ringPop; rw [if_neg]; omega

/-- When a pop fails (rule R131). -/
theorem ringPop_none {n : Nat} {r : Ring} {k : Nat} (h : k = 0 ∨ ringSize n r < k) : ringPop n r k = none := by
  unfold ringPop; rw [if_pos]; omega

/-- A push keeps a sound ring sound. -/
theorem ringPush_keeps_wf {n : Nat} {r q : Ring} {ws : List Word} (hw : RingWf n r) (h : ringPush n r ws = some q) :
    RingWf n q := by
  obtain ⟨-, -, h1, h2, h3⟩ := ringPush_some h
  obtain ⟨hb, hr, hwr⟩ := hw
  exact ⟨by rw [h3]; simpa using hb, by omega, by rw [h2]; exact Nat.mod_lt _ (by omega)⟩

/-- A pop keeps a sound ring sound. -/
theorem ringPop_keeps_wf {n : Nat} {r q : Ring} {k : Nat} {ws : List Word} (hw : RingWf n r)
    (h : ringPop n r k = some (ws, q)) : RingWf n q := by
  obtain ⟨-, -, -, h1, h2, h3⟩ := ringPop_some h
  obtain ⟨hb, hr, hwr⟩ := hw
  exact ⟨by rw [h1]; exact hb, by rw [h3]; exact Nat.mod_lt _ (by omega), by omega⟩

/-- The size after a push (rules R43, R130). -/
theorem ringPush_size {n : Nat} {r q : Ring} {ws : List Word} (hw : RingWf n r) (h : ringPush n r ws = some q) :
    ringSize n q = ringSize n r + ws.length := by
  have hq := ringPush_keeps_wf hw h
  obtain ⟨h0, hf, h1, h2, -⟩ := ringPush_some h
  unfold ringFree at hf
  rw [ringSize_eq hq, h1, h2]
  rw [ringSize_eq hw] at *
  obtain ⟨-, hr, hwr⟩ := hw
  rcases Nat.lt_or_ge (r.wr + ws.length) n with hlt | hge
  · rw [Nat.mod_eq_of_lt hlt]; split_ifs at * <;> omega
  · rw [Nat.mod_eq_sub_mod hge, Nat.mod_eq_of_lt (by split_ifs at * <;> omega)]; split_ifs at * <;> omega

/-- The size after a pop (rules R43, R131). -/
theorem ringPop_size {n : Nat} {r q : Ring} {k : Nat} {ws : List Word} (hw : RingWf n r)
    (h : ringPop n r k = some (ws, q)) : ringSize n q = ringSize n r - k := by
  have hq := ringPop_keeps_wf hw h
  obtain ⟨h0, hf, -, -, h1, h2⟩ := ringPop_some h
  rw [ringSize_eq hq, h1, h2]
  rw [ringSize_eq hw] at *
  obtain ⟨-, hr, hwr⟩ := hw
  rcases Nat.lt_or_ge (r.rd + k) n with hlt | hge
  · rw [Nat.mod_eq_of_lt hlt]; split_ifs at * <;> omega
  · rw [Nat.mod_eq_sub_mod hge, Nat.mod_eq_of_lt (by split_ifs at * <;> omega)]; split_ifs at * <;> omega

end Sys2Proof.Machine
end

