-- ==== Sys2Proof/Laws/Keep.lean ====
section
/-! SUPPORT. Each operation on delay lines, channels, grains and effect registers keeps them sound (Safety.lean). -/

namespace Sys2Proof.Machine

/-! ### Lines and the reverb -/

/-- Writing at the cursor keeps a line sound (rules R195, R196, R198). -/
theorem lineWrite_keeps_wf {most : Nat} {l : DelayLine} (v : S16) (h : LineWf most l) : LineWf most (lineWrite v l) :=
  ⟨h.1, h.2.1, by simpa [lineWrite] using h.2.2.1, Nat.mod_lt _ h.1⟩

/-- A cleared line is sound (rule R194). -/
theorem lineClear_wf {most len : Nat} (h1 : 1 ≤ len) (h2 : len ≤ most) : LineWf most (lineClear len) :=
  ⟨h1, h2, by simp [lineClear], h1⟩

/-- The search answers no gain above its start or above the clamp (rule R193). -/
theorem gainSearch_le (a b k base : Nat) (h : base ≤ gainMax) : gainSearch a b k base ≤ gainMax := by
  induction k generalizing base with
  | zero => exact h
  | succ k ih =>
    simp only [gainSearch]
    split
    · next hg => exact ih _ (by simp only [gainAtMost, Bool.and_eq_true, decide_eq_true_eq] at hg; exact hg.1)
    · exact ih _ h

/-- A gain below one that passes passes (rule R193). -/
theorem gainAtMost_of_le {a b g g' : Nat} (h : gainAtMost a b g = true) (hl : g' ≤ g) : gainAtMost a b g' = true := by
  simp only [gainAtMost, Bool.and_eq_true, decide_eq_true_eq] at *
  exact ⟨hl.trans h.1, (Nat.mul_le_mul_right _ (Nat.pow_le_pow_left hl b)).trans h.2⟩

/-- The search answers a gain that passes and whose successor does not (rule R193). -/
theorem gainSearch_spec {a b k base : Nat} (h : gainAtMost a b base = true)
    (hn : gainAtMost a b (base + 2 ^ k) = false) :
    gainAtMost a b (gainSearch a b k base) = true ∧ gainAtMost a b (gainSearch a b k base + 1) = false := by
  induction k generalizing base with
  | zero => exact ⟨h, hn⟩
  | succ k ih =>
    simp only [gainSearch]
    split
    · next hg => exact ih hg (by rw [← hn]; congr 1; ring)
    · next hg => exact ih h (by simpa using hg)

/-- Every gain is at most 32112 (rule R193). -/
theorem fbGain_le (len rate t60 : Nat) : fbGain len rate t60 ≤ 32112 := gainSearch_le _ _ _ _ (by decide)

theorem combStep_keeps_wf {c : Config} {cb : Comb} (damp og p : S16) (h : CombWf c cb) :
    CombWf c (combStep damp og p cb).1 := ⟨lineWrite_keeps_wf _ h.1, h.2⟩

/-- The comb bank acts on each comb by itself (rule R197). -/
theorem combBank_eq (damp og p : S16) (cbs : List Comb) (acc : Int) :
    combBank damp og p cbs acc =
      (cbs.map fun cb => (combStep damp og p cb).1, acc + (cbs.map fun cb => (combStep damp og p cb).2).sum) := by
  induction cbs generalizing acc with
  | nil => simp [combBank]
  | cons cb cbs ih => simp [combBank, ih]; ring

/-- The allpass chain keeps its lines sound, and their number (rule R199). -/
theorem allpassChain_keeps_wf {most : Nat} {ls : List DelayLine} (apg w : S16) (h : ∀ l ∈ ls, LineWf most l) :
    (allpassChain apg ls w).1.length = ls.length ∧ ∀ l ∈ (allpassChain apg ls w).1, LineWf most l := by
  induction ls generalizing w with
  | nil => simp [allpassChain]
  | cons l ls ih =>
    have := ih (allpassStep apg w l).2 fun x hx => h x (List.mem_cons_of_mem _ hx)
    simp only [allpassChain, List.length_cons, List.mem_cons, this.1, true_and]
    rintro x (rfl | hx)
    · exact lineWrite_keeps_wf _ (h l (List.mem_cons_self ..))
    · exact this.2 x hx

/-- A sample keeps a channel sound (rule R203). -/
theorem reverbSample_keeps_wf {c : Config} {ch : ReverbChannel} (og : S16) (rv : ReverbState) (x : S16)
    (h : ChannelWf c ch) : ChannelWf c (reverbSample og rv ch x).1 := by
  obtain ⟨h1, h2, h3, h4, h5⟩ := h
  simp only [reverbSample, combBank_eq]
  obtain ⟨a1, a2⟩ := allpassChain_keeps_wf rv.apg
    (sat16 (0 + (ch.combs.map fun cb => (combStep rv.damp og (lineRead ch.pd) cb).2).sum)) h5
  refine ⟨lineWrite_keeps_wf x h1, by simpa using h2, a1.trans h3, ?_, a2⟩
  simp only [List.mem_map]
  rintro _ ⟨cb, hcb, rfl⟩
  exact combStep_keeps_wf _ _ _ (h4 cb hcb)

/-- An initialised channel is sound (rules R192, R194). -/
theorem buildChannel_wf {c : Config} {rate : Nat} {t : ChannelTables} (ht : tablesWf t = true)
    (h : channelFits c rate t = true) : ChannelWf c (buildChannel c rate t) := by
  simp only [tablesWf, channelFits, Bool.and_eq_true, decide_eq_true_eq, List.all_eq_true] at ht h
  obtain ⟨⟨⟨⟨⟨t1, t2⟩, t3⟩, -⟩, -⟩, -⟩ := ht
  obtain ⟨⟨f1, f2⟩, f3⟩ := h
  have pos : ∀ l, 1 ≤ scaleLen c rate l := fun l => le_max_left _ _
  refine ⟨lineClear_wf (pos _) f1, by simp [buildChannel, t1, t2], by simp [buildChannel, t3], ?_, ?_⟩
  · intro cb hcb
    simp only [buildChannel, List.mem_iff_getElem?] at hcb
    obtain ⟨k, hk⟩ := hcb
    simp only [List.getElem?_zipWith] at hk
    split at hk
    · next l d hl _ =>
      simp only [Option.some.injEq] at hk
      subst hk
      refine ⟨lineClear_wf (pos _) (f2 l ?_), ?_⟩
      · exact List.mem_of_getElem? hl
      · have := fbGain_le (scaleLen c rate l) rate d
        show (BitVec.ofNat 16 _).toNat ≤ _
        rw [BitVec.toNat_ofNat, Nat.mod_eq_of_lt (by omega)]; exact this
    · cases hk
  · simp only [buildChannel, List.mem_map]
    rintro _ ⟨l, hl, rfl⟩
    exact lineClear_wf (pos _) (f3 l hl)

/-! ### The granular effect -/

/-- A new grain starts inside the buffer (rule R240). -/
theorem grainStart_lt {c : Config} (g : GranularState) (v : BitVec 32) (h : 0 < c.capLen) :
    grainStart c g v < c.capLen := by
  have := Int.emod_lt_of_pos ((g.wc : Int) - g.grainLen.toInt -
    (fmodNat (v.toNat : Int) (((c.capLen : Int) - g.grainLen.toInt + 1).toNat) : Nat)) (by omega : (0 : Int) < c.capLen)
  have := Int.emod_nonneg ((g.wc : Int) - g.grainLen.toInt -
    (fmodNat (v.toNat : Int) (((c.capLen : Int) - g.grainLen.toInt + 1).toNat) : Nat)) (by omega : (c.capLen : Int) ≠ 0)
  simp only [grainStart]; unfold fmodNat at *; omega

/-- Servicing the slots keeps their number. -/
theorem serviceSlots_length (c : Config) (g : GranularState) (n : Nat) (gs : List Grain) (rng : BitVec 32) (acc : Int) :
    (serviceSlots c g n gs rng acc).1.length = gs.length := by
  induction n generalizing gs rng acc with
  | zero => rfl
  | succ n ih =>
    cases gs with
    | nil => rfl
    | cons gr gs => simp only [serviceSlots]; split <;> simp [ih]

/-- Servicing the slots keeps each grain sound (rules R238, R239, R241). -/
theorem serviceSlots_keeps_wf {c : Config} {g : GranularState} (hc : 0 < c.capLen) (n : Nat) {gs : List Grain}
    (rng : BitVec 32) (acc : Int) (h : ∀ x ∈ gs, GrainWf c x) :
    ∀ x ∈ (serviceSlots c g n gs rng acc).1, GrainWf c x := by
  induction n generalizing gs rng acc with
  | zero => exact h
  | succ n ih =>
    cases gs with
    | nil => exact h
    | cons gr gs =>
      have hg := h gr (List.mem_cons_self ..)
      have ht : ∀ x ∈ gs, GrainWf c x := fun x hx => h x (List.mem_cons_of_mem _ hx)
      simp only [serviceSlots]
      split
      · next ha =>
        simp only [List.mem_cons, playGrain]
        rintro x (rfl | hx)
        · have := (s16_toInt_bounds g.grainLen).2
          have := hg.2.1 ha
          exact ⟨by show gr.el + 1 ≤ _; omega, fun hx => by
            simp only [decide_eq_true_eq] at hx; show gr.el + 1 < _; omega, hg.2.2⟩
        · exact ih _ _ ht x hx
      · simp only [List.mem_cons, scheduleGrain]
        rintro x (rfl | hx)
        · exact ⟨Nat.zero_le _, fun _ => by show 0 < _; omega, grainStart_lt g _ hc⟩
        · exact ih _ _ ht x hx

/-- The capture write keeps the buffer's length and the cursor in it (rule R236). -/
theorem captureWrite_keeps {c : Config} {g : GranularState} (m : S16) (h1 : g.cap.length = c.capLen)
    (h2 : g.wc < c.capLen) :
    (captureWrite c m g).cap.length = c.capLen ∧ (captureWrite c m g).wc < c.capLen := by
  unfold captureWrite
  split
  · exact ⟨h1, h2⟩
  · exact ⟨by simpa using h1, Nat.mod_lt _ (by omega)⟩

/-- A clamp into 1..hi is inside 1..hi (rules R53, R169). -/
theorem clampParam {hi : Int} (h : 1 ≤ hi) (v : S16) :
    (BitVec.ofInt 16 (min hi (max 1 v.toInt))).toInt = min hi (max 1 v.toInt) := by
  have := s16_toInt_bounds v
  exact ofInt16_toInt (by omega) (by omega)

end Sys2Proof.Machine
end

