-- ==== Sys2Proof/Laws/PerInstr.lean ====
section
/-! SUPPORT. The per-instruction family EncodeLength: the words of a well-formed command are as many as its command word
says (rule R110), so a port that holds them holds the whole command. -/

namespace Sys2Proof.Laws

/-- The encoding of a well-formed command is as long as rule R110 says of its command word. -/
def EncodeLength.Statement (i : Instr) : Prop := i.WellFormed → (encode i).length = cmdLen ((encode i).headD 0)

theorem EncodeLength.rbPush (r : RingSel) (data : List Word) : EncodeLength.Statement (.rbPush r data) := by
  intro h
  have : data.length < 65536 := h
  simp [encode, cmdLen, opcodeValue, Nat.mod_eq_of_lt this, Nat.add_comm]

theorem EncodeLength.rbPop (r : RingSel) (n : BitVec 16) : EncodeLength.Statement (.rbPop r n) := by
  intro _; simp [encode, cmdLen, opcodeValue]

theorem EncodeLength.rbSize (r : RingSel) : EncodeLength.Statement (.rbSize r) := by
  intro _; simp [encode, cmdLen, opcodeValue]

theorem EncodeLength.rbFree (r : RingSel) : EncodeLength.Statement (.rbFree r) := by
  intro _; simp [encode, cmdLen, opcodeValue]

theorem EncodeLength.fxName : EncodeLength.Statement .fxName := by
  intro _; simp [encode, cmdLen, opcodeValue]

theorem EncodeLength.fxInit : EncodeLength.Statement .fxInit := by
  intro _; simp [encode, cmdLen, opcodeValue]

theorem EncodeLength.fxSetFormat (d : Octet) (rate : BitVec 32) : EncodeLength.Statement (.fxSetFormat d rate) := by
  intro _; simp [encode, cmdLen, opcodeValue]

theorem EncodeLength.fxSetEnabled (e : Bool) : EncodeLength.Statement (.fxSetEnabled e) := by
  intro _; simp [encode, cmdLen, opcodeValue]

theorem EncodeLength.fxSetParam (id : Octet) (v : S16) : EncodeLength.Statement (.fxSetParam id v) := by
  intro _; simp [encode, cmdLen, opcodeValue]

theorem EncodeLength.fxProcess (frames : List Frame) : EncodeLength.Statement (.fxProcess frames) := by
  intro h
  have : frames.length < 65536 := h
  simp [encode, cmdLen, opcodeValue, Nat.mod_eq_of_lt this, Nat.add_comm]

theorem EncodeLength.taskStep : EncodeLength.Statement .taskStep := by
  intro _; simp [encode, cmdLen, opcodeValue]

theorem EncodeLength.sofTick : EncodeLength.Statement .sofTick := by
  intro _; simp [encode, cmdLen, opcodeValue]

end Sys2Proof.Laws
end

