-- ==== Sys2Proof/Laws/Task.lean ====
section
/-! SUPPORT. The audio task and the transmit tick once each (44_audio_task.md): what an invocation leaves alone, how a
quantum goes, and what a tick pops. -/

namespace Sys2Proof.Machine

@[simp] theorem repeatFrame_length (n : Nat) (l r : Word) : (repeatFrame n l r).length = 2 * n := by
  induction n with
  | zero => rfl
  | succ n ih => simp only [repeatFrame, List.length_cons, ih]; omega

/-- n copies of a frame (rules R281, R282). -/
theorem repeatFrame_eq (n : Nat) (l r : Word) : repeatFrame n l r = (List.replicate n [l, r]).flatten := by
  induction n with
  | zero => rfl
  | succ n ih => simp [repeatFrame, ih, List.replicate_succ]

/-- The frames available never exceed half the live samples (rule R281). -/
theorem tickAvailable_le (s : State) : 2 * tickAvailable s ≤ ringSize s.cfg.ringN s.ringOut := by
  have : tickAvailable s ≤ ringSize s.cfg.ringN s.ringOut / 2 := min_le_right _ _
  omega

/-- What a tick pops: the 2m oldest samples, the read index 2m cells on (rule R281). -/
theorem tickPop_eq {s : State} (h : RingWf s.cfg.ringN s.ringOut) :
    tickPop s = (readCells s.cfg.ringN s.ringOut.buf s.ringOut.rd (2 * tickAvailable s),
      { s.ringOut with rd := (s.ringOut.rd + 2 * tickAvailable s) % s.cfg.ringN }) := by
  unfold tickPop
  by_cases h0 : tickAvailable s = 0
  · rw [ringPop_none (by omega), h0]; simp [readCells, Nat.mod_eq_of_lt h.2.1]
  · rw [ringPop_isSome (by omega) (tickAvailable_le s)]

/-- A quantum that is there: popped, processed, pushed if it fits (rules R274, R276). -/
theorem taskQuantum_eq {s : State} (h0 : 1 ≤ s.cfg.quantumFrames)
    (h : 2 * s.cfg.quantumFrames ≤ ringSize s.cfg.ringN s.ringIn) :
    taskQuantum s =
      let q := 2 * s.cfg.quantumFrames
      let b := fxBlock { s with ringIn := { s.ringIn with rd := (s.ringIn.rd + q) % s.cfg.ringN } }
        (framesOf (readCells s.cfg.ringN s.ringIn.buf s.ringIn.rd q))
      match ringPush s.cfg.ringN s.ringOut (wordsOf b.2) with
      | none => ⟨b.1, .capacity, .processed⟩
      | some o => ⟨{ b.1 with ringOut := o }, .ok, .processed⟩ := by
  have hp := ringPop_isSome (by omega : 0 < 2 * s.cfg.quantumFrames) h
  have hr : ∀ (u : State) (fs : List Frame), (fxBlock u fs).1.ringOut = u.ringOut := by
    intro u fs; rw [fxBlock_frame]
  simp only [taskQuantum, hp, hr] <;> rfl

/-- A quantum writes the rings and the engine's state alone (rules R274, R276). -/
theorem taskQuantum_frame (s : State) :
    (taskQuantum s).state = { s with
      ringIn := (taskQuantum s).state.ringIn
      ringOut := (taskQuantum s).state.ringOut
      reverb := (taskQuantum s).state.reverb
      granular := (taskQuantum s).state.granular } := by
  unfold taskQuantum
  dsimp only
  split
  · rfl
  · split <;> (dsimp only; rw [fxBlock_frame])

/-- An invocation leaves the ports, the build, the inputs, ACC and the arrivals alone (rules R270, R285). -/
theorem taskEffect_frame (s : State) :
    (taskEffect s).state = { s with
      ringIn := (taskEffect s).state.ringIn
      ringOut := (taskEffect s).state.ringOut
      curRate := (taskEffect s).state.curRate
      fxInited := (taskEffect s).state.fxInited
      fxFatal := (taskEffect s).state.fxFatal
      fxRate := (taskEffect s).state.fxRate
      fxBits := (taskEffect s).state.fxBits
      reverb := (taskEffect s).state.reverb
      granular := (taskEffect s).state.granular } := by
  have e : ∀ u : State, setEnabled s.ctlIn u = { u with
      reverb := (setEnabled s.ctlIn u).reverb
      granular := (setEnabled s.ctlIn u).granular } := by intro u; unfold setEnabled; split <;> rfl
  unfold taskEffect
  dsimp only
  split
  · dsimp only
    unfold taskRebuild
    split
    · rw [e]
    · dsimp only
      rw [e, initEffect_frame]
      unfold setFormat; split <;> rfl
  · unfold taskSteady
    split_ifs
    all_goals first
      | (dsimp only; rw [e])
      | (rw [taskQuantum_frame, e])

end Sys2Proof.Machine
end

