-- ==== Sys2Proof/Tests/Slice0.lean ====
section
/-! SUPPORT. Tests: the well-formedness smoke test, one written-out word per command, one-step tests from the spec's
test vectors (95_test_vectors.md), and a witness for the hypotheses of every statement. -/

namespace Sys2Proof.Tests

open Sys2Proof Sys2Proof.Machine Sys2Proof.Spec

/-! ### Helpers -/

/-- The state after, where there is one. -/
def after : Result → Option State
  | .next t => some t
  | .fault _ => none
  | .refused _ => none

/-- What port p answers to a command in a state with nothing answered yet. -/
def reply (p : Port) (i : Instr) (s : State) : List Word :=
  match after (exec i { s with issuer := p }) with
  | some t => (getPort p t).resp
  | none => []

/-- What is left of the state after a command at port p. -/
def run (p : Port) (i : Instr) (s : State) : State :=
  match after (exec i { s with issuer := p }) with
  | some t => t
  | none => s

/-- The container of an integer in the s16 range. -/
def q (v : Int) : Word := cont (BitVec.ofInt 16 v)

/-- TC-R and TC-G with the small geometry (rule R10), after reset. -/
def rvb : State := State.resetOf Config.tcR.small
def gran : State := State.resetOf Config.tcG.small

/-- A ring of the small geometry with the given indices; cell k holds k. -/
def ringAt (rd wr : Nat) : Machine.Ring := ⟨[0, 1, 2, 3, 4, 5, 6, 7], rd, wr⟩

/-- A result with a state after is that next state. -/
theorem next_of_after {o : Result} {t : State} (h : after o = some t) : o = .next t := by
  cases o <;> simp_all [after]

/-! ### Well-formedness (WellFormed.lean): a count that does not fit B is refused -/

theorem test_push_of_65536_is_ill_formed : ¬ (Instr.rbPush .ringIn (List.replicate 65536 0)).WellFormed := by
  show ¬ (List.replicate 65536 (0 : Word)).length < 2 ^ 16
  rw [List.length_replicate]; decide

theorem test_process_of_65536_is_ill_formed : ¬ (Instr.fxProcess (List.replicate 65536 ⟨0, 0⟩)).WellFormed := by
  show ¬ (List.replicate 65536 (⟨0, 0⟩ : Frame)).length < 2 ^ 16
  rw [List.length_replicate]; decide

theorem test_push_of_65535_is_well_formed : (Instr.rbPush .ringIn (List.replicate 65535 0)).WellFormed := by
  show (List.replicate 65535 (0 : Word)).length < 2 ^ 16
  rw [List.length_replicate]; decide

/-! ### Decoding: one word of each command, its fields OPC, A, B put together from rules R100, R101, R107 -/

theorem test_decode_rbPush :
    decode [0b00000001_00000001_0000000000000010, 5, 6, 7] = .command (.rbPush .ringOut [5, 6]) [7] := by decide
theorem test_decode_rbPop :
    decode [0b00000010_00000000_0000000000000100] = .command (.rbPop .ringIn 4) [] := by decide
theorem test_decode_rbSize : decode [0b00000011_00000001_0000000000000000] = .command (.rbSize .ringOut) [] := by decide
theorem test_decode_rbFree : decode [0b00000100_00000000_0000000000000000] = .command (.rbFree .ringIn) [] := by decide
theorem test_decode_fxName : decode [0b00010000_00000000_0000000000000000] = .command .fxName [] := by decide
theorem test_decode_fxInit : decode [0b00010001_00000000_0000000000000000] = .command .fxInit [] := by decide
theorem test_decode_fxSetFormat :
    decode [0b00010010_00010000_0000000000000000, 0x0000AC44] = .command (.fxSetFormat 16 44100) [] := by decide
theorem test_decode_fxSetEnabled :
    decode [0b00010011_00000001_0000000000000000] = .command (.fxSetEnabled true) [] := by decide
theorem test_decode_fxSetParam :
    decode [0b00010100_00000011_1111111111111111] = .command (.fxSetParam 3 (BitVec.ofInt 16 (-1))) [] := by decide
theorem test_decode_fxProcess :
    decode [0b00010101_00000000_0000000000000010, 1, 2, 3, 4] = .command (.fxProcess [⟨1, 2⟩, ⟨3, 4⟩]) [] := by decide
theorem test_decode_taskStep : decode [0b00100000_00000000_0000000000000000] = .command .taskStep [] := by decide
theorem test_decode_sofTick : decode [0b00100001_00000000_0000000000000000] = .command .sofTick [] := by decide

/-- Table 2.1: the words that are ILLEGAL, operand words consumed. -/
theorem test_decode_illegal :
    decode [0x12100001, 0x0000BB80, 9] = .illegal .reservedFieldNonZero [9] ∧
    decode [0x05000000] = .illegal .unassignedOpcode [] ∧
    decode [0x00000000] = .illegal .unassignedOpcode [] ∧
    decode [0x03000001] = .illegal .reservedFieldNonZero [] ∧
    decode [0x01020001, 9] = .illegal .reservedFieldNonZero [] ∧
    decode [0x13020000] = .illegal .reservedFieldNonZero [] := by decide

/-- The length function of table 2.1. -/
theorem test_cmdLen :
    cmdLen 0x01000060 = 97 ∧ cmdLen 0x15000030 = 97 ∧ cmdLen 0x12000000 = 2 ∧ cmdLen 0x77000005 = 1 := by decide

/-! ### One step each, from tables 2.1 to 2.6 -/

/-- Table 2.2: from (6, 6), three words go to cells 6, 7 and 0. -/
theorem test_push_wraps :
    let t := run .rx (.rbPush .ringIn [10, 11, 12]) { rvb with ringIn := ringAt 6 6 }
    t.rx.resp = [0] ∧ t.ringIn = ⟨[12, 1, 2, 3, 4, 5, 10, 11], 6, 1⟩ := by decide +kernel

/-- Table 2.2: a push of eight words into an empty ring of eight cells fails. -/
theorem test_push_of_ringN_fails :
    run .rx (.rbPush .ringIn [1, 2, 3, 4, 5, 6, 7, 8]) rvb =
      { rvb with issuer := .rx, rx := ⟨[], 0, [1]⟩ } := by decide +kernel

/-- Table 2.2: from (6, 1), the two oldest are answered. -/
theorem test_pop_wraps :
    let t := run .ctl (.rbPop .ringIn 2) { rvb with ringIn := ringAt 6 1 }
    t.ctl.resp = [0, 6, 7] ∧ t.ringIn = ringAt 0 1 := by decide +kernel

/-- Table 2.2: a pop of more than there is answers CAPACITY. -/
theorem test_pop_too_many : reply .ctl (.rbPop .ringIn 4) { rvb with ringIn := ringAt 6 1 } = [1] := by decide +kernel

/-- Table 2.2: sizes across the wrap. -/
theorem test_size : reply .rx (.rbSize .ringIn) { rvb with ringIn := ringAt 6 1 } = [0, 3] ∧
    reply .ctl (.rbSize .ringIn) { rvb with ringIn := ringAt 2 1 } = [0, 7] := by decide +kernel

/-- Table 2.2: free space. -/
theorem test_free : reply .ctl (.rbFree .ringIn) { rvb with ringIn := ringAt 6 1 } = [0, 4] ∧
    reply .rx (.rbFree .ringIn) { rvb with ringIn := ringAt 0 7 } = [0, 0] := by decide +kernel

/-- Table 2.1: the name codes, and the port check. -/
theorem test_name : reply .ctl .fxName rvb = [0, 0x52455642] ∧ reply .ctl .fxName gran = [0, 0x4752414E] ∧
    reply .rx .fxName rvb = [3] := by decide +kernel

/-- Table RV1, the lengths and gains of the left channel at 48000 Hz. -/
theorem test_init_gains :
    let t := run .ctl .fxInit rvb
    t.fxInited = true ∧ t.reverb.left.combs.map (fun c => c.gain.toNat) =
      [21278, 22866, 23421, 22058, 22539, 21795, 22172, 32112] := by decide +kernel

/-- Table 2.3: scale(29) does not fit at 8000000 Hz. -/
theorem test_init_fatal :
    let t := run .ctl .fxInit { rvb with fxRate := 8000000 }
    t.ctl.resp = [5] ∧ t.fxFatal = true ∧ t.fxInited = false ∧ t.reverb = rvb.reverb := by decide +kernel

/-- Table 2.3: a format change invalidates the reverb; rate 0 is BAD_ARG. -/
theorem test_format :
    let t := run .ctl (.fxSetFormat 16 44100) { rvb with fxInited := true }
    t.ctl.resp = [0] ∧ t.fxRate = 44100 ∧ t.fxBits = 16 ∧ t.fxInited = false ∧
    reply .ctl (.fxSetFormat 16 0) rvb = [6] := by decide +kernel

/-- Rule R168: one command, two registers. -/
theorem test_enabled :
    (run .ctl (.fxSetEnabled false) rvb).reverb.en = false ∧
    (run .ctl (.fxSetEnabled true) gran).granular.frozen = true := by decide +kernel

/-- Table 2.1: RV_DAMP takes 8192; GR_LEN takes -1 as 1. -/
theorem test_param :
    (run .ctl (.fxSetParam 2 8192) rvb).reverb.damp = 8192 ∧
    (run .ctl (.fxSetParam 3 (BitVec.ofInt 16 (-1))) gran).granular.grainLen = 1 := by decide +kernel

/-- Table RV2: first frames after FX_INIT. -/
theorem test_process_dry :
    let t := { run .ctl .fxInit rvb with ctl := PortState.reset }
    reply .ctl (.fxProcess [⟨q 32767, q 32767⟩]) t = [0, 0x5FFE0000, 0x5FFE0000] ∧
    reply .ctl (.fxProcess [⟨q 1000, q (-1000)⟩]) t = [0, 0x02EE0000, 0xFD120000] := by decide +kernel

/-- Table 2.1: the word 0x15000000 is FX_PROCESS with F = 0, which on an initialised engine answers OK and changes nothing
else. -/
theorem test_process_no_frames :
    decode [0x15000000] = .command (.fxProcess []) [] ∧
    run .ctl (.fxProcess []) { rvb with fxInited := true } = { rvb with fxInited := true, ctl := ⟨[], 0, [0]⟩ } ∧
    run .ctl (.fxProcess []) { gran with fxInited := true } = { gran with fxInited := true, ctl := ⟨[], 0, [0]⟩ } := by
  decide +kernel

/-- Table RV7: the first echo of an impulse comes at frame 5 on the left. -/
theorem test_process_echo :
    let t := { run .ctl .fxInit rvb with ctl := PortState.reset }
    reply .ctl (.fxProcess (⟨q 32767, 0⟩ :: List.replicate 7 ⟨0, 0⟩)) t =
      [0, q 24574, 0, 0, 0, 0, 0, 0, 0, 0, 0, q 192, 0, 0, 0, q (-96), 0] := by decide +kernel

/-- Table GV1, frames 0 to 8. -/
theorem test_process_granular :
    let t := { run .ctl .fxInit gran with ctl := PortState.reset }
    reply .ctl (.fxProcess ([1000, 2000, 3000, 4000, 5000, 6000, 7000, 8000, 9000].map fun v => ⟨q v, q v⟩)) t =
      0 :: wordsOf ([500, 1000, 1500, 2000, 2500, 3000, 3750, 4000, 4500].map fun y => ⟨q y, q y⟩) := by decide +kernel

/-- Table AV1: the first TASK_STEP sees a new rate. -/
theorem test_task_rate_change :
    let t := run .ctl .taskStep { rvb with cfgIn := ⟨48000, 16, 2⟩, ctlIn := true }
    t.ctl.resp = [0x00000200] ∧ t.curRate = 48000 ∧ t.fxInited = true ∧ t.fxBits = 16 := by decide +kernel

/-- Table AV1: a quantum goes through. -/
theorem test_task_quantum :
    let t := run .ctl .taskStep { run .ctl .fxInit rvb with
      ctl := PortState.reset, cfgIn := ⟨48000, 16, 2⟩, ctlIn := true, curRate := 48000
      ringIn := ⟨[q 32767, q (-32768), 0, 0, 0, 0, 0, 0], 0, 4⟩ }
    t.ctl.resp = [0x00000000] ∧ t.ringIn.rd = 4 ∧
    t.ringOut = ⟨[q 24574, q (-24576), 0, 0, 0, 0, 0, 0], 0, 4⟩ := by decide +kernel

/-- Table AV3, the REPEAT row at a low rate: two frames wanted, one there. -/
theorem test_tick_repeat :
    let t := run .tx .sofTick { rvb with acc := 900, curRate := 1100, ringOut := ringAt 6 1 }
    t.tx.resp = [0x00000100, 2, 6, 7, 6, 7] ∧ t.acc = 0 ∧ t.ringOut = ringAt 0 1 := by decide +kernel

/-- Table AV3: an odd sample stays; nothing there is zero filled. -/
theorem test_tick_odd_and_empty :
    reply .tx .sofTick { rvb with curRate := 1000, ringOut := ringAt 6 1 } = [0x00000000, 1, 6, 7] ∧
    reply .tx .sofTick { rvb with curRate := 2000 } = [0x00000200, 2, 0, 0, 0, 0] := by decide +kernel

/-- Program P5, row 2: an illegal word at CTL, through `step`. -/
theorem test_step_illegal :
    (after (step { rvb with ctl := ⟨[0x05000000], 7, []⟩ })).map (fun t => (t.ctl, t.rx)) =
      some (⟨[], 8, [2]⟩, PortState.reset) := by decide +kernel

/-! ### Witnesses: a concrete state and operands that meet the hypotheses of each statement, clause by clause -/

theorem witness_DecodeOfEncode :
    (Instr.rbPush .ringOut [1]).WellFormed ∧ (Instr.fxProcess [⟨1, 2⟩]).WellFormed ∧ Instr.sofTick.WellFormed := by
  decide

theorem witness_EncodeOfDecode : decode [0x01000001, 7, 8] = .command (.rbPush .ringIn [7]) [8] := by decide

/-- A word that matches no row of the opcode table. -/
theorem no_row : ∀ row ∈ opcodeRows, 0x05000000#32 &&& row.2 ≠ row.1 := by simp [opcodeRows]

theorem witness_LegalWords :
    (cmdLen 0x0201FFFF ≤ ([] : List Word).length + 1 ∧ ∃ row ∈ opcodeRows, 0x0201FFFF#32 &&& row.2 = row.1) ∧
    (cmdLen 0x05000000 ≤ ([] : List Word).length + 1 ∧ ∀ row ∈ opcodeRows, 0x05000000#32 &&& row.2 ≠ row.1) :=
  ⟨⟨by decide, by simp [opcodeRows]⟩, by decide, no_row⟩

theorem witness_CommandLength :
    0x01000000#32 >>> 24 = 0x01#32 ∧ 0x12FFFFFF#32 >>> 24 = 0x12#32 ∧ 0x1500FFFF#32 >>> 24 = 0x15#32 ∧
    (0xFF00FFFF#32 >>> 24 ≠ 0x01#32 ∧ 0xFF00FFFF#32 >>> 24 ≠ 0x12#32 ∧ 0xFF00FFFF#32 >>> 24 ≠ 0x15#32) := by decide

/-- A state whose ports hold the given words. -/
def holding (a b c : List Word) : State := { rvb with rx := ⟨a, 0, []⟩, tx := ⟨b, 0, []⟩, ctl := ⟨c, 0, []⟩ }

theorem witness_StepRuns :
    configWf (holding [] [] []).cfg = true ∧
    decode (holding [0x03000000, 5] [0x21000000] []).rx.pending = .command (.rbSize .ringIn) [5] ∧
    (decode (holding [0x01000001] [0x21000000] []).rx.pending = .incomplete ∧
      decode (holding [0x01000001] [0x21000000] []).tx.pending = .command .sofTick []) ∧
    (decode (holding [] [0x12000000] [0x20000000]).rx.pending = .incomplete ∧
      decode (holding [] [0x12000000] [0x20000000]).tx.pending = .incomplete ∧
      decode (holding [] [0x12000000] [0x20000000]).ctl.pending = .command .taskStep []) := by decide +kernel

theorem witness_IllegalCommand :
    configWf (holding [] [] []).cfg = true ∧ (∀ row ∈ opcodeRows, 0x05000000#32 &&& row.2 ≠ row.1) ∧
    ([] : List Word).length + 1 = cmdLen 0x05000000#32 ∧
    (holding [0x05000000, 4] [] []).rx.pending = 0x05000000#32 :: ([] ++ [4]) ∧
    (decode (holding [] [0x05000000] []).rx.pending = .incomplete ∧
      (holding [] [0x05000000] []).tx.pending = 0x05000000#32 :: ([] ++ [])) ∧
    (decode (holding [] [] [0x05000000]).rx.pending = .incomplete ∧
      decode (holding [] [] [0x05000000]).tx.pending = .incomplete ∧
      (holding [] [] [0x05000000]).ctl.pending = 0x05000000#32 :: ([] ++ [])) := by
  refine ⟨by decide, no_row, by decide, rfl, ⟨rfl, rfl⟩, rfl, rfl, rfl⟩

/-- A state that waits, part of a command at CTL, with the given arrivals to come. -/
def waiting (as : List Arrival) : State := { holding [] [] [0x12000000] with arrivals := as }

theorem witness_Waiting :
    configWf (waiting []).cfg = true ∧ decode (waiting []).rx.pending = .incomplete ∧
    decode (waiting []).tx.pending = .incomplete ∧ decode (waiting []).ctl.pending = .incomplete ∧
    (waiting []).arrivals = [] ∧
    (waiting [.words [1] [] [2], .reset]).arrivals = .words [1] [] [2] :: [.reset] ∧
    (waiting [.cfg ⟨1, 2, 3⟩]).arrivals = .cfg ⟨1, 2, 3⟩ :: [] ∧
    (waiting [.ctlIn true]).arrivals = .ctlIn true :: [] := by decide +kernel

theorem witness_ResetEvent :
    configWf (waiting [.reset]).cfg = true ∧ decode (waiting [.reset]).rx.pending = .incomplete ∧
    decode (waiting [.reset]).tx.pending = .incomplete ∧ decode (waiting [.reset]).ctl.pending = .incomplete ∧
    (waiting [.reset]).arrivals = .reset :: [] := by decide +kernel

/-- For ResetValuesOfRuleR61, ResetStateIsWellFormed and StepNeverStops: builds that the check admits, one that breaks
rule R11, and one that breaks the range of rule R9 alone (log 15). -/
theorem witness_builds :
    configWf Config.tcR = true ∧ configWf Config.tcG = true ∧ configWf Config.tcR.small = true ∧
    configWf { Config.tcR with ringN := 9, quantumFrames := 2 } = false ∧
    configWf { Config.tcR with capLen := 50000, grainLenReset := 40000 } = false := by decide

/-- For StepKeepsStateWellFormed. -/
theorem witness_StepKeeps :
    WellFormedState (holding [0x01000001, 7] [] []) ∧
    step (holding [0x01000001, 7] [] []) = .next { holding [] [] [] with
      issuer := .rx, rx := ⟨[], 2, [0]⟩, ringIn := ⟨[7, 0, 0, 0, 0, 0, 0, 0], 0, 1⟩ } :=
  ⟨by decide +kernel, next_of_after (by decide +kernel)⟩

/-- For RegistersAreWrittenOnlyByTheirCommands: one command that meets the premises of every clause, in both builds. -/
theorem witness_Registers :
    (after (exec (.rbSize .ringIn) rvb)).isSome = true ∧ rvb.cfg.activeFx = .reverb ∧
    (after (exec (.rbSize .ringIn) gran)).isSome = true ∧ gran.cfg.activeFx = .granular ∧
    Instr.rbSize .ringIn ≠ .taskStep ∧ Instr.rbSize .ringIn ≠ .sofTick ∧ Instr.rbSize .ringIn ≠ .fxInit ∧
    (∀ d r, Instr.rbSize .ringIn ≠ .fxSetFormat d r) ∧ (∀ e, Instr.rbSize .ringIn ≠ .fxSetEnabled e) ∧
    (∀ id v, Instr.rbSize .ringIn ≠ .fxSetParam id v) ∧ (∀ fs, Instr.rbSize .ringIn ≠ .fxProcess fs) ∧
    (∀ r ws, Instr.rbSize .ringIn ≠ .rbPush r ws) ∧ (∀ r n, Instr.rbSize .ringIn ≠ .rbPop r n) := by
  refine ⟨by decide +kernel, by decide, by decide +kernel, by decide, by simp⟩

/-- For OnlyTheOwnerMovesAnIndex and OtherPortsNeverShrinkWhatAnOwnerSees: the consumer's pop, the producer's push. -/
theorem witness_Owner :
    (WellFormedState { rvb with issuer := .ctl, ringIn := ringAt 6 1 } ∧
      (after (exec (.rbPop .ringIn 2) { rvb with issuer := .ctl, ringIn := ringAt 6 1 })).isSome = true ∧
      Port.ctl ≠ producer .ringIn) ∧
    (WellFormedState { rvb with issuer := .rx } ∧
      (after (exec (.rbPush .ringIn [1]) { rvb with issuer := .rx })).isSome = true ∧
      Port.rx ≠ consumer .ringIn) := by
  refine ⟨⟨?_, ?_, ?_⟩, ?_, ?_, ?_⟩ <;> decide +kernel

/-- For ResponseFraming and PortTableDecidesPermission: an answer on a permitted port, and a port the table shuts out. -/
theorem witness_Framing :
    exec .sofTick { rvb with issuer := .tx } = .next { rvb with issuer := .tx, tx := ⟨[], 0, [0, 0]⟩ } ∧
    Port.tx ∈ portsFor .sofTick ∧ Port.rx ≠ Port.tx ∧
    (getPort .tx { rvb with tx := ⟨[], 0, [0, 0]⟩ }).resp = (getPort .tx rvb).resp ++ 0 :: [0] ∧
    Port.ctl ∉ portsFor .sofTick :=
  ⟨next_of_after (by decide +kernel), by decide +kernel⟩

theorem witness_Rejected :
    exec (.rbPop .ringOut 1) { rvb with issuer := .tx } = .next { rvb with issuer := .tx, tx := ⟨[], 0, [1]⟩ } ∧
    Instr.rbPop .ringOut 1 ≠ .fxInit ∧ Instr.rbPop .ringOut 1 ≠ .taskStep ∧
    (getPort .tx { rvb with tx := ⟨[], 0, [1]⟩ }).resp = (getPort .tx rvb).resp ++ 1 :: [] ∧
    (1#32).extractLsb' 0 8 ≠ 0#8 :=
  ⟨next_of_after (by decide +kernel), by decide +kernel⟩

/-- For PushStoresAllTheWordsOrNone: exactly the free space, one word more, and none. -/
theorem witness_Push :
    RingWf 8 (ringAt 6 1) ∧ rvb.cfg.ringN = 8 ∧ Port.rx = producer .ringIn ∧ Port.ctl = producer .ringOut ∧
    (0 < [1#32, 2, 3, 4].length ∧ [1#32, 2, 3, 4].length ≤ 8 - 1 - liveCount 8 (ringAt 6 1)) ∧
    8 - 1 - liveCount 8 (ringAt 6 1) < [1#32, 2, 3, 4, 5].length ∧ ([] : List Word).length = 0 := by decide

/-- For PopAnswersTheOldestOrNothing and SizeAndFreeReportTheIndices: all there is, one more, and none. -/
theorem witness_Pop :
    RingWf 8 (ringAt 6 1) ∧ Port.ctl = consumer .ringIn ∧ Port.tx = consumer .ringOut ∧
    (0 < (3#16).toNat ∧ (3#16).toNat ≤ liveCount 8 (ringAt 6 1)) ∧
    liveCount 8 (ringAt 6 1) < (4#16).toNat ∧ (0#16).toNat = 0 := by decide

theorem witness_RingHolds :
    RingWf 8 (ringAt 2 1) ∧ RingWf 768 (Ring.reset 768) ∧ (Ring.reset 768).rd = (Ring.reset 768).wr ∧
    (List.replicate 672 (0 : Word)).length = 7 * 96 ∧ (List.replicate 768 (0 : Word)).length = 8 * 96 := by
  refine ⟨by decide, ⟨List.length_replicate, by decide, by decide⟩, rfl, List.length_replicate, List.length_replicate⟩

theorem witness_Fifo : RingWf 8 (ringAt 6 1) ∧ RingWf 8 (ringAt 3 3) ∧ (ringAt 3 3).rd = (ringAt 3 3).wr := by decide

theorem witness_PushThenPop :
    RingWf 8 ⟨[0, 1, 2, 3, 4, 5, 6, 7], 7, 7⟩ ∧ 0 < [1#32, 2, 3, 4, 5, 6, 7].length ∧
    [1#32, 2, 3, 4, 5, 6, 7].length ≤ 8 - 1 := by decide

/-- For the engine's commands: the issuing port and both builds. -/
theorem witness_engine :
    rvb.issuer = .ctl ∧ rvb.cfg.activeFx = .reverb ∧ gran.issuer = .ctl ∧ gran.cfg.activeFx = .granular := by decide

/-- For InitBuildsTheReverbOrIsFatal: 48000 Hz fits; scale(29) = 4833 at 8000000 Hz does not; FX_FATAL set already. -/
theorem witness_InitReverb :
    configWf rvb.cfg = true ∧ rvb.fxFatal = false ∧ { rvb with fxFatal := true }.fxFatal = true ∧
    (Fits rvb.cfg rvb.fxRate.toNat rvb.cfg.left ∧ Fits rvb.cfg rvb.fxRate.toNat rvb.cfg.right) ∧
    ¬ (Fits rvb.cfg 8000000 rvb.cfg.left ∧ Fits rvb.cfg 8000000 rvb.cfg.right) := by
  unfold Fits; decide +kernel

theorem witness_InitGranular : gran.fxFatal = false ∧ { gran with fxFatal := true }.fxFatal = true := by decide

/-- For FeedbackGainLaw: the gains of table RV1 for lengths 3 and 23, and of table RV9 at 1000 Hz. -/
theorem witness_FeedbackGain :
    1 ≤ 3 ∧ 1 ≤ 48000 ∧ 1 ≤ 1 ∧ fbGain 3 48000 1 = 21278 ∧ fbGain 23 48000 1000 = 32112 ∧ fbGain 1 1000 1 = 32 := by
  decide +kernel

theorem witness_SetFormat : (0 : BitVec 32) = 0 ∧ (1 : BitVec 32) ≠ 0 := by decide

theorem witness_SetParam :
    1 ≤ rvb.cfg.capLen ∧ 1 ≤ gran.cfg.capLen ∧ (0#8).toNat = 0 ∧ (1#8).toNat = 1 ∧ (2#8).toNat = 2 ∧ (3#8).toNat = 3 ∧
    (4#8).toNat = 4 ∧ 5 ≤ (5#8).toNat ∧ 5 ≤ (255#8).toNat ∧ 4 ≤ (4#8).toNat := by decide

/-- For ProcessAnswersEveryFrameInOrder and DisabledReverbIsTheIdentity. -/
theorem witness_Process :
    { rvb with fxFatal := true }.fxFatal = true ∧ (rvb.fxFatal = false ∧ rvb.fxInited = false) ∧
    ({ rvb with fxInited := true }.fxFatal = false ∧ { rvb with fxInited := true }.fxInited = true) ∧
    (run .ctl (.fxSetEnabled false) { rvb with fxInited := true }).reverb.en = false ∧
    (run .ctl (.fxSetEnabled false) { rvb with fxInited := true }).fxInited = true := by decide +kernel

theorem witness_DelayLine :
    LineWf 4 ⟨3, [7, 8, 9], 2⟩ ∧ [1#16, 2].length < 3 ∧ 3 ≤ [1#16, 2, 3].length := by decide

/-- For ReverbSampleStages: the last comb and the last allpass of a channel; for ReverbFrameContainers, both cases. -/
theorem witness_Stages :
    rvb.reverb.left.combs[7]? = some Comb.unbuilt ∧ rvb.reverb.left.aps[3]? = some DelayLine.unbuilt ∧
    rvb.reverb.en = true ∧ { rvb.reverb with en := false }.en = false := by decide

/-- For OutputIsDryBeforeTheFirstEcho: TC-R's left channel, four samples in, the last before 2 + 3. -/
theorem witness_Dry :
    tablesWf Config.tcR.left = true ∧
    IsBuilt Config.tcR 48000 Config.tcR.left (buildChannel Config.tcR 48000 Config.tcR.left) ∧
    ∀ cb ∈ (buildChannel Config.tcR 48000 Config.tcR.left).combs,
      [1#16, 2, 3, 4].length < (buildChannel Config.tcR 48000 Config.tcR.left).pd.len + cb.line.len := by
  refine ⟨by decide, ⟨rfl, by decide +kernel, ?_, by decide +kernel, ?_⟩, by decide +kernel⟩
  · intro k l d h1 h2
    simp only [buildChannel, List.getElem?_zipWith, h1, h2]; rfl
  · intro k l h
    simp only [buildChannel, List.getElem?_map, h]; rfl

theorem witness_CombMemory : 0 ≤ (0#16).toInt ∧ 0 ≤ (32767#16).toInt := by decide

theorem witness_Generator : (1 : BitVec 32) ≠ 0 := by decide

/-- For GranularFrameStages, NewGrainsStayBehindTheCursor and GrainContributionsAreBounded: a sound state at density 2,
slot 0 playing, slot 1 idle, slot 2 not serviced, running and frozen. -/
def playing : GranularState := { gran.granular with
  grains := [⟨true, 4, 15⟩, Grain.idle, ⟨true, 0, 3⟩, Grain.idle, Grain.idle, Grain.idle, Grain.idle, Grain.idle] }

theorem witness_GranularFrame :
    configWf gran.cfg = true ∧ GranularWf gran.cfg playing ∧ playing.frozen = false ∧
    GranularWf gran.cfg { playing with frozen := true } ∧ { playing with frozen := true }.frozen = true ∧
    playing.grains[0]? = some ⟨true, 4, 15⟩ ∧ playing.grains[1]? = some Grain.idle ∧
    playing.grains[2]? = some ⟨true, 0, 3⟩ ∧ ((1 : Nat) : Int) < playing.density.toInt ∧
    playing.density.toInt ≤ ((2 : Nat) : Int) ∧ Grain.idle.act = false ∧
    ((5 : Nat) : Int) < playing.grainLen.toInt ∧ 1 ≤ gran.cfg.grainFade := by decide

/-- A frozen, built granular block with a quantum in IN, at an unchanged rate. -/
def frozen : State := { gran with
  fxInited := true, curRate := 48000, cfgIn := ⟨48000, 16, 2⟩, ctlIn := true, ringIn := ringAt 0 4
  granular := { gran.granular with frozen := true } }

theorem witness_Freeze :
    frozen.cfg.activeFx = .granular ∧ frozen.granular.frozen = true ∧
    (after (exec (.fxProcess [⟨1, 2⟩]) frozen)).isSome = true ∧ frozen.ctlIn = true ∧
    frozen.cfgIn.rate = frozen.curRate ∧ (after (exec .taskStep frozen)).isSome = true := by decide +kernel

theorem witness_TaskRateChange :
    { rvb with curRate := 48000 }.cfgIn.rate ≠ (48000 : BitVec 32) ∧ rvb.cfgIn.rate = 0 ∧
    { rvb with cfgIn := ⟨48000, 16, 2⟩ }.cfgIn.rate ≠ rvb.curRate ∧
    { rvb with cfgIn := ⟨48000, 16, 2⟩ }.cfgIn.rate ≠ 0 := by decide

/-- Nothing to process, for each reason: no rate, FX_FATAL, not built, and one sample short of a quantum. -/
theorem witness_TaskWithoutProcessing :
    rvb.issuer = .ctl ∧ (rvb.cfgIn.rate = rvb.curRate ∧ rvb.curRate = 0) ∧
    ({ frozen with fxFatal := true }.curRate ≠ 0 ∧ { frozen with fxFatal := true }.fxFatal = true) ∧
    (frozen.curRate ≠ 0 ∧ frozen.fxFatal = false ∧ { frozen with fxInited := false }.fxInited = false) ∧
    (frozen.fxInited = true ∧ RingWf frozen.cfg.ringN (ringAt 6 1) ∧
      liveCount frozen.cfg.ringN (ringAt 6 1) < 2 * frozen.cfg.quantumFrames) := by decide

/-- A quantum waiting exactly, with room in OUT exactly for it, and with one sample less room. -/
theorem witness_TaskQuantum :
    configWf frozen.cfg = true ∧ RingWf frozen.cfg.ringN frozen.ringIn ∧ frozen.issuer = .ctl ∧
    frozen.cfgIn.rate = frozen.curRate ∧ frozen.curRate ≠ 0 ∧ frozen.fxFatal = false ∧ frozen.fxInited = true ∧
    2 * frozen.cfg.quantumFrames ≤ liveCount frozen.cfg.ringN frozen.ringIn ∧
    (RingWf frozen.cfg.ringN (ringAt 6 1) ∧
      2 * frozen.cfg.quantumFrames ≤ frozen.cfg.ringN - 1 - liveCount frozen.cfg.ringN (ringAt 6 1)) ∧
    (RingWf frozen.cfg.ringN (ringAt 6 2) ∧
      frozen.cfg.ringN - 1 - liveCount frozen.cfg.ringN (ringAt 6 2) < 2 * frozen.cfg.quantumFrames) := by decide

/-- m = K, 0 < m < K, and m = 0 < K, with one frame and a half live. -/
theorem witness_SofTick :
    { rvb with issuer := .tx }.issuer = .tx ∧ RingWf rvb.cfg.ringN (ringAt 6 1) ∧
    min ((0 + 1000) / 1000) (liveCount 8 (ringAt 6 1) / 2) = (0 + 1000) / 1000 ∧
    (min ((900 + 1100) / 1000) (liveCount 8 (ringAt 6 1) / 2) < (900 + 1100) / 1000 ∧
      0 < min ((900 + 1100) / 1000) (liveCount 8 (ringAt 6 1) / 2)) ∧
    (min ((0 + 1000) / 1000) (liveCount 8 (ringAt 0 1) / 2) < (0 + 1000) / 1000 ∧
      min ((0 + 1000) / 1000) (liveCount 8 (ringAt 0 1) / 2) = 0) := by decide

/-- For ClockReconciliation: ACC at its largest, and at 0. -/
theorem witness_Clock : { rvb with issuer := .tx, acc := 999 }.issuer = .tx ∧ (999#32).toNat < 1000 ∧
    (0#32).toNat < 1000 ∧ (0#32).toNat = 0 := by decide

/-- For TransmitAndTaskSidesAreIndependent: two states that agree on ACC, CUR_RATE and OUT and on nothing else named. -/
theorem witness_Independent :
    rvb.cfg.ringN = frozen.cfg.ringN ∧ { rvb with curRate := 48000 }.curRate = frozen.curRate ∧
    rvb.acc = frozen.acc ∧ rvb.ringOut = frozen.ringOut ∧ rvb.fxInited ≠ frozen.fxInited := by decide

/-- For OnlyResetClearsTheFatalFlag. -/
theorem witness_Fatal :
    { waiting [.reset] with fxFatal := true }.fxFatal = true ∧
    (after (step { waiting [.reset] with fxFatal := true })).isSome = true ∧
    (after (step { holding [] [] [0x11000000] with fxFatal := true })).map State.fxFatal = some true := by
  decide +kernel

end Sys2Proof.Tests
end

section
/-! SUPPORT. What a command can do, said once: who may issue it, and its state effect apart from its answer; and what an
audio task invocation is made of. Proofs about every command go by cases on `CommandEffect`, proofs about TASK_STEP by
`TaskClosed.taskEffect`. -/

namespace Sys2Proof.Machine

open Sys2Proof.Spec

/-! ### Answers -/

theorem setPort_emit (p : Port) (ws : List Word) (s : State) :
    setPort p ((getPort p s).emit ws) s = answered p ws s := by
  cases p <;> rfl

/-- A response is its words at the end of the issuing port's response stream, and nothing else (rule R102). -/
theorem respond_eq_answered (st : Status) (info : Octet) (data : List Word) (s : State) :
    respond st info data s = answered s.issuer (statusWord st info :: data) s :=
  setPort_emit ..

theorem statusWord_ok : statusWord .ok 0 = 0x00000000 := by decide

/-! ### The permission table, by the owners of the rings (rules R44, R106) -/

section Permission
variable {p : Port} {r : RingSel}

theorem mayPush_iff : mayPush p r = true ↔ p = producer r := by cases p <;> cases r <;> decide
theorem mayPop_iff : mayPop p r = true ↔ p = consumer r := by cases p <;> cases r <;> decide
theorem mayQuery_iff : mayQuery p r = true ↔ p = producer r ∨ p = consumer r := by cases p <;> cases r <;> decide
theorem mayControl_iff : mayControl p = true ↔ p = .ctl := by cases p <;> decide
theorem mayTick_iff : mayTick p = true ↔ p = .tx := by cases p <;> decide
end Permission

/-! ### The state effect of a command -/

/-- `CommandEffect s i u`: command i, run in state s, may leave state u, its answer not counted. -/
inductive CommandEffect (s : State) : Instr → State → Prop
  /-- A query, or a command that answers anything but OK (rules R134, R135, R162, R302). -/
  | unchanged (i : Instr) : CommandEffect s i s
  | push {r : RingSel} {data : List Word} {q : Ring} (issuer : s.issuer = producer r)
      (pushed : ringPush s.cfg.ringN (getRing r s) data = some q) : CommandEffect s (.rbPush r data) (setRing r q s)
  | pop {r : RingSel} {n : BitVec 16} {ws : List Word} {q : Ring} (issuer : s.issuer = consumer r)
      (popped : ringPop s.cfg.ringN (getRing r s) n.toNat = some (ws, q)) :
      CommandEffect s (.rbPop r n) (setRing r q s)
  | init (issuer : s.issuer = .ctl) : CommandEffect s .fxInit (initEffect s).1
  | format {d : Octet} {rate : BitVec 32} (issuer : s.issuer = .ctl) :
      CommandEffect s (.fxSetFormat d rate) (setFormat d rate s)
  | enabled {e : Bool} (issuer : s.issuer = .ctl) : CommandEffect s (.fxSetEnabled e) (setEnabled e s)
  | param {id : Octet} {v : S16} (issuer : s.issuer = .ctl) : CommandEffect s (.fxSetParam id v) (setParam id v s)
  | process {frames : List Frame} (issuer : s.issuer = .ctl) :
      CommandEffect s (.fxProcess frames) (fxBlock s frames).1
  | task (issuer : s.issuer = .ctl) : CommandEffect s .taskStep (taskEffect s).state
  | tick (issuer : s.issuer = .tx) :
      CommandEffect s .sofTick { s with acc := tickAcc s, ringOut := (tickPop s).2 }

/-- Running command i in state s leaves state t: one of its effects, and then its answer. -/
def AnswersWithEffect (i : Instr) (s t : State) : Prop :=
  ∃ (st : Status) (info : Octet) (data : List Word) (u : State), CommandEffect s i u ∧ t = respond st info data u

theorem CommandEffect.answers {i : Instr} {s t u : State} {st : Status} {info : Octet} {data : List Word}
    (he : CommandEffect s i u) (h : (.next (respond st info data u) : Result) = .next t) : AnswersWithEffect i s t :=
  ⟨st, info, data, u, he, by cases h; rfl⟩

/-- A command not permitted changes nothing; so only the permitted case is left (rule R111). -/
theorem answersWithEffect_of_ifPermitted {i : Instr} {s t : State} {permitted : Bool} {body : Result}
    (h : ifPermitted permitted s body = .next t)
    (hb : permitted = true → body = .next t → AnswersWithEffect i s t) : AnswersWithEffect i s t := by
  obtain ⟨hp, hbody⟩ | ⟨-, rfl⟩ := ifPermitted_next h
  · exact hb hp hbody
  · exact (CommandEffect.unchanged i).answers rfl

/-- Every command has one of the effects listed, and then its answer. -/
theorem exec_effect {i : Instr} {s t : State} (h : exec i s = .next t) : AnswersWithEffect i s t := by
  cases i with
  | rbPush r data =>
    refine answersWithEffect_of_ifPermitted h fun hp hb => ?_
    split at hb
    · exact (CommandEffect.unchanged _).answers hb
    · next hq => exact (CommandEffect.push (mayPush_iff.mp hp) hq).answers hb
  | rbPop r n =>
    refine answersWithEffect_of_ifPermitted h fun hp hb => ?_
    split at hb
    · exact (CommandEffect.unchanged _).answers hb
    · next hq => exact (CommandEffect.pop (mayPop_iff.mp hp) hq).answers hb
  | rbSize r => exact answersWithEffect_of_ifPermitted h fun _ hb => (CommandEffect.unchanged _).answers hb
  | rbFree r => exact answersWithEffect_of_ifPermitted h fun _ hb => (CommandEffect.unchanged _).answers hb
  | fxName => exact answersWithEffect_of_ifPermitted h fun _ hb => (CommandEffect.unchanged _).answers hb
  | fxInit =>
    exact answersWithEffect_of_ifPermitted h fun hp hb => (CommandEffect.init (mayControl_iff.mp hp)).answers hb
  | fxSetFormat d rate =>
    refine answersWithEffect_of_ifPermitted h fun hp hb => ?_
    split at hb
    · exact (CommandEffect.unchanged _).answers hb
    · exact (CommandEffect.format (mayControl_iff.mp hp)).answers hb
  | fxSetEnabled e =>
    exact answersWithEffect_of_ifPermitted h fun hp hb => (CommandEffect.enabled (mayControl_iff.mp hp)).answers hb
  | fxSetParam id v =>
    exact answersWithEffect_of_ifPermitted h fun hp hb => (CommandEffect.param (mayControl_iff.mp hp)).answers hb
  | fxProcess frames =>
    refine answersWithEffect_of_ifPermitted h fun hp hb => ?_
    split at hb
    · exact (CommandEffect.unchanged _).answers hb
    · split at hb
      · exact (CommandEffect.unchanged _).answers hb
      · exact (CommandEffect.process (mayControl_iff.mp hp)).answers hb
  | taskStep =>
    exact answersWithEffect_of_ifPermitted h fun hp hb => (CommandEffect.task (mayControl_iff.mp hp)).answers hb
  | sofTick =>
    exact answersWithEffect_of_ifPermitted h fun hp hb => (CommandEffect.tick (mayTick_iff.mp hp)).answers hb

/-- A command with an effect was issued on a port that rule R106 permits. -/
theorem CommandEffect.permitted {i : Instr} {s u : State} (h : CommandEffect s i u) :
    u = s ∨ s.issuer ∈ portsFor i := by
  cases h with
  | unchanged => exact .inl rfl
  | @push r _ _ issuer => right; rw [issuer]; cases r <;> simp [portsFor, producer]
  | @pop r _ _ _ issuer => right; rw [issuer]; cases r <;> simp [portsFor, consumer]
  | init issuer | format issuer | enabled issuer | param issuer | process issuer | task issuer | tick issuer =>
    right; rw [issuer]; simp [portsFor]

/-! ### What an audio task invocation is made of (rules R270 to R276) -/

@[simp] theorem fxBlock_cfg (s : State) (fs : List Frame) : (fxBlock s fs).1.cfg = s.cfg := by rw [fxBlock_frame]
@[simp] theorem initEffect_cfg (s : State) : (initEffect s).1.cfg = s.cfg := by rw [initEffect_frame]

/-- A property of states that every operation of an audio task invocation keeps. -/
structure TaskClosed (P : State → Prop) : Prop where
  rate : ∀ u r, P u → P { u with curRate := r }
  format : ∀ u d r, P u → P (setFormat d r u)
  init : ∀ u, P u → P (initEffect u).1
  enabled : ∀ u e, P u → P (setEnabled e u)
  pop : ∀ u k ws q, ringPop u.cfg.ringN u.ringIn k = some (ws, q) → P u → P { u with ringIn := q }
  block : ∀ u fs, P u → P (fxBlock u fs).1
  push : ∀ u ws q, ringPush u.cfg.ringN u.ringOut ws = some q → P u → P { u with ringOut := q }

namespace TaskClosed
variable {P : State → Prop} (hP : TaskClosed P) {s : State}
include hP

theorem taskRebuild (r : BitVec 32) (h : P s) : P (taskRebuild r s).1 := by
  unfold Machine.taskRebuild
  split
  · exact h
  · exact hP.init _ (hP.format _ _ _ h)

theorem taskQuantum (h : P s) : P (taskQuantum s).state := by
  unfold Machine.taskQuantum
  dsimp only
  split
  · exact h
  · next ins q hpop =>
    have hb := hP.block _ (framesOf ins) (hP.pop _ _ _ _ hpop h)
    split
    · exact hb
    · next o hpush => exact hP.push _ _ _ (by rwa [fxBlock_cfg]) hb

theorem taskSteady (r : BitVec 32) (h : P s) : P (taskSteady r s).state := by
  unfold Machine.taskSteady
  split_ifs
  · exact h
  · exact h
  · exact h
  · exact h
  · exact hP.taskQuantum h

/-- What every operation of an invocation keeps, the invocation keeps. -/
theorem taskEffect (h : P s) : P (taskEffect s).state := by
  unfold Machine.taskEffect
  dsimp only
  split
  · exact hP.enabled _ _ (hP.taskRebuild _ (hP.rate _ _ h))
  · exact hP.taskSteady _ (hP.enabled _ _ h)

end TaskClosed

end Sys2Proof.Machine
end

section
/-! SUPPORT. Soundness (Safety.lean) is kept by every operation of the block, and holds after reset. -/

namespace Sys2Proof.Machine

/-! ### The generator never reaches 0 (rules R57, R243) -/

/-- A word that a left shift maps to itself is 0: bit i is bit i - n, for every i. -/
theorem eq_zero_of_eq_shiftLeft {w n : Nat} (hn : 0 < n) {x : BitVec w} (h : x = x <<< n) : x = 0 := by
  have bits : ∀ i, x.getLsbD i = false := by
    intro i
    induction i using Nat.strongRecOn with
    | ind i ih =>
      rw [h, BitVec.getLsbD_shiftLeft]
      by_cases hi : i < n
      · simp [hi]
      · simp [ih (i - n) (by omega)]
  exact BitVec.eq_of_getLsbD_eq fun i _ => by simp [bits i]

/-- A word that a right shift maps to itself is 0: its value is at most half of itself. -/
theorem eq_zero_of_eq_ushiftRight {w n : Nat} (hn : 0 < n) {x : BitVec w} (h : x = x >>> n) : x = 0 := by
  have hv : x.toNat = x.toNat / 2 ^ n := by
    rw [← Nat.shiftRight_eq_div_pow, ← BitVec.toNat_ushiftRight, ← h]
  by_contra hx
  have hpos : 0 < x.toNat := by
    rw [Nat.pos_iff_ne_zero]; exact fun h0 => hx (BitVec.eq_of_toNat_eq (by simpa using h0))
  have := Nat.div_lt_self hpos (Nat.one_lt_two_pow hn.ne')
  omega

/-- The generator maps a word other than 0 to a word other than 0. -/
theorem rngNext_ne_zero {x : BitVec 32} (h : x ≠ 0) : rngNext x ≠ 0 := by
  have left : ∀ n, 0 < n → ∀ y : BitVec 32, y ≠ 0 → y ^^^ y <<< n ≠ 0 := fun n hn y hy h0 =>
    hy (eq_zero_of_eq_shiftLeft hn (BitVec.xor_eq_zero_iff.mp h0))
  have right : ∀ n, 0 < n → ∀ y : BitVec 32, y ≠ 0 → y ^^^ y >>> n ≠ 0 := fun n hn y hy h0 =>
    hy (eq_zero_of_eq_ushiftRight hn (BitVec.xor_eq_zero_iff.mp h0))
  exact left 5 (by decide) _ (right 17 (by decide) _ (left 13 (by decide) x h))

/-- Draws keep the generator off 0. -/
theorem iterate_rngNext_ne_zero (n : Nat) {x : BitVec 32} (h : x ≠ 0) : rngNext^[n] x ≠ 0 := by
  induction n with
  | zero => exact h
  | succ n ih => rw [Function.iterate_succ_apply']; exact rngNext_ne_zero ih

/-! ### What a well-formed build says (rules R9, R11) -/

section Build
variable {c : Config} (h : configWf c = true)
include h

theorem ringN_ge_two : 2 ≤ c.ringN := by
  simp only [configWf, geometryWf, Bool.and_eq_true, decide_eq_true_eq] at h; omega

theorem tablesWf_of_configWf : tablesWf c.left = true ∧ tablesWf c.right = true := by
  simp only [configWf, reverbBuildWf, Bool.and_eq_true] at h; tauto

theorem storage_pos : 1 ≤ c.maxPdLen ∧ 1 ≤ c.maxCombLen ∧ 1 ≤ c.maxApLen := by
  simp only [configWf, reverbBuildWf, Bool.and_eq_true, decide_eq_true_eq] at h; tauto

theorem capLen_ge_two : 2 ≤ c.capLen := by
  simp only [configWf, granularBuildWf, Bool.and_eq_true, decide_eq_true_eq] at h; omega

theorem grainLenReset_bounds : 1 ≤ c.grainLenReset ∧ c.grainLenReset ≤ c.capLen ∧ c.grainLenReset ≤ 32767 := by
  simp only [configWf, granularBuildWf, Bool.and_eq_true, decide_eq_true_eq] at h; omega

theorem grainDensityReset_bounds : 1 ≤ c.grainDensityReset ∧ c.grainDensityReset ≤ 8 := by
  simp only [configWf, granularBuildWf, Bool.and_eq_true, decide_eq_true_eq] at h; omega

theorem rngSeed_ne_zero : c.rngSeed ≠ 0 := by
  simp only [configWf, granularBuildWf, Bool.and_eq_true, decide_eq_true_eq] at h; tauto

end Build

/-! ### The granular state -/

theorem idleGrains_wf {c : Config} (hc : 0 < c.capLen) :
    ∀ x ∈ List.replicate nGrain Grain.idle, GrainWf c x := by
  intro x hx
  rw [List.eq_of_mem_replicate hx]
  exact ⟨by decide, by decide, hc⟩

theorem granInit_keeps_wf {c : Config} {g : GranularState} (hc : configWf c = true) (h : GranularWf c g) :
    GranularWf c (granInit c g) := by
  obtain ⟨hd1, hd8, hl1, hl, -⟩ := h
  have hcap := capLen_ge_two hc
  exact ⟨hd1, hd8, hl1, hl, List.length_replicate, by show 0 < _; omega, List.length_replicate,
    idleGrains_wf (by omega), rngSeed_ne_zero hc⟩

theorem granFrame_keeps_wf {c : Config} {g : GranularState} (f : Frame) (h : GranularWf c g) :
    GranularWf c (granFrame c g f).1 := by
  obtain ⟨hd1, hd8, hl1, hl, hcap, hwc, hn, hgr, hrng⟩ := h
  obtain ⟨-, -, ed, el, -⟩ := granFrame_registers c g f
  obtain ⟨kcap, kwc⟩ := captureWrite_keeps (downMix (q15 f.left) (q15 f.right)) hcap hwc
  refine ⟨by rwa [ed], by rwa [ed], by rwa [el], by rwa [el], kcap, kwc, ?_, ?_, ?_⟩
  · simp only [granFrame, serviceSlots_length]; rwa [captureWrite_frame]
  · exact serviceSlots_keeps_wf (by omega) _ _ _ (by rwa [captureWrite_frame])
  · simp only [granFrame, (serviceSlots_spec ..).1]
    exact iterate_rngNext_ne_zero _ (by rwa [captureWrite_frame])

theorem clampParam_bounds {hi : Int} (h : 1 ≤ hi) (v : S16) :
    1 ≤ (BitVec.ofInt 16 (min hi (max 1 v.toInt))).toInt ∧
      (BitVec.ofInt 16 (min hi (max 1 v.toInt))).toInt ≤ hi := by
  rw [clampParam h v]; omega

theorem granularSetParam_keeps_wf {c : Config} {g : GranularState} (hc : configWf c = true) (ident : Octet)
    (v : S16) (h : GranularWf c g) : GranularWf c (granularSetParam c ident v g) := by
  obtain ⟨hd1, hd8, hl1, hl, hrest⟩ := h
  have hcap := capLen_ge_two hc
  unfold granularSetParam
  split_ifs
  · exact ⟨hd1, hd8, hl1, hl, hrest⟩
  · exact ⟨hd1, hd8, hl1, hl, hrest⟩
  · obtain ⟨lo, hi⟩ := clampParam_bounds (by decide : (1 : Int) ≤ 8) v
    exact ⟨lo, hi, hl1, hl, hrest⟩
  · obtain ⟨lo, hi⟩ := clampParam_bounds (by omega : (1 : Int) ≤ c.capLen) v
    exact ⟨hd1, hd8, lo, hi, hrest⟩
  · exact ⟨hd1, hd8, hl1, hl, hrest⟩

/-! ### Parts of a sound state replaced by sound parts -/

section Replace
variable {s : State} (h : WellFormedState s)
include h

theorem setPort_keeps_wf (p : Port) (v : PortState) : WellFormedState (setPort p v s) := by
  cases p <;> exact h

theorem respond_keeps_wf (st : Status) (info : Octet) (data : List Word) :
    WellFormedState (respond st info data s) := setPort_keeps_wf h ..

theorem takeCommand_keeps_wf (p : Port) (rest : List Word) : WellFormedState (takeCommand p rest s) :=
  setPort_keeps_wf h ..

theorem getRing_wf (r : RingSel) : RingWf s.cfg.ringN (getRing r s) := by
  obtain ⟨-, hin, hout, -⟩ := h
  cases r
  · exact hin
  · exact hout

theorem setRing_keeps_wf {r : RingSel} {q : Ring} (hq : RingWf s.cfg.ringN q) : WellFormedState (setRing r q s) := by
  obtain ⟨hc, hin, hout, hrest⟩ := h
  cases r
  · exact ⟨hc, hq, hout, hrest⟩
  · exact ⟨hc, hin, hq, hrest⟩

theorem withReverb_keeps_wf {rv : ReverbState} (hl : ChannelWf s.cfg rv.left) (hr : ChannelWf s.cfg rv.right) :
    WellFormedState { s with reverb := rv } := by
  obtain ⟨hc, hin, hout, hacc, hflags, -, -, hg⟩ := h
  exact ⟨hc, hin, hout, hacc, hflags, hl, hr, hg⟩

theorem withGranular_keeps_wf {g : GranularState} (hg : GranularWf s.cfg g) :
    WellFormedState { s with granular := g } := by
  obtain ⟨hc, hin, hout, hacc, hflags, hl, hr, -⟩ := h
  exact ⟨hc, hin, hout, hacc, hflags, hl, hr, hg⟩

theorem withFlags_keeps_wf {inited fatal : Bool} (hf : ¬ (inited = true ∧ fatal = true)) :
    WellFormedState { s with fxInited := inited, fxFatal := fatal } := by
  obtain ⟨hc, hin, hout, hacc, -, hrest⟩ := h
  exact ⟨hc, hin, hout, hacc, hf, hrest⟩

end Replace

/-! ### The engine's operations -/

theorem reverbSetParam_left (ident : Octet) (v : S16) (rv : ReverbState) :
    (reverbSetParam ident v rv).left = rv.left := by
  unfold reverbSetParam; split_ifs <;> rfl

theorem reverbSetParam_right (ident : Octet) (v : S16) (rv : ReverbState) :
    (reverbSetParam ident v rv).right = rv.right := by
  unfold reverbSetParam; split_ifs <;> rfl

section Engine
variable {s : State} (h : WellFormedState s)
include h

theorem setEnabled_keeps_wf (e : Bool) : WellFormedState (setEnabled e s) := by
  unfold setEnabled; split <;> exact h

theorem setFormat_keeps_wf (d : Octet) (rate : BitVec 32) : WellFormedState (setFormat d rate s) := by
  unfold setFormat
  split
  · exact withFlags_keeps_wf (s := { s with fxBits := d, fxRate := rate }) (fatal := s.fxFatal) h (by simp)
  · exact h

theorem setParam_keeps_wf (ident : Octet) (v : S16) : WellFormedState (setParam ident v s) := by
  obtain ⟨hc, -, -, -, -, hl, hr, hg⟩ := id h
  unfold setParam
  split
  · exact withReverb_keeps_wf h (by rwa [reverbSetParam_left]) (by rwa [reverbSetParam_right])
  · exact withGranular_keeps_wf h (granularSetParam_keeps_wf hc ident v hg)

/-- A build that succeeds leaves a sound state (rules R194, R232). -/
theorem buildEffect_keeps_wf {t : State} (hb : buildEffect s = some t) : WellFormedState t ∧ t.fxFatal = s.fxFatal := by
  obtain ⟨hc, -, -, -, -, -, -, hg⟩ := id h
  obtain ⟨tl, tr⟩ := tablesWf_of_configWf hc
  unfold buildEffect at hb
  split at hb
  · split at hb
    · cases hb
    · next rv hrv =>
      cases hb
      unfold reverbInit at hrv
      split at hrv
      · next hfit =>
        cases hrv
        rw [Bool.and_eq_true] at hfit
        exact ⟨withReverb_keeps_wf h (buildChannel_wf tl hfit.1) (buildChannel_wf tr hfit.2), rfl⟩
      · cases hrv
  · cases hb
    exact ⟨withGranular_keeps_wf h (granInit_keeps_wf hc hg), rfl⟩

theorem initEffect_keeps_wf : WellFormedState (initEffect s).1 := by
  unfold initEffect
  split
  · exact h
  · next hf =>
    split
    · exact withFlags_keeps_wf h (by simp)
    · next t hb =>
      obtain ⟨ht, hft⟩ := buildEffect_keeps_wf h hb
      exact withFlags_keeps_wf (fatal := t.fxFatal) ht (by simp [hft, hf])

theorem fxFrame_keeps_wf (f : Frame) : WellFormedState (fxFrame s f).1 := by
  obtain ⟨-, -, -, -, -, hl, hr, hg⟩ := id h
  unfold fxFrame
  split
  · exact withReverb_keeps_wf h (reverbSample_keeps_wf _ _ _ hl) (reverbSample_keeps_wf _ _ _ hr)
  · exact withGranular_keeps_wf h (granFrame_keeps_wf f hg)

end Engine

theorem fxBlock_keeps_wf {s : State} (h : WellFormedState s) (fs : List Frame) : WellFormedState (fxBlock s fs).1 := by
  induction fs generalizing s with
  | nil => exact h
  | cons f fs ih => exact ih (fxFrame_keeps_wf h f)

/-! ### The task and the tick -/

theorem taskClosed_wellFormedState : TaskClosed WellFormedState where
  rate _ _ h := h
  format _ _ _ h := setFormat_keeps_wf h ..
  init _ h := initEffect_keeps_wf h
  enabled _ _ h := setEnabled_keeps_wf h _
  pop _ _ _ _ hpop h := setRing_keeps_wf (r := .ringIn) h (ringPop_keeps_wf (getRing_wf h .ringIn) hpop)
  block _ _ h := fxBlock_keeps_wf h _
  push _ _ _ hpush h := setRing_keeps_wf (r := .ringOut) h (ringPush_keeps_wf (getRing_wf h .ringOut) hpush)

/-- The accumulator is a remainder of CADENCE_HZ (rules R46, R280). -/
theorem tickAcc_lt (s : State) : (tickAcc s).toNat < cadenceHz := by
  have hm := Nat.mod_lt (s.acc.toNat + s.curRate.toNat) (by decide : 0 < cadenceHz)
  rw [tickAcc, BitVec.toNat_ofNat]
  exact (Nat.mod_le _ _).trans_lt hm

theorem tick_keeps_wf {s : State} (h : WellFormedState s) :
    WellFormedState { s with acc := tickAcc s, ringOut := (tickPop s).2 } := by
  obtain ⟨hc, hin, hout, -, hrest⟩ := h
  refine ⟨hc, hin, ?_, tickAcc_lt s, hrest⟩
  show RingWf s.cfg.ringN (tickPop s).2
  unfold tickPop
  split
  · exact hout
  · next hpop => exact ringPop_keeps_wf hout hpop

/-! ### Every command -/

theorem CommandEffect.keeps_wf {i : Instr} {s u : State} (he : CommandEffect s i u) (h : WellFormedState s) :
    WellFormedState u := by
  cases he with
  | unchanged => exact h
  | push _ pushed => exact setRing_keeps_wf h (ringPush_keeps_wf (getRing_wf h _) pushed)
  | pop _ popped => exact setRing_keeps_wf h (ringPop_keeps_wf (getRing_wf h _) popped)
  | init => exact initEffect_keeps_wf h
  | format => exact setFormat_keeps_wf h ..
  | enabled => exact setEnabled_keeps_wf h _
  | param => exact setParam_keeps_wf h ..
  | process => exact fxBlock_keeps_wf h _
  | task => exact taskClosed_wellFormedState.taskEffect h
  | tick => exact tick_keeps_wf h

theorem exec_keeps_wf {i : Instr} {s t : State} (h : WellFormedState s) (he : exec i s = .next t) :
    WellFormedState t := by
  obtain ⟨st, info, data, u, hu, rfl⟩ := exec_effect he
  exact respond_keeps_wf (hu.keeps_wf h) ..

/-! ### Reset and the other arrivals -/

theorem unbuiltLine_wf {most : Nat} (h : 1 ≤ most) : LineWf most DelayLine.unbuilt :=
  ⟨le_refl 1, h, rfl, Nat.zero_lt_one⟩

theorem unbuiltChannel_wf {c : Config} (hc : configWf c = true) : ChannelWf c ReverbChannel.unbuilt := by
  obtain ⟨hpd, hcomb, hap⟩ := storage_pos hc
  refine ⟨unbuiltLine_wf hpd, List.length_replicate, List.length_replicate, fun cb hcb => ?_, fun l hl => ?_⟩
  · rw [List.eq_of_mem_replicate hcb]; exact ⟨unbuiltLine_wf hcomb, by decide⟩
  · rw [List.eq_of_mem_replicate hl]; exact unbuiltLine_wf hap

theorem resetRing_wf {c : Config} (hc : configWf c = true) : RingWf c.ringN (Ring.reset c.ringN) := by
  have hn : 0 < c.ringN := by have := ringN_ge_two hc; omega
  exact ⟨List.length_replicate, hn, hn⟩

theorem resetGranular_density {c : Config} (hc : configWf c = true) :
    (GranularState.reset c).density.toInt = c.grainDensityReset := by
  have := grainDensityReset_bounds hc
  exact ofNat16_toInt (by omega)

theorem resetGranular_grainLen {c : Config} (hc : configWf c = true) :
    (GranularState.reset c).grainLen.toInt = c.grainLenReset :=
  ofNat16_toInt (grainLenReset_bounds hc).2.2

theorem resetGranular_wf {c : Config} (hc : configWf c = true) : GranularWf c (GranularState.reset c) := by
  have hcap := capLen_ge_two hc
  have hlen := grainLenReset_bounds hc
  have hden := grainDensityReset_bounds hc
  have elen := resetGranular_grainLen hc
  have eden := resetGranular_density hc
  exact ⟨by omega, by omega, by omega, by omega, List.length_replicate, by show 0 < _; omega, List.length_replicate,
    idleGrains_wf (by omega), rngSeed_ne_zero hc⟩

theorem resetOf_wf {c : Config} (hc : configWf c = true) : WellFormedState (State.resetOf c) :=
  ⟨hc, resetRing_wf hc, resetRing_wf hc, (by decide : 0 < cadenceHz), by simp [State.resetOf],
    unbuiltChannel_wf hc, unbuiltChannel_wf hc, resetGranular_wf hc⟩

/-- An arrival keeps a sound state sound; reset makes one. -/
theorem nextArrival_keeps_wf {s : State} (h : WellFormedState s) : WellFormedState (nextArrival s) := by
  unfold nextArrival
  split
  · exact h
  · next a as _ =>
    cases a with
    | words | cfg | ctlIn => exact h
    | reset => exact resetOf_wf h.1

/-! ### Obligations O11 and O12 -/

/-- Settles O12: by what a step can be (`step_cases`), and for a command by its effect (`exec_effect`). -/
theorem stepKeepsStateWellFormed : Obligations.StepKeepsStateWellFormed := by
  intro s t h hstep
  obtain ⟨-, ⟨-, rfl⟩ | ⟨p, _, rest, -, -, rfl⟩ | ⟨p, i, rest, -, -, hexec⟩⟩ := step_cases hstep
  · exact nextArrival_keeps_wf h
  · exact respond_keeps_wf (takeCommand_keeps_wf h p rest) ..
  · exact exec_keeps_wf (takeCommand_keeps_wf h p rest) hexec

/-- Settles O11, part by part of the state after reset. -/
theorem resetStateIsWellFormed : Obligations.ResetStateIsWellFormed :=
  fun _ hc => resetOf_wf hc

end Sys2Proof.Machine
end

section
/-! SUPPORT. The write table of the registers (rules R40 to R58, R80, R92, R164), for every effect a command can have. -/

namespace Sys2Proof.Machine

open Sys2Proof.Spec

/-! ### The registers, in the groups that the rules name together -/

/-- What no command writes: the build, the inputs, the arrivals to come and the issuing port. -/
def surroundings (s : State) : Config × CfgInput × Bool × List Arrival × Port :=
  (s.cfg, s.cfgIn, s.ctlIn, s.arrivals, s.issuer)

/-- FX_RATE and FX_BITS (rule R47). -/
def formatRegs (s : State) : BitVec 32 × Octet := (s.fxRate, s.fxBits)

/-- RV_EN and GR_FROZEN (rules R49, R54). -/
def enableFlags (s : State) : Bool × Bool := (s.reverb.en, s.granular.frozen)

/-- The parameter registers (rules R48, R53). -/
def paramRegs (s : State) : S16 × S16 × S16 × S16 × S16 × S16 × S16 × S16 × S16 :=
  (s.reverb.dry, s.reverb.wet, s.reverb.damp, s.reverb.apg, s.reverb.master,
    s.granular.dry, s.granular.wet, s.granular.density, s.granular.grainLen)

/-- The storage of both variants (rules R50 to R52, R55 to R57). -/
def storage (s : State) : ReverbChannel × ReverbChannel × List S16 × Nat × List Grain × BitVec 32 :=
  (s.reverb.left, s.reverb.right, s.granular.cap, s.granular.wc, s.granular.grains, s.granular.rng)

/-- What the producer of a ring writes (rule R44). -/
def writeSide (r : Ring) : Nat × List Word := (r.wr, r.buf)

/-- From s to t, command i has written no register that the rules do not let it write. -/
structure WritesOnly (i : Instr) (s t : State) : Prop where
  outside : surroundings t = surroundings s
  curRate : i ≠ .taskStep → t.curRate = s.curRate
  acc : i ≠ .sofTick → t.acc = s.acc
  format : i ≠ .taskStep → (∀ d r, i ≠ .fxSetFormat d r) → formatRegs t = formatRegs s
  fatal : i ≠ .taskStep → i ≠ .fxInit → t.fxFatal = s.fxFatal
  inited : i ≠ .taskStep → i ≠ .fxInit → (∀ d r, i ≠ .fxSetFormat d r) → t.fxInited = s.fxInited
  enabled : i ≠ .taskStep → (∀ e, i ≠ .fxSetEnabled e) → enableFlags t = enableFlags s
  params : (∀ id v, i ≠ .fxSetParam id v) → paramRegs t = paramRegs s
  stored : i ≠ .taskStep → i ≠ .fxInit → (∀ frames, i ≠ .fxProcess frames) → storage t = storage s
  inWrite : (∀ ws, i ≠ .rbPush .ringIn ws) → writeSide t.ringIn = writeSide s.ringIn
  inRead : i ≠ .taskStep → (∀ n, i ≠ .rbPop .ringIn n) → t.ringIn.rd = s.ringIn.rd
  outWrite : i ≠ .taskStep → (∀ ws, i ≠ .rbPush .ringOut ws) → writeSide t.ringOut = writeSide s.ringOut
  outRead : i ≠ .sofTick → (∀ n, i ≠ .rbPop .ringOut n) → t.ringOut.rd = s.ringOut.rd
  granularUnbuilt : s.cfg.activeFx = .reverb → t.granular = s.granular
  reverbUnbuilt : s.cfg.activeFx = .granular → t.reverb = s.reverb

/-- The commands whose registers TASK_STEP writes too: not ACC, no parameter, IN only popped, OUT only pushed. -/
structure TaskPart (i : Instr) : Prop where
  tick : i ≠ .sofTick
  param : ∀ id v, i ≠ .fxSetParam id v
  push : ∀ ws, i ≠ .rbPush .ringIn ws
  pop : ∀ n, i ≠ .rbPop .ringOut n

namespace WritesOnly
variable {i : Instr} {s t u : State}

theorem refl (i : Instr) (s : State) : WritesOnly i s s := by
  constructor <;> intros <;> rfl

theorem cfg_eq (h : WritesOnly i s t) : t.cfg = s.cfg := congrArg Prod.fst h.outside

theorem trans (h : WritesOnly i s t) (k : WritesOnly i t u) : WritesOnly i s u where
  outside := k.outside.trans h.outside
  curRate a := (k.curRate a).trans (h.curRate a)
  acc a := (k.acc a).trans (h.acc a)
  format a b := (k.format a b).trans (h.format a b)
  fatal a b := (k.fatal a b).trans (h.fatal a b)
  inited a b c := (k.inited a b c).trans (h.inited a b c)
  enabled a b := (k.enabled a b).trans (h.enabled a b)
  params a := (k.params a).trans (h.params a)
  stored a b c := (k.stored a b c).trans (h.stored a b c)
  inWrite a := (k.inWrite a).trans (h.inWrite a)
  inRead a b := (k.inRead a b).trans (h.inRead a b)
  outWrite a b := (k.outWrite a b).trans (h.outWrite a b)
  outRead a b := (k.outRead a b).trans (h.outRead a b)
  granularUnbuilt a := (k.granularUnbuilt (by rwa [h.cfg_eq])).trans (h.granularUnbuilt a)
  reverbUnbuilt a := (k.reverbUnbuilt (by rwa [h.cfg_eq])).trans (h.reverbUnbuilt a)

/-- TASK_STEP may write what the operations it is made of may write (rules R272, R274, R276). -/
theorem toTaskStep (h : WritesOnly i s t) (part : TaskPart i) : WritesOnly .taskStep s t where
  outside := h.outside
  curRate a := absurd rfl a
  acc _ := h.acc part.tick
  format a := absurd rfl a
  fatal a := absurd rfl a
  inited a := absurd rfl a
  enabled a := absurd rfl a
  params _ := h.params part.param
  stored a := absurd rfl a
  inWrite _ := h.inWrite part.push
  inRead a := absurd rfl a
  outWrite a := absurd rfl a
  outRead _ _ := h.outRead part.tick part.pop
  granularUnbuilt := h.granularUnbuilt
  reverbUnbuilt := h.reverbUnbuilt

end WritesOnly

/-! ### Each operation: the registers it writes first, all others by computation -/

theorem ringPop_writeSide {n k : Nat} {r q : Ring} {ws : List Word} (h : ringPop n r k = some (ws, q)) :
    writeSide q = writeSide r := by
  obtain ⟨-, -, -, hbuf, hwr, -⟩ := ringPop_some h
  rw [writeSide, hbuf, hwr]; rfl

theorem tickPop_writeSide (s : State) : writeSide (tickPop s).2 = writeSide s.ringOut := by
  unfold tickPop
  split
  · rfl
  · next hpop => exact ringPop_writeSide hpop

theorem setParam_enableFlags (ident : Octet) (v : S16) (s : State) :
    enableFlags (setParam ident v s) = enableFlags s := by
  unfold setParam reverbSetParam granularSetParam
  split <;> split_ifs <;> rfl

theorem setParam_storage (ident : Octet) (v : S16) (s : State) : storage (setParam ident v s) = storage s := by
  unfold setParam reverbSetParam granularSetParam
  split <;> split_ifs <;> rfl

section Operations
variable (s : State)

theorem setPort_writesOnly (i : Instr) (p : Port) (v : PortState) : WritesOnly i s (setPort p v s) := by
  cases p
  all_goals constructor
  all_goals intros; rfl

theorem respond_writesOnly (i : Instr) (st : Status) (info : Octet) (data : List Word) :
    WritesOnly i s (respond st info data s) :=
  setPort_writesOnly s i ..

theorem push_writesOnly {r : RingSel} {data : List Word} {q : Ring} {n : Nat}
    (hq : ringPush n (getRing r s) data = some q) : WritesOnly (.rbPush r data) s (setRing r q s) := by
  obtain ⟨-, -, hrd, -⟩ := ringPush_some hq
  cases r with
  | ringIn =>
    constructor
    case inWrite => exact fun a => absurd rfl (a _)
    case inRead => exact fun _ _ => hrd
    all_goals intros; rfl
  | ringOut =>
    constructor
    case outWrite => exact fun _ a => absurd rfl (a _)
    case outRead => exact fun _ _ => hrd
    all_goals intros; rfl

theorem pop_writesOnly {r : RingSel} {n : BitVec 16} {ws : List Word} {q : Ring} {m k : Nat}
    (hq : ringPop m (getRing r s) k = some (ws, q)) : WritesOnly (.rbPop r n) s (setRing r q s) := by
  cases r with
  | ringIn =>
    constructor
    case inWrite => exact fun _ => ringPop_writeSide hq
    case inRead => exact fun _ a => absurd rfl (a _)
    all_goals intros; rfl
  | ringOut =>
    constructor
    case outWrite => exact fun _ _ => ringPop_writeSide hq
    case outRead => exact fun _ a => absurd rfl (a _)
    all_goals intros; rfl

theorem init_writesOnly : WritesOnly .fxInit s (initEffect s).1 := by
  obtain ⟨hgranular, hreverb, -⟩ := initEffect_variant s
  constructor
  case fatal => exact fun _ a => absurd rfl a
  case inited => exact fun _ a => absurd rfl a
  case stored => exact fun _ a => absurd rfl a
  case granularUnbuilt => exact hgranular
  case reverbUnbuilt => exact hreverb
  all_goals rw [initEffect_frame]; intros; rfl

theorem format_writesOnly (d : Octet) (rate : BitVec 32) :
    WritesOnly (.fxSetFormat d rate) s (setFormat d rate s) := by
  unfold setFormat
  split
  all_goals
    constructor
    case format => exact fun _ a => absurd rfl (a _ _)
    case inited => exact fun _ _ a => absurd rfl (a _ _)
    all_goals intros; rfl

theorem enabled_writesOnly (e : Bool) : WritesOnly (.fxSetEnabled e) s (setEnabled e s) := by
  unfold setEnabled
  split
  all_goals
    constructor
    case enabled => exact fun _ a => absurd rfl (a _)
    case granularUnbuilt => simp_all
    case reverbUnbuilt => simp_all
    all_goals intros; rfl

theorem param_writesOnly (ident : Octet) (v : S16) :
    WritesOnly (.fxSetParam ident v) s (setParam ident v s) := by
  constructor
  case params => exact fun a => absurd rfl (a _ _)
  case enabled => exact fun _ _ => setParam_enableFlags ..
  case stored => exact fun _ _ _ => setParam_storage ..
  case granularUnbuilt => intro hv; simp [setParam, hv]
  case reverbUnbuilt => intro hv; simp [setParam, hv]
  all_goals rw [setParam_frame]; intros; rfl

theorem process_writesOnly (frames : List Frame) : WritesOnly (.fxProcess frames) s (fxBlock s frames).1 := by
  obtain ⟨hrv, hdry, hwet, hdensity, hlen, hfrozen, hgranular, hreverb⟩ := fxBlock_registers s frames
  constructor
  case stored => exact fun _ _ a => absurd rfl (a _)
  case enabled => intros; rw [enableFlags, hrv, hfrozen]; rfl
  case params => intros; rw [paramRegs, hrv, hdry, hwet, hdensity, hlen]; rfl
  case granularUnbuilt => exact hgranular
  case reverbUnbuilt => exact hreverb
  all_goals rw [fxBlock_frame]; intros; rfl

theorem rate_writesOnly (r : BitVec 32) : WritesOnly .taskStep s { s with curRate := r } := by
  constructor
  case curRate => exact fun a => absurd rfl a
  all_goals intros; rfl

theorem tick_writesOnly : WritesOnly .sofTick s { s with acc := tickAcc s, ringOut := (tickPop s).2 } := by
  constructor
  case acc => exact fun a => absurd rfl a
  case outRead => exact fun a => absurd rfl a
  case outWrite => exact fun _ _ => tickPop_writeSide s
  all_goals intros; rfl

end Operations

/-! ### The task, and every command -/

theorem taskClosed_writesOnly (s : State) : TaskClosed (WritesOnly .taskStep s) where
  rate u r h := h.trans (rate_writesOnly u r)
  format u d r h := h.trans ((format_writesOnly u d r).toTaskStep (by constructor <;> simp))
  init u h := h.trans ((init_writesOnly u).toTaskStep (by constructor <;> simp))
  enabled u e h := h.trans ((enabled_writesOnly u e).toTaskStep (by constructor <;> simp))
  pop u _ _ _ hpop h :=
    h.trans ((pop_writesOnly u (r := .ringIn) (n := 0) hpop).toTaskStep (by constructor <;> simp))
  block u fs h := h.trans ((process_writesOnly u fs).toTaskStep (by constructor <;> simp))
  push u _ _ hpush h :=
    h.trans ((push_writesOnly u (r := .ringOut) hpush).toTaskStep (by constructor <;> simp))

theorem CommandEffect.writesOnly {i : Instr} {s u : State} (he : CommandEffect s i u) : WritesOnly i s u := by
  cases he with
  | unchanged => exact .refl i s
  | push _ pushed => exact push_writesOnly s pushed
  | pop _ popped => exact pop_writesOnly s popped
  | init => exact init_writesOnly s
  | format => exact format_writesOnly s ..
  | enabled => exact enabled_writesOnly s _
  | param => exact param_writesOnly s ..
  | process => exact process_writesOnly s _
  | task => exact (taskClosed_writesOnly s).taskEffect (.refl _ s)
  | tick => exact tick_writesOnly s

theorem exec_writesOnly {i : Instr} {s t : State} (h : exec i s = .next t) : WritesOnly i s t := by
  obtain ⟨st, info, data, u, hu, rfl⟩ := exec_effect h
  exact hu.writesOnly.trans (respond_writesOnly u i st info data)

/-! ### Obligations O14 and O15 -/

/-- Settles O14: `exec_writesOnly`, its groups of registers taken apart. -/
theorem registersAreWrittenOnlyByTheirCommands : Obligations.RegistersAreWrittenOnlyByTheirCommands := by
  intro i s t h
  have w := exec_writesOnly h
  refine ⟨?_, w.curRate, w.acc, ?_, w.fatal, w.inited, ?_, ?_, ?_, ?_, w.inRead, ?_, w.outRead,
    w.granularUnbuilt, w.reverbUnbuilt⟩
  · simpa only [surroundings, Prod.mk.injEq] using w.outside
  · simpa only [formatRegs, Prod.mk.injEq] using w.format
  · simpa only [enableFlags, Prod.mk.injEq] using w.enabled
  · simpa only [paramRegs, Prod.mk.injEq] using w.params
  · simpa only [storage, Prod.mk.injEq] using w.stored
  · simpa only [writeSide, Prod.mk.injEq] using w.inWrite
  · simpa only [writeSide, Prod.mk.injEq] using w.outWrite

/-- The commands that rule R106 lets a port issue move no index of a ring but that port's own. -/
theorem writesOnly_of_permitted {i : Instr} {s u : State} (hp : s.issuer ∈ portsFor i) (w : WritesOnly i s u)
    (r : RingSel) :
    (s.issuer ≠ producer r → writeSide (getRing r u) = writeSide (getRing r s)) ∧
    (s.issuer ≠ consumer r → (getRing r u).rd = (getRing r s).rd) := by
  cases r with
  | ringIn =>
    refine ⟨fun hne => w.inWrite ?_, fun hne => w.inRead ?_ ?_⟩
    · rintro ws rfl; exact hne (List.mem_singleton.mp hp)
    · rintro rfl; exact hne (List.mem_singleton.mp hp)
    · rintro n rfl; exact hne (List.mem_singleton.mp hp)
  | ringOut =>
    refine ⟨fun hne => w.outWrite ?_ ?_, fun hne => w.outRead ?_ ?_⟩
    · rintro rfl; exact hne (List.mem_singleton.mp hp)
    · rintro ws rfl; exact hne (List.mem_singleton.mp hp)
    · rintro rfl; exact hne (List.mem_singleton.mp hp)
    · rintro n rfl; exact hne (List.mem_singleton.mp hp)

theorem getRing_respond (r : RingSel) (st : Status) (info : Octet) (data : List Word) (s : State) :
    getRing r (respond st info data s) = getRing r s := by
  cases r <;> simp

/-- Settles O15: a command with an effect was permitted (`CommandEffect.permitted`), and the write table (O14) says
which indices a permitted command may move. -/
theorem onlyTheOwnerMovesAnIndex : Obligations.OnlyTheOwnerMovesAnIndex := by
  intro i s t r h
  obtain ⟨st, info, data, u, hu, rfl⟩ := exec_effect h
  rw [getRing_respond]
  obtain rfl | hp := hu.permitted
  · exact ⟨fun _ => ⟨rfl, rfl⟩, fun _ => rfl⟩
  · simpa only [writeSide, Prod.mk.injEq] using writesOnly_of_permitted hp hu.writesOnly r

end Sys2Proof.Machine
end

section
/-! SUPPORT. The words a command takes from its port (rules R41, R110), and the remaining statements about the state: the
step that runs a command, reset, the ring queries, and the parameter write. -/

namespace Sys2Proof

/-! ### How many words a command takes -/

/-- The length of a command by its opcode and the value of B (rule R110). -/
def lengthByOpcode (b : Nat) : Opcode → Nat
  | .rbPush => 1 + b
  | .fxSetFormat => 2
  | .fxProcess => 1 + 2 * b
  | _ => 1

theorem cmdLen_of_opcode {w : Word} {o : Opcode} (h : opcodeOf (fieldOpc w) = some o) :
    cmdLen w = lengthByOpcode (fieldB w).toNat o := by
  unfold cmdLen
  rw [← opcodeValue_of_opcodeOf _ _ h]
  cases o <;> simp [opcodeValue, lengthByOpcode]

/-- The command built from a command word and its operand words is as long as they are (rules R101, R110). -/
theorem encode_buildInstr_length {w : Word} {o : Opcode} {ops : List Word} (ho : opcodeOf (fieldOpc w) = some o)
    (hops : ops.length = cmdLen w - 1) : (encode (buildInstr o w ops)).length = cmdLen w := by
  have hl := cmdLen_of_opcode ho
  cases o with
  | rbPush =>
    simp only [lengthByOpcode] at hl
    simp only [buildInstr, encode, List.length_cons]
    omega
  | fxProcess =>
    simp only [lengthByOpcode] at hl
    obtain ⟨-, hf⟩ := wordsOf_framesOf (fieldB w).toNat ops (by omega)
    simp only [buildInstr, encode, List.length_cons, wordsOf_length, hf]
    omega
  | _ => rw [hl]; rfl

/-- A decoded command takes as many words as its encoding has (rule R110). -/
theorem cmdLen_of_decode {ws rest : List Word} {i : Instr} (h : decode ws = .command i rest) :
    cmdLen (ws.headD 0) = (encode i).length := by
  cases ws with
  | nil => cases h
  | cons w ws =>
    rw [decode] at h
    split at h
    · cases h
    · next ops tail hs =>
      obtain ⟨-, hops⟩ := splitWords_some hs
      unfold decodeCommand at h
      split at h
      · cases h
      · next o ho =>
        split at h
        · cases h; exact (encode_buildInstr_length ho hops).symm
        · cases h

end Sys2Proof

namespace Sys2Proof.Machine

open Sys2Proof.Spec

/-! ### Obligation O6 -/

/-- The step of a port that goes next and holds a command is the command's meaning (rules R41, R111). -/
theorem step_of_command {s : State} {p : Port} {i : Instr} {rest : List Word} (hc : configWf s.cfg = true)
    (hp : nextPort s = some p) (hd : decode (getPort p s).pending = .command i rest) :
    step s = exec i
      { setPort p ⟨rest, (getPort p s).cp + (encode i).length, (getPort p s).resp⟩ s with issuer := p } := by
  rw [step_of_fetch hc, fetch_command hp hd, ← cmdLen_of_decode hd]
  rfl

/-- Settles O6: the port that goes next (`nextPort_rx` and its like), then `step_of_command`. -/
theorem stepRunsTheDecodedCommand : Obligations.StepRunsTheDecodedCommand := by
  intro s i rest hc
  refine ⟨fun hrx => ?_, fun hrx htx => ?_, fun hrx htx hctl => ?_⟩
  · exact step_of_command hc (nextPort_rx (by simp [hrx])) hrx
  · exact step_of_command hc (nextPort_tx hrx (by simp [htx])) htx
  · exact step_of_command hc (nextPort_ctl hrx htx (by simp [hctl])) hctl

/-! ### Obligations O9 and O10 -/

/-- Settles O9: no port has a whole command, so the step takes the reset arrival. -/
theorem resetEventRestoresResetValues : Obligations.ResetEventRestoresResetValues := by
  intro s rest hc hrx htx hctl harr
  have hnext : nextArrival s = resetEvent { s with arrivals := rest } := by rw [nextArrival, harr]; rfl
  rw [step_of_fetch hc, fetch_none (nextPort_none.mpr ⟨hrx, htx, hctl⟩), hnext]
  rfl

/-- Settles O10: GR_DENSITY and GR_LEN fit their registers in a well-formed build; the other values are as written. -/
theorem resetValuesOfRuleR61 : Obligations.ResetValuesOfRuleR61 := by
  intro c hc
  refine ⟨⟨rfl, rfl, rfl, rfl, rfl, rfl⟩, ⟨rfl, rfl, rfl, rfl⟩, rfl, rfl, rfl, rfl, rfl, rfl,
    ⟨rfl, rfl, rfl, rfl, rfl, rfl⟩, rfl, rfl, ?_, ?_, rfl, rfl⟩
  · exact resetGranular_density hc
  · exact resetGranular_grainLen hc

/-! ### Obligation O22 -/

/-- The size of a sound ring is its live count (rule R43). -/
theorem ringSize_eq_liveCount {n : Nat} {r : Ring} (h : RingWf n r) : ringSize n r = liveCount n r := ringSize_eq h

theorem ringFree_eq_liveCount {n : Nat} {r : Ring} (h : RingWf n r) : ringFree n r = n - 1 - liveCount n r := by
  rw [ringFree, ringSize_eq_liveCount h]

/-- An OK answer, as the statements write it. -/
theorem respond_ok (data : List Word) (s : State) :
    respond .ok 0 data s = answered s.issuer (0x00000000 :: data) s := by
  rw [respond_eq_answered, statusWord_ok]

/-- Settles O22: both queries are permitted, and answer `ringSize` and `ringFree`. -/
theorem sizeAndFreeReportTheIndices : Obligations.SizeAndFreeReportTheIndices := by
  intro s r hw hport
  have hq := mayQuery_iff.mpr hport
  constructor
  · rw [← ringSize_eq_liveCount hw, ← respond_ok]
    exact if_pos hq
  · rw [← ringFree_eq_liveCount hw, ← respond_ok]
    exact if_pos hq

/-! ### Obligation O32 -/

section SetParam
variable (ident : Octet) (v : S16)

/-- FX_SET_PARAM from CTL writes the built variant's register and answers OK (rules R169, R170). -/
theorem exec_fxSetParam {s : State} (h : s.issuer = .ctl) :
    exec (.fxSetParam ident v) s = .next (answered .ctl [0x00000000] (setParam ident v s)) := by
  have hi : (setParam ident v s).issuer = .ctl := by rw [setParam_frame]; exact h
  rw [← hi, ← respond_ok]
  exact if_pos (mayControl_iff.mpr h)

theorem setParam_reverb {s : State} (h : s.cfg.activeFx = .reverb) :
    setParam ident v s = { s with reverb := reverbSetParam ident v s.reverb } := by simp [setParam, h]

theorem setParam_granular {s : State} (h : s.cfg.activeFx = .granular) :
    setParam ident v s = { s with granular := granularSetParam s.cfg ident v s.granular } := by simp [setParam, h]

/-- The register each identifier names in a REVERB build (rules R48, R169). -/
theorem reverbSetParam_register (rv : ReverbState) :
    (ident.toNat = 0 → reverbSetParam ident v rv = { rv with dry := v }) ∧
    (ident.toNat = 1 → reverbSetParam ident v rv = { rv with wet := v }) ∧
    (ident.toNat = 2 → reverbSetParam ident v rv = { rv with damp := v }) ∧
    (ident.toNat = 3 → reverbSetParam ident v rv = { rv with apg := v }) ∧
    (ident.toNat = 4 → reverbSetParam ident v rv = { rv with master := v }) ∧
    (5 ≤ ident.toNat → reverbSetParam ident v rv = rv) := by
  simp only [reverbSetParam, ← BitVec.toNat_inj, BitVec.toNat_ofNat]
  refine ⟨?_, ?_, ?_, ?_, ?_, ?_⟩ <;> intro h
  · simp [h]
  · simp [h]
  · simp [h]
  · simp [h]
  · simp [h]
  · rw [if_neg, if_neg, if_neg, if_neg, if_neg] <;> omega

/-- The register each identifier names in a GRANULAR build, with its clamp (rules R53, R169). -/
theorem granularSetParam_register {c : Config} (hc : 1 ≤ c.capLen) (g : GranularState) :
    (ident.toNat = 0 → granularSetParam c ident v g = { g with dry := v }) ∧
    (ident.toNat = 1 → granularSetParam c ident v g = { g with wet := v }) ∧
    (ident.toNat = 2 → ∃ d : S16, d.toInt = min 8 (max 1 v.toInt) ∧
      granularSetParam c ident v g = { g with density := d }) ∧
    (ident.toNat = 3 → ∃ l : S16, l.toInt = min (c.capLen : Int) (max 1 v.toInt) ∧
      granularSetParam c ident v g = { g with grainLen := l }) ∧
    (4 ≤ ident.toNat → granularSetParam c ident v g = g) := by
  simp only [granularSetParam, ← BitVec.toNat_inj, BitVec.toNat_ofNat]
  refine ⟨?_, ?_, ?_, ?_, ?_⟩ <;> intro h
  · simp [h]
  · simp [h]
  · exact ⟨_, clampParam (by decide) v, by simp [h]⟩
  · exact ⟨_, clampParam (by omega) v, by simp [h]⟩
  · rw [if_neg, if_neg, if_neg, if_neg] <;> omega

end SetParam

/-- Settles O32: `exec_fxSetParam`, and the register by the identifier in either build. -/
theorem setParamWritesOneRegister : Obligations.SetParamWritesOneRegister := by
  intro s ident v hctl hcap
  refine ⟨fun hv => ?_, fun hv => ?_⟩
  · refine ⟨reverbSetParam ident v s.reverb, ?_, reverbSetParam_register ident v s.reverb⟩
    rw [exec_fxSetParam ident v hctl, setParam_reverb ident v hv]
  · refine ⟨granularSetParam s.cfg ident v s.granular, ?_, granularSetParam_register ident v hcap s.granular⟩
    rw [exec_fxSetParam ident v hctl, setParam_granular ident v hv]

end Sys2Proof.Machine
end

section
/-! SUPPORT. A query is a bound until its owner's next command (rule R91): a push only adds to the live count of a ring,
a pop only takes from it, and each is its owner's alone. -/

namespace Sys2Proof.Machine

open Sys2Proof.Spec

/-! ### One ring replaced -/

section Replace
variable (r : RingSel) (q : Ring) (s : State)

@[simp] theorem getRing_setRing_same : getRing r (setRing r q s) = q := by cases r <;> rfl

theorem getRing_setRing_other {a : RingSel} (h : a ≠ r) : getRing a (setRing r q s) = getRing a s := by
  cases r with
  | ringIn =>
    cases a with
    | ringIn => exact absurd rfl h
    | ringOut => rfl
  | ringOut =>
    cases a with
    | ringIn => rfl
    | ringOut => exact absurd rfl h
end Replace

/-! ### The live count after a push and after a pop (rules R43, R130, R131) -/

section Count
variable {n : Nat} {r q : Ring} {ws : List Word}

theorem liveCount_le_of_ringPush (hw : RingWf n r) (h : ringPush n r ws = some q) :
    liveCount n r ≤ liveCount n q := by
  rw [← ringSize_eq_liveCount hw, ← ringSize_eq_liveCount (ringPush_keeps_wf hw h), ringPush_size hw h]
  exact Nat.le_add_right ..

theorem liveCount_le_of_ringPop {k : Nat} (hw : RingWf n r) (h : ringPop n r k = some (ws, q)) :
    liveCount n q ≤ liveCount n r := by
  rw [← ringSize_eq_liveCount hw, ← ringSize_eq_liveCount (ringPop_keeps_wf hw h), ringPop_size hw h]
  exact Nat.sub_le ..
end Count

/-! ### The bounds of the other ports -/

/-- What decides every ring query: the build and the two rings (rules R43, R134, R135). -/
def ringState (s : State) : Config × Ring × Ring := (s.cfg, s.ringIn, s.ringOut)

/-- From s to u, port p has left the rings sound, and moved the live count of no ring against an owner other than p:
not up where another port produces, not down where another port consumes. -/
structure KeepsBounds (p : Port) (s u : State) : Prop where
  cfg : u.cfg = s.cfg
  sound : ∀ r, RingWf s.cfg.ringN (getRing r u)
  space : ∀ r, p ≠ producer r → liveCount s.cfg.ringN (getRing r u) ≤ liveCount s.cfg.ringN (getRing r s)
  data : ∀ r, p ≠ consumer r → liveCount s.cfg.ringN (getRing r s) ≤ liveCount s.cfg.ringN (getRing r u)

namespace KeepsBounds
variable {p : Port} {s u : State}

theorem refl (p : Port) (h : WellFormedState s) : KeepsBounds p s s where
  cfg := rfl
  sound := getRing_wf h
  space _ _ := le_refl _
  data _ _ := le_refl _

theorem of_ringState_eq {v : State} (h : KeepsBounds p s u) (hv : ringState v = ringState u) : KeepsBounds p s v := by
  obtain ⟨hcfg, hin, hout⟩ : v.cfg = u.cfg ∧ v.ringIn = u.ringIn ∧ v.ringOut = u.ringOut := by
    simpa only [ringState, Prod.mk.injEq] using hv
  have hring : ∀ r, getRing r v = getRing r u := by
    intro r
    cases r
    · exact hin
    · exact hout
  constructor
  case cfg => exact hcfg.trans h.cfg
  all_goals simp only [hring]
  case sound => exact h.sound
  case space => exact h.space
  case data => exact h.data

/-- One ring replaced by a sound one whose live count has moved against no owner but p. -/
theorem setRing {r : RingSel} {q : Ring} (h : KeepsBounds p s u) (hq : RingWf s.cfg.ringN q)
    (hspace : p ≠ producer r → liveCount s.cfg.ringN q ≤ liveCount s.cfg.ringN (getRing r u))
    (hdata : p ≠ consumer r → liveCount s.cfg.ringN (getRing r u) ≤ liveCount s.cfg.ringN q) :
    KeepsBounds p s (setRing r q u) := by
  refine ⟨(setRing_cfg ..).trans h.cfg, fun a => ?_, fun a ha => ?_, fun a ha => ?_⟩ <;>
    obtain rfl | hne := eq_or_ne a r
  · rwa [getRing_setRing_same]
  · rw [getRing_setRing_other _ _ _ hne]; exact h.sound a
  · rw [getRing_setRing_same]; exact (hspace ha).trans (h.space a ha)
  · rw [getRing_setRing_other _ _ _ hne]; exact h.space a ha
  · rw [getRing_setRing_same]; exact (h.data a ha).trans (hdata ha)
  · rw [getRing_setRing_other _ _ _ hne]; exact h.data a ha

/-- The producer's push moves the live count up (rule R130). -/
theorem push {r : RingSel} {ws : List Word} {q : Ring} (h : KeepsBounds p s u) (hp : p = producer r)
    (hq : ringPush u.cfg.ringN (getRing r u) ws = some q) : KeepsBounds p s (Machine.setRing r q u) := by
  rw [h.cfg] at hq
  exact h.setRing (ringPush_keeps_wf (h.sound r) hq) (absurd hp) fun _ => liveCount_le_of_ringPush (h.sound r) hq

/-- The consumer's pop moves the live count down (rule R131). -/
theorem pop {r : RingSel} {k : Nat} {ws : List Word} {q : Ring} (h : KeepsBounds p s u) (hp : p = consumer r)
    (hq : ringPop u.cfg.ringN (getRing r u) k = some (ws, q)) : KeepsBounds p s (Machine.setRing r q u) := by
  rw [h.cfg] at hq
  exact h.setRing (ringPop_keeps_wf (h.sound r) hq) (fun _ => liveCount_le_of_ringPop (h.sound r) hq) (absurd hp)

end KeepsBounds

/-! ### Every command -/

section Engine
variable (s : State)

theorem ringState_setFormat (d : Octet) (rate : BitVec 32) : ringState (setFormat d rate s) = ringState s := by
  simp [ringState]

theorem ringState_setEnabled (e : Bool) : ringState (setEnabled e s) = ringState s := by simp [ringState]

theorem ringState_setParam (ident : Octet) (v : S16) : ringState (setParam ident v s) = ringState s := by
  rw [setParam_frame]; rfl

theorem ringState_initEffect : ringState (initEffect s).1 = ringState s := by rw [initEffect_frame]; rfl

theorem ringState_fxBlock (fs : List Frame) : ringState (fxBlock s fs).1 = ringState s := by rw [fxBlock_frame]; rfl

end Engine

/-- CTL runs the task, and CTL consumes IN and produces OUT (rules R44, R274, R276). -/
theorem taskClosed_keepsBounds (s : State) : TaskClosed (KeepsBounds .ctl s) where
  rate _ _ h := h.of_ringState_eq rfl
  format _ _ _ h := h.of_ringState_eq (ringState_setFormat ..)
  init _ h := h.of_ringState_eq (ringState_initEffect _)
  enabled _ _ h := h.of_ringState_eq (ringState_setEnabled ..)
  pop _ _ _ _ popped h := h.pop (r := .ringIn) rfl popped
  block _ _ h := h.of_ringState_eq (ringState_fxBlock ..)
  push _ _ _ pushed h := h.push (r := .ringOut) rfl pushed

/-- TX consumes OUT (rules R44, R281). -/
theorem tick_keepsBounds {s : State} (h : WellFormedState s) (issuer : s.issuer = .tx) :
    KeepsBounds s.issuer s { s with acc := tickAcc s, ringOut := (tickPop s).2 } := by
  have hs := KeepsBounds.refl s.issuer h
  cases hpop : ringPop s.cfg.ringN s.ringOut (2 * tickAvailable s) with
  | none => exact hs.of_ringState_eq (by rw [tickPop, hpop]; rfl)
  | some popped => exact (hs.pop (r := .ringOut) issuer hpop).of_ringState_eq (by rw [tickPop, hpop]; rfl)

theorem CommandEffect.keepsBounds {i : Instr} {s u : State} (he : CommandEffect s i u) (h : WellFormedState s) :
    KeepsBounds s.issuer s u := by
  have hs := KeepsBounds.refl s.issuer h
  cases he with
  | unchanged => exact hs
  | push issuer pushed => exact hs.push issuer pushed
  | pop issuer popped => exact hs.pop issuer popped
  | init => exact hs.of_ringState_eq (ringState_initEffect s)
  | format => exact hs.of_ringState_eq (ringState_setFormat ..)
  | enabled => exact hs.of_ringState_eq (ringState_setEnabled ..)
  | param => exact hs.of_ringState_eq (ringState_setParam ..)
  | process => exact hs.of_ringState_eq (ringState_fxBlock ..)
  | task issuer => rw [issuer] at hs ⊢; exact (taskClosed_keepsBounds s).taskEffect hs
  | tick issuer => exact tick_keepsBounds h issuer

/-! ### Obligation O16 -/

/-- Settles O16: the effect of a command moves no live count against another owner (`CommandEffect.keepsBounds`), its
answer moves none, and the free space is what the live count leaves. -/
theorem otherPortsNeverShrinkWhatAnOwnerSees : Obligations.OtherPortsNeverShrinkWhatAnOwnerSees := by
  intro i s t r hw h
  obtain ⟨st, info, data, u, hu, rfl⟩ := exec_effect h
  have hb := hu.keepsBounds hw
  rw [getRing_respond]
  exact ⟨fun hne => Nat.sub_le_sub_left (hb.space r hne) _, hb.data r⟩

end Sys2Proof.Machine
end

section
/-! SUPPORT. The decoder and the encoder as inverses (rules R100 to R112): which command words are legal, what decoding
does with each kind, and which words stand for which command. -/

namespace Sys2Proof

/-! ### The fields of a command word -/

/-- A[7:1] as a field of the word and as a part of A (rule R101). -/
theorem highA_eq (w : Word) : w.extractLsb' 17 7 = (fieldA w).extractLsb' 1 7 := by
  rw [← highA_commandWord (fieldOpc w) (fieldA w) (fieldB w), commandWord_fields]

theorem fieldBit_eq (w : Word) : fieldBit w = (fieldA w)[0] := by
  rw [← fieldBit_commandWord (fieldOpc w) (fieldA w) (fieldB w), commandWord_fields]

/-- A[7:1] = 0 exactly where the operand A is its bit A[0] (formats FQ, FR, FE). -/
theorem highA_eq_zero_iff {w : Word} : w.extractLsb' 17 7 = 0 ↔ octetOfBit (fieldBit w) = fieldA w := by
  rw [highA_eq, fieldBit_eq]
  exact ⟨octetOfBit_of_high _, fun h => h ▸ octetOfBit_high _⟩

/-- A command word is its opcode's value, A and B put together (rules R100, R107). -/
theorem commandWord_of_opcode {w : Word} {o : Opcode} (h : opcodeOf (fieldOpc w) = some o) :
    commandWord (opcodeValue o) (fieldA w) (fieldB w) = w := by
  rw [opcodeValue_of_opcodeOf _ _ h, commandWord_fields]

/-! ### The command that a command word and its operand words stand for -/

/-- The words w :: ops stand for command i of opcode o: the opcode is assigned, the "must be 0" fields are 0, and the
operands are those of i (rules R101, R107, R108). -/
structure StandsFor (w : Word) (ops : List Word) (o : Opcode) (i : Instr) : Prop where
  opcode : opcodeOf (fieldOpc w) = some o
  reserved : reservedZero (formatOf o) w = true
  built : buildInstr o w ops = i

/-- A command word that rule R107 assigns, its "must be 0" fields 0 (rule R112). -/
def LegalWord (w : Word) : Prop := ∃ o, opcodeOf (fieldOpc w) = some o ∧ reservedZero (formatOf o) w = true

theorem decodeCommand_command {w : Word} {ops rest rest' : List Word} {i : Instr} :
    decodeCommand w ops rest = .command i rest' ↔ rest' = rest ∧ ∃ o, StandsFor w ops o i := by
  constructor
  · intro h
    unfold decodeCommand at h
    split at h
    · cases h
    · next o ho =>
      split at h
      · next hz => cases h; exact ⟨rfl, o, ho, hz, rfl⟩
      · cases h
  · rintro ⟨rfl, o, ho, hz, rfl⟩
    simp [decodeCommand, ho, hz]

/-- Every other command word is ILLEGAL (rules R111, R112). -/
theorem decodeCommand_illegal {w : Word} (h : ¬ LegalWord w) (ops rest : List Word) :
    ∃ why, decodeCommand w ops rest = .illegal why rest := by
  cases ho : opcodeOf (fieldOpc w) with
  | none => exact ⟨.unassignedOpcode, by simp [decodeCommand, ho]⟩
  | some o =>
    have hz : reservedZero (formatOf o) w = false := by
      by_contra hz
      exact h ⟨o, ho, by simpa using hz⟩
    exact ⟨.reservedFieldNonZero, by simp [decodeCommand, ho, hz]⟩

/-! ### Decoding, by the command word (rule R111) -/

/-- The decoder waits exactly while words of the command are missing (rule R110). -/
theorem decode_incomplete_iff {w : Word} {ws : List Word} :
    decode (w :: ws) = .incomplete ↔ ws.length + 1 < cmdLen w := by
  have hpos := cmdLen_pos w
  rw [← Nat.lt_sub_iff_add_lt, ← splitWords_none, decode]
  cases splitWords (cmdLen w - 1) ws with
  | none => simp
  | some split =>
    simp only [reduceCtorEq, iff_false]
    unfold decodeCommand
    split
    · simp
    · split <;> simp

/-- With all its words there, the command is decided by its command word and those words. -/
theorem decode_of_le {w : Word} {ws : List Word} (h : cmdLen w ≤ ws.length + 1) :
    decode (w :: ws) = decodeCommand w (ws.take (cmdLen w - 1)) (ws.drop (cmdLen w - 1)) := by
  rw [← decode_cons w _ (ws.drop (cmdLen w - 1)) (by rw [List.length_take]; omega), List.take_append_drop]

theorem decode_of_standsFor {w : Word} {ops : List Word} {o : Opcode} {i : Instr} (h : StandsFor w ops o i)
    (hl : ops.length + 1 = cmdLen w) (rest : List Word) : decode (w :: (ops ++ rest)) = .command i rest := by
  rw [decode_cons w ops rest (by omega)]
  exact decodeCommand_command.mpr ⟨rfl, o, h⟩

theorem decode_of_not_legal {w : Word} {ops : List Word} (h : ¬ LegalWord w) (hl : ops.length + 1 = cmdLen w)
    (rest : List Word) : ∃ why, decode (w :: (ops ++ rest)) = .illegal why rest := by
  rw [decode_cons w ops rest (by omega)]
  exact decodeCommand_illegal h ops rest

/-- What decodes to a command stands for it, and what follows is left. -/
theorem standsFor_of_decode {ws rest : List Word} {i : Instr} (h : decode ws = .command i rest) :
    ∃ w ops o, ws = w :: (ops ++ rest) ∧ ops.length + 1 = cmdLen w ∧ StandsFor w ops o i := by
  cases ws with
  | nil => cases h
  | cons w ws =>
    have hpos := cmdLen_pos w
    have hle : cmdLen w ≤ ws.length + 1 := by
      by_contra hlt
      rw [decode_incomplete_iff.mpr (by omega)] at h
      cases h
    rw [decode_of_le hle] at h
    obtain ⟨rfl, o, hi⟩ := decodeCommand_command.mp h
    refine ⟨w, _, o, by rw [List.take_append_drop], ?_, hi⟩
    rw [List.length_take]
    omega

/-! ### The encoder against the decoder -/

theorem encode_length {i : Instr} (h : i.WellFormed) : (encode i).length = cmdLen ((encode i).headD 0) := by
  cases i with
  | rbPush r data => exact Laws.EncodeLength.rbPush r data h
  | rbPop r n => exact Laws.EncodeLength.rbPop r n h
  | rbSize r => exact Laws.EncodeLength.rbSize r h
  | rbFree r => exact Laws.EncodeLength.rbFree r h
  | fxName => exact Laws.EncodeLength.fxName h
  | fxInit => exact Laws.EncodeLength.fxInit h
  | fxSetFormat d rate => exact Laws.EncodeLength.fxSetFormat d rate h
  | fxSetEnabled e => exact Laws.EncodeLength.fxSetEnabled e h
  | fxSetParam ident v => exact Laws.EncodeLength.fxSetParam ident v h
  | fxProcess frames => exact Laws.EncodeLength.fxProcess frames h
  | taskStep => exact Laws.EncodeLength.taskStep h
  | sofTick => exact Laws.EncodeLength.sofTick h

/-- The opcode of a command (rule R107). -/
def Instr.opcode : Instr → Opcode
  | .rbPush _ _ => .rbPush
  | .rbPop _ _ => .rbPop
  | .rbSize _ => .rbSize
  | .rbFree _ => .rbFree
  | .fxName => .fxName
  | .fxInit => .fxInit
  | .fxSetFormat _ _ => .fxSetFormat
  | .fxSetEnabled _ => .fxSetEnabled
  | .fxSetParam _ _ => .fxSetParam
  | .fxProcess _ => .fxProcess
  | .taskStep => .taskStep
  | .sofTick => .sofTick

section Encoder
variable (i : Instr)

theorem encode_eq_cons : encode i = (encode i).headD 0 :: (encode i).tail := by cases i <;> rfl

theorem encode_opcode : opcodeOf (fieldOpc ((encode i).headD 0)) = some i.opcode := by
  cases i <;> simp [encode, Instr.opcode]

theorem encode_reserved : reservedZero (formatOf i.opcode) ((encode i).headD 0) = true := by
  cases i <;> simp [encode, Instr.opcode, formatOf, reservedZero]

theorem buildInstr_encode : buildInstr i.opcode ((encode i).headD 0) (encode i).tail = i := by
  cases i <;> simp [encode, Instr.opcode, buildInstr]

/-- The words of a command stand for it: every operand is read back from the field it was put in (rules R101, R108). -/
theorem encode_standsFor : StandsFor ((encode i).headD 0) (encode i).tail i.opcode i :=
  ⟨encode_opcode i, encode_reserved i, buildInstr_encode i⟩

end Encoder

/-- Words that stand for a command, as many as its command word says, are its encoding (rules R101, R112). -/
theorem StandsFor.encode_eq {w : Word} {ops : List Word} {o : Opcode} {i : Instr} (h : StandsFor w ops o i)
    (hl : ops.length + 1 = cmdLen w) : encode i = w :: ops := by
  obtain ⟨ho, hz, rfl⟩ := h
  rw [cmdLen_of_opcode ho] at hl
  conv_rhs => rw [← commandWord_of_opcode ho]
  cases o with
  | rbPush =>
    have hA : octetOfBit (fieldBit w) = fieldA w := highA_eq_zero_iff.mp (by simpa [formatOf, reservedZero] using hz)
    have hB : ops.length = (fieldB w).toNat := by simp only [lengthByOpcode] at hl; omega
    simp [buildInstr, encode, hA, hB]
  | rbPop =>
    have hA : octetOfBit (fieldBit w) = fieldA w := highA_eq_zero_iff.mp (by simpa [formatOf, reservedZero] using hz)
    obtain rfl : ops = [] := by simpa [lengthByOpcode] using hl
    simp [buildInstr, encode, hA]
  | rbSize | rbFree | fxSetEnabled =>
    obtain ⟨hA, hB⟩ : octetOfBit (fieldBit w) = fieldA w ∧ fieldB w = 0 := by
      simpa [formatOf, reservedZero, ← highA_eq_zero_iff] using hz
    obtain rfl : ops = [] := by simpa [lengthByOpcode] using hl
    simp [buildInstr, encode, hA, hB]
  | fxSetFormat =>
    have hB : fieldB w = 0 := by simpa [formatOf, reservedZero] using hz
    obtain ⟨rate, rfl⟩ : ∃ rate, ops = [rate] := by simpa [lengthByOpcode, List.length_eq_one_iff] using hl
    simp [buildInstr, encode, hB]
  | fxSetParam =>
    obtain rfl : ops = [] := by simpa [lengthByOpcode] using hl
    simp [buildInstr, encode]
  | fxProcess =>
    have hA : fieldA w = 0 := by simpa [formatOf, reservedZero] using hz
    obtain ⟨hwords, hcount⟩ := wordsOf_framesOf (fieldB w).toNat ops (by simp only [lengthByOpcode] at hl; omega)
    simp [buildInstr, encode, hA, hwords, hcount]
  | fxName | fxInit | taskStep | sofTick =>
    obtain ⟨hA, hB⟩ : fieldA w = 0 ∧ fieldB w = 0 := by simpa [formatOf, reservedZero] using hz
    obtain rfl : ops = [] := by simpa [lengthByOpcode] using hl
    simp [buildInstr, encode, hA, hB]

/-- The count of a command read from its words fits B (rules R108, R109). -/
theorem StandsFor.wellFormed {w : Word} {ops : List Word} {o : Opcode} {i : Instr} (h : StandsFor w ops o i)
    (hl : ops.length + 1 = cmdLen w) : i.WellFormed := by
  obtain ⟨ho, -, rfl⟩ := h
  have hB := (fieldB w).isLt
  rw [cmdLen_of_opcode ho] at hl
  cases o with
  | rbPush =>
    simp only [lengthByOpcode] at hl
    simp only [buildInstr, Instr.WellFormed]
    omega
  | fxProcess =>
    simp only [lengthByOpcode] at hl
    obtain ⟨-, hf⟩ := wordsOf_framesOf (fieldB w).toNat ops (by omega)
    simp only [buildInstr, Instr.WellFormed]
    omega
  | _ => trivial

/-! ### Obligations O1, O2 and O3 -/

/-- Settles O1: the words of the command stand for it, and they are as many as its command word says. -/
theorem decodeOfEncodeIsTheCommand : Obligations.DecodeOfEncodeIsTheCommand := by
  intro i rest hw
  have hl := encode_length hw
  rw [encode_eq_cons i] at hl ⊢
  exact decode_of_standsFor (encode_standsFor i) hl rest

/-- Settles O2: what decodes stands for the command, and so is its encoding. -/
theorem encodeOfDecodeIsTheWords : Obligations.EncodeOfDecodeIsTheWords := by
  intro ws rest i h
  obtain ⟨w, ops, o, rfl, hl, hi⟩ := standsFor_of_decode h
  exact ⟨hi.wellFormed hl, by rw [hi.encode_eq hl, List.cons_append]⟩

/-- A command whose words are ws decodes from them (O1, with nothing after it). -/
theorem decode_of_encode_eq {i : Instr} {ws : List Word} (hw : i.WellFormed) (h : encode i = ws) :
    encode i = ws ∧ decode ws = .command i [] :=
  ⟨h, by rw [← h, ← List.append_nil (encode i)]; exact decodeOfEncodeIsTheCommand i [] hw⟩

/-- Settles O3: the five words are evaluated, and decoding them is O1. -/
theorem exampleWordsOfRuleR116 : Obligations.ExampleWordsOfRuleR116 :=
  ⟨decode_of_encode_eq trivial (by decide), decode_of_encode_eq (by decide) (by decide),
    decode_of_encode_eq trivial (by decide), decode_of_encode_eq trivial (by decide),
    decode_of_encode_eq trivial (by decide)⟩

end Sys2Proof
end

section
/-! SUPPORT. The opcode table of rule R107 as match and mask, the length of a command by its opcode, and the step of an
illegal command. -/

namespace Sys2Proof

open Sys2Proof.Spec

/-! ### Match and mask of a row, by opcode and format (rules R101, R107) -/

/-- The bits of A that a format says must be 0 (rule R101). -/
def mustBeZeroA : Format → Octet
  | .f0 | .fd => 0xFF
  | .fq | .fr | .fe => 0xFE
  | .fp | .ff => 0

/-- The bits of B that a format says must be 0 (rule R101). -/
def mustBeZeroB : Format → BitVec 16
  | .f0 | .fq | .fe | .ff => 0xFFFF
  | .fr | .fp | .fd => 0

/-- The row of an opcode: its value against OPC, and 0 against the "must be 0" fields. -/
def rowOf (o : Opcode) : Word × Word :=
  (commandWord (opcodeValue o) 0 0, commandWord 0xFF#8 (mustBeZeroA (formatOf o)) (mustBeZeroB (formatOf o)))

/-- The opcodes, in the order of rule R107. -/
def opcodesInOrder : List Opcode :=
  [.rbPush, .rbPop, .rbSize, .rbFree, .fxName, .fxInit, .fxSetFormat, .fxSetEnabled, .fxSetParam, .fxProcess, .taskStep,
    .sofTick]

theorem mem_opcodesInOrder (o : Opcode) : o ∈ opcodesInOrder := by cases o <;> decide

/-- Each row of the table is its opcode's. -/
theorem opcodeRows_eq : opcodeRows = opcodesInOrder.map rowOf := by decide

theorem mem_opcodeRows_iff {row : Word × Word} : row ∈ opcodeRows ↔ ∃ o, rowOf o = row := by
  simp [opcodeRows_eq, mem_opcodesInOrder]

theorem commandWord_and (o a o' a' : Octet) (b b' : BitVec 16) :
    commandWord o a b &&& commandWord o' a' b' = commandWord (o &&& o') (a &&& a') (b &&& b') := by
  apply BitVec.eq_of_getLsbD_eq
  intro i _
  simp only [BitVec.getLsbD_and, commandWord_getLsbD]
  split_ifs <;> rfl

theorem commandWord_inj {o a o' a' : Octet} {b b' : BitVec 16} :
    commandWord o a b = commandWord o' a' b' ↔ o = o' ∧ a = a' ∧ b = b' := by
  constructor
  · intro h
    have hO := congrArg fieldOpc h
    have hA := congrArg fieldA h
    have hB := congrArg fieldB h
    simp only [fieldOpc_commandWord, fieldA_commandWord, fieldB_commandWord] at hO hA hB
    exact ⟨hO, hA, hB⟩
  · rintro ⟨rfl, rfl, rfl⟩
    rfl

theorem highBits_eq_zero_iff_mask (a : Octet) : a.extractLsb' 1 7 = 0#7 ↔ a &&& 0xFE#8 = 0#8 := by
  revert a; decide

/-- The "must be 0" fields are 0 exactly where the masked fields are (rule R101). -/
theorem reservedZero_iff_mask (f : Format) (w : Word) :
    reservedZero f w = true ↔ fieldA w &&& mustBeZeroA f = 0 ∧ fieldB w &&& mustBeZeroB f = 0 := by
  have hA : fieldA w &&& 0xFF#8 = fieldA w := BitVec.and_allOnes
  have hB : fieldB w &&& 0xFFFF#16 = fieldB w := BitVec.and_allOnes
  have hhigh : w.extractLsb' 17 7 = 0#7 ↔ fieldA w &&& 0xFE#8 = 0#8 := by rw [highA_eq, highBits_eq_zero_iff_mask]
  cases f <;> simp [reservedZero, mustBeZeroA, mustBeZeroB, hA, hB, hhigh]

/-- A word matches the row of an opcode exactly where it has that opcode and its "must be 0" fields are 0. -/
theorem matches_rowOf_iff (o : Opcode) (w : Word) :
    w &&& (rowOf o).2 = (rowOf o).1 ↔ opcodeOf (fieldOpc w) = some o ∧ reservedZero (formatOf o) w = true := by
  have hopc : fieldOpc w &&& 0xFF#8 = fieldOpc w := BitVec.and_allOnes
  have hvalue : opcodeOf (fieldOpc w) = some o ↔ fieldOpc w = opcodeValue o :=
    ⟨fun h => (opcodeValue_of_opcodeOf _ _ h).symm, fun h => by rw [h, opcodeOf_opcodeValue]⟩
  conv_lhs => rw [← commandWord_fields w]
  rw [rowOf, commandWord_and, commandWord_inj, hopc, hvalue, reservedZero_iff_mask]

/-- The legal command words are those that match a row (rules R107, R112). -/
theorem legalWord_iff_row {w : Word} : LegalWord w ↔ ∃ row ∈ opcodeRows, w &&& row.2 = row.1 := by
  constructor
  · rintro ⟨o, ho⟩
    exact ⟨rowOf o, mem_opcodeRows_iff.mpr ⟨o, rfl⟩, (matches_rowOf_iff o w).mpr ho⟩
  · rintro ⟨row, hrow, hw⟩
    obtain ⟨o, rfl⟩ := mem_opcodeRows_iff.mp hrow
    exact ⟨o, (matches_rowOf_iff o w).mp hw⟩

theorem not_legalWord_of_no_row {w : Word} (h : ∀ row ∈ opcodeRows, w &&& row.2 ≠ row.1) : ¬ LegalWord w := by
  rw [legalWord_iff_row]
  rintro ⟨row, hrow, hw⟩
  exact h row hrow hw

/-! ### Obligation O4 -/

/-- Settles O4: legality is the opcode table's (`legalWord_iff_row`), and with the operand words there the command is
decided by its command word. -/
theorem legalWordsAreExactlyTheOpcodeTable : Obligations.LegalWordsAreExactlyTheOpcodeTable := by
  intro w ws hl
  rw [decode_of_le hl]
  refine ⟨fun hrow => ?_, fun hrow => decodeCommand_illegal (not_legalWord_of_no_row hrow) _ _⟩
  obtain ⟨o, ho, hz⟩ := legalWord_iff_row.mpr hrow
  exact ⟨_, _, decodeCommand_command.mpr ⟨rfl, o, ho, hz, rfl⟩⟩

/-! ### Obligation O5 -/

/-- OPC as the shifted word (rule R100). -/
theorem shiftRight_eq_iff (w : Word) (v : Octet) : w >>> 24 = v.setWidth 32 ↔ fieldOpc w = v := by
  have hw := w.isLt
  have hv := v.isLt
  simp only [← BitVec.toNat_inj, fieldOpc, BitVec.toNat_ushiftRight, BitVec.toNat_setWidth, BitVec.extractLsb'_toNat,
    Nat.shiftRight_eq_div_pow]
  omega

theorem fieldB_toNat (w : Word) : (fieldB w).toNat = w.toNat % 65536 := by
  simp [fieldB, BitVec.extractLsb'_toNat]

/-- Settles O5: the length by OPC and B, and the decoder's waiting by `decode_incomplete_iff`. -/
theorem commandLengthByOpcode : Obligations.CommandLengthByOpcode := by
  intro w
  rw [← fieldB_toNat]
  have hpush : w >>> 24 = 0x01 ↔ fieldOpc w = 0x01#8 := shiftRight_eq_iff w 0x01#8
  have hformat : w >>> 24 = 0x12 ↔ fieldOpc w = 0x12#8 := shiftRight_eq_iff w 0x12#8
  have hprocess : w >>> 24 = 0x15 ↔ fieldOpc w = 0x15#8 := shiftRight_eq_iff w 0x15#8
  simp only [ne_eq, hpush, hformat, hprocess, cmdLen]
  refine ⟨fun h => ?_, fun h => ?_, fun h => ?_, fun h1 h2 h3 => ?_, fun ws => decode_incomplete_iff⟩
  · simp [h]
  · simp [h]
  · simp [h]
  · simp [h1, h2, h3]

end Sys2Proof

namespace Sys2Proof.Machine

/-! ### Obligation O7 -/

/-- The step of a port that goes next and holds an illegal command (rules R41, R111, R302). -/
theorem step_of_illegal {s : State} {p : Port} {why : IllegalReason} {rest : List Word} (hc : configWf s.cfg = true)
    (hp : nextPort s = some p) (hd : decode (getPort p s).pending = .illegal why rest) :
    step s = .next { setPort p ⟨rest, (getPort p s).cp + cmdLen ((getPort p s).pending.headD 0),
      (getPort p s).resp ++ [0x00000002]⟩ s with issuer := p } := by
  rw [step_of_fetch hc, fetch_illegal hp hd]
  cases p <;> rfl

/-- Settles O7: words that match no row decode as illegal (O4), and `step_of_illegal` at the port that goes next. -/
theorem illegalCommandIsConsumedAndAnswered : Obligations.IllegalCommandIsConsumedAndAnswered := by
  intro s w ops rest hc hrow hl
  obtain ⟨why, hd⟩ := decode_of_not_legal (not_legalWord_of_no_row hrow) hl rest
  refine ⟨fun hrx => ?_, fun hrx htx => ?_, fun hrx htx hctl => ?_⟩
  · have hdec : decode s.rx.pending = .illegal why rest := hrx ▸ hd
    have hstep := step_of_illegal hc (nextPort_rx (by simp [hdec])) hdec
    rwa [getPort_rx, hrx] at hstep
  · have hdec : decode s.tx.pending = .illegal why rest := htx ▸ hd
    have hstep := step_of_illegal hc (nextPort_tx hrx (by simp [hdec])) hdec
    rwa [getPort_tx, htx] at hstep
  · have hdec : decode s.ctl.pending = .illegal why rest := hctl ▸ hd
    have hstep := step_of_illegal hc (nextPort_ctl hrx htx (by simp [hdec])) hdec
    rwa [getPort_ctl, hctl] at hstep

end Sys2Proof.Machine
end

section
/-! SUPPORT. What each command answers (rules R102, R103, R106, R107, R301): its permission, its status code and INFO,
its data words, and that it writes no port but for its answer. -/

namespace Sys2Proof.Machine

open Sys2Proof.Spec

/-! ### Permission (rule R106) -/

/-- The port check of a command, by the table each group of commands uses. -/
def permits : Instr → Port → Bool
  | .rbPush r _, p => mayPush p r
  | .rbPop r _, p => mayPop p r
  | .rbSize r, p => mayQuery p r
  | .rbFree r, p => mayQuery p r
  | .sofTick, p => mayTick p
  | _, p => mayControl p

theorem portsFor_rbPush (r : RingSel) (data : List Word) : portsFor (.rbPush r data) = [producer r] := by
  cases r <;> rfl

theorem portsFor_rbPop (r : RingSel) (n : BitVec 16) : portsFor (.rbPop r n) = [consumer r] := by cases r <;> rfl

theorem mem_portsFor_rbSize {p : Port} {r : RingSel} :
    p ∈ portsFor (.rbSize r) ↔ p = producer r ∨ p = consumer r := by
  cases r
  · exact List.mem_pair
  · exact List.mem_pair.trans or_comm

theorem portsFor_rbFree (r : RingSel) : portsFor (.rbFree r) = portsFor (.rbSize r) := by cases r <;> rfl

/-- The port check is the table's "yes" entries. -/
theorem permits_iff {i : Instr} {p : Port} : permits i p = true ↔ p ∈ portsFor i := by
  cases i with
  | rbPush r data => rw [portsFor_rbPush, List.mem_singleton]; exact mayPush_iff
  | rbPop r n => rw [portsFor_rbPop, List.mem_singleton]; exact mayPop_iff
  | rbSize r => exact mayQuery_iff.trans mem_portsFor_rbSize.symm
  | rbFree r => rw [portsFor_rbFree]; exact mayQuery_iff.trans mem_portsFor_rbSize.symm
  | sofTick => exact mayTick_iff.trans List.mem_singleton.symm
  | _ => exact mayControl_iff.trans List.mem_singleton.symm

/-- Every command begins with its port check (rule R111). -/
theorem exec_eq_ifPermitted (i : Instr) (s : State) : ∃ body, exec i s = ifPermitted (permits i s.issuer) s body := by
  cases i <;> exact ⟨_, rfl⟩

theorem statusWord_port : statusWord .port 0 = 0x00000003 := by decide

/-- Off the table a command answers PORT and does nothing else (rules R106, R111). -/
theorem exec_of_not_permitted {i : Instr} {s : State} (h : s.issuer ∉ portsFor i) :
    exec i s = .next (answered s.issuer [0x00000003] s) := by
  obtain ⟨body, hexec⟩ := exec_eq_ifPermitted i s
  have hp : permits i s.issuer = false := by rwa [← Bool.not_eq_true, permits_iff]
  rw [hexec, hp, ← statusWord_port, ← respond_eq_answered]
  rfl

/-! ### The framing of an answer -/

/-- What an answer of command i in state s may be: its codes, PORT only off the table, its INFO, its data words. -/
structure Framed (i : Instr) (s : State) (st : Status) (info : Octet) (data : List Word) : Prop where
  code : (statusCode st).toNat ∈ codesFor i
  port : st = .port → s.issuer ∉ portsFor i
  info : i ≠ .taskStep → i ≠ .sofTick → info = 0
  failed : st ≠ .ok → data = []
  count : st = .ok → data.length = okDataCount (data.headD 0) i

namespace Framed
variable {i : Instr} {s : State} {st : Status} {info : Octet} {data : List Word}

theorem port_of_not_permitted (h : s.issuer ∉ portsFor i) : Framed i s .port 0 [] where
  code := by cases i <;> simp [codesFor, statusCode]
  port _ := h
  info _ _ := rfl
  failed _ := rfl
  count hok := by cases hok

/-- An answer of a status word alone, where an OK has no data words. -/
theorem bare (hcode : (statusCode st).toNat ∈ codesFor i) (hport : st ≠ .port)
    (hinfo : i ≠ .taskStep → i ≠ .sofTick → info = 0) (hcount : st = .ok → okDataCount 0 i = 0) :
    Framed i s st info [] where
  code := hcode
  port h := absurd h hport
  info := hinfo
  failed _ := rfl
  count h := (hcount h).symm

theorem ok (hinfo : i ≠ .taskStep → i ≠ .sofTick → info = 0)
    (hcount : data.length = okDataCount (data.headD 0) i) : Framed i s .ok info data where
  code := by cases i <;> simp [codesFor, statusCode]
  port h := by cases h
  info := hinfo
  failed h := absurd rfl h
  count _ := hcount

end Framed

/-- The issuing port and the three ports. -/
def ports (s : State) : Port × PortState × PortState × PortState := (s.issuer, s.rx, s.tx, s.ctl)

/-- Command i in state s leaves t: a framed answer, in a state whose ports are as they were. -/
def FramedAnswer (i : Instr) (s t : State) : Prop :=
  ∃ (st : Status) (info : Octet) (data : List Word) (u : State),
    Framed i s st info data ∧ ports u = ports s ∧ t = respond st info data u

theorem FramedAnswer.of_respond {i : Instr} {s t u : State} {st : Status} {info : Octet} {data : List Word}
    (h : (.next (respond st info data u) : Result) = .next t) (hu : ports u = ports s) (hf : Framed i s st info data) :
    FramedAnswer i s t :=
  ⟨st, info, data, u, hf, hu, by cases h; rfl⟩

/-- A check of a permitted command that fails (rules R302, R306). -/
theorem FramedAnswer.of_reject {i : Instr} {s t : State} {st : Status} (h : (.next (reject st s) : Result) = .next t)
    (hcode : (statusCode st).toNat ∈ codesFor i) (hport : st ≠ .port) (hok : st ≠ .ok) : FramedAnswer i s t :=
  .of_respond h rfl (.bare hcode hport (fun _ _ => rfl) fun h => absurd h hok)

/-- A command not permitted answers PORT; so only the permitted case is left (rule R111). -/
theorem framedAnswer_of_ifPermitted {i : Instr} {s t : State} {body : Result}
    (h : ifPermitted (permits i s.issuer) s body = .next t) (hb : body = .next t → FramedAnswer i s t) :
    FramedAnswer i s t := by
  obtain ⟨-, hbody⟩ | ⟨hp, rfl⟩ := ifPermitted_next h
  · exact hb hbody
  · have hnot : s.issuer ∉ portsFor i := by rwa [← permits_iff, Bool.not_eq_true]
    exact .of_respond rfl rfl (.port_of_not_permitted hnot)

/-! ### The operations write no port -/

section Ports
variable (s : State)

theorem ports_setRing (r : RingSel) (q : Ring) : ports (setRing r q s) = ports s := by cases r <;> rfl

theorem ports_initEffect : ports (initEffect s).1 = ports s := by rw [initEffect_frame]; rfl

theorem ports_setFormat (d : Octet) (rate : BitVec 32) : ports (setFormat d rate s) = ports s := by simp [ports]

theorem ports_setEnabled (e : Bool) : ports (setEnabled e s) = ports s := by simp [ports]

theorem ports_setParam (ident : Octet) (v : S16) : ports (setParam ident v s) = ports s := by
  rw [setParam_frame]; rfl

theorem ports_fxBlock (fs : List Frame) : ports (fxBlock s fs).1 = ports s := by rw [fxBlock_frame]; rfl

theorem ports_taskEffect : ports (taskEffect s).state = ports s := by rw [taskEffect_frame]; rfl

end Ports

/-! ### The status of FX_INIT and TASK_STEP, and the data words of SOF_TICK -/

theorem initEffect_status (s : State) : (initEffect s).2 = .ok ∨ (initEffect s).2 = .fatal := by
  obtain ⟨-, -, -, h⟩ := initEffect_variant s
  exact h

/-- The statuses of a TASK_STEP that is permitted (rule R271). -/
def taskStatuses : List Status := [.ok, .capacity, .fatal, .notInit]

theorem taskRebuild_status (r : BitVec 32) (s : State) : (taskRebuild r s).2 ∈ taskStatuses := by
  unfold taskRebuild
  split
  · simp [taskStatuses]
  · obtain h | h := initEffect_status (setFormat s.cfgIn.bits r s) <;> simp [h, taskStatuses]

theorem taskQuantum_status (s : State) : (taskQuantum s).status ∈ taskStatuses := by
  unfold taskQuantum
  dsimp only
  split
  · simp [taskStatuses]
  · split <;> simp [taskStatuses]

theorem taskSteady_status (r : BitVec 32) (s : State) : (taskSteady r s).status ∈ taskStatuses := by
  unfold taskSteady
  split_ifs
  · simp [taskStatuses]
  · simp [taskStatuses]
  · simp [taskStatuses]
  · simp [taskStatuses]
  · exact taskQuantum_status s

theorem taskEffect_status (s : State) : (taskEffect s).status ∈ taskStatuses := by
  unfold taskEffect
  dsimp only
  split
  · exact taskRebuild_status ..
  · exact taskSteady_status ..

theorem tickPop_length (s : State) : (tickPop s).1.length = 2 * tickAvailable s := by
  have hle := tickAvailable_le s
  unfold tickPop
  split
  · next hnone =>
    by_contra hne
    rw [ringPop_isSome (by simp at hne; omega) hle] at hnone
    cases hnone
  · next popped hsome =>
    obtain ⟨-, -, hws, -⟩ := ringPop_some (ws := popped.1) (q := popped.2) hsome
    rw [hws, readCells_length]

theorem tickFill_length {k m : Nat} (h : m ≤ k) (ws : List Word) : (tickFill k m ws).length = 2 * (k - m) := by
  unfold tickFill
  split_ifs
  · exact repeatFrame_length ..
  · rw [repeatFrame_length]; omega
  · simp; omega

theorem tickFrames_lt (s : State) : tickFrames s < 2 ^ 32 := by
  have hacc := s.acc.isLt
  have hrate := s.curRate.isLt
  unfold tickFrames cadenceHz
  omega

/-- After K, 2K containers: those popped and the fill (rules R281, R282). -/
theorem tickData_length (s : State) :
    ((tickPop s).1 ++ tickFill (tickFrames s) (tickAvailable s) (tickPop s).1).length = 2 * tickFrames s := by
  have hle : tickAvailable s ≤ tickFrames s := min_le_left _ _
  rw [List.length_append, tickPop_length, tickFill_length hle]
  omega

/-! ### Every command -/

theorem exec_framedAnswer {i : Instr} {s t : State} (h : exec i s = .next t) : FramedAnswer i s t := by
  cases i with
  | rbPush r data =>
    refine framedAnswer_of_ifPermitted h fun hb => ?_
    split at hb
    · exact .of_reject hb (by simp [codesFor, statusCode]) nofun nofun
    · exact .of_respond hb (ports_setRing ..) (.ok (fun _ _ => rfl) rfl)
  | rbPop r n =>
    refine framedAnswer_of_ifPermitted h fun hb => ?_
    split at hb
    · exact .of_reject hb (by simp [codesFor, statusCode]) nofun nofun
    · next hq =>
      obtain ⟨-, -, hws, -⟩ := ringPop_some hq
      exact .of_respond hb (ports_setRing ..) (.ok (fun _ _ => rfl) (by rw [hws, readCells_length]; rfl))
  | rbSize r | rbFree r | fxName =>
    exact framedAnswer_of_ifPermitted h fun hb => .of_respond hb rfl (.ok (fun _ _ => rfl) rfl)
  | fxInit =>
    refine framedAnswer_of_ifPermitted h fun hb => .of_respond hb (ports_initEffect s) ?_
    obtain hst | hst := initEffect_status s
    · rw [hst]; exact .ok (fun _ _ => rfl) rfl
    · rw [hst]; exact .bare (by simp [codesFor, statusCode]) nofun (fun _ _ => rfl) nofun
  | fxSetFormat d rate =>
    refine framedAnswer_of_ifPermitted h fun hb => ?_
    split at hb
    · exact .of_reject hb (by simp [codesFor, statusCode]) nofun nofun
    · exact .of_respond hb (ports_setFormat ..) (.ok (fun _ _ => rfl) rfl)
  | fxSetEnabled e =>
    exact framedAnswer_of_ifPermitted h fun hb => .of_respond hb (ports_setEnabled ..) (.ok (fun _ _ => rfl) rfl)
  | fxSetParam ident v =>
    exact framedAnswer_of_ifPermitted h fun hb => .of_respond hb (ports_setParam ..) (.ok (fun _ _ => rfl) rfl)
  | fxProcess frames =>
    refine framedAnswer_of_ifPermitted h fun hb => ?_
    split at hb
    · exact .of_reject hb (by simp [codesFor, statusCode]) nofun nofun
    · split at hb
      · exact .of_reject hb (by simp [codesFor, statusCode]) nofun nofun
      · exact .of_respond hb (ports_fxBlock ..) (.ok (fun _ _ => rfl) (by rw [wordsOf_length, fxBlock_length]; rfl))
  | taskStep =>
    refine framedAnswer_of_ifPermitted h fun hb => .of_respond hb (ports_taskEffect s) ?_
    have hcodes : ∀ st ∈ taskStatuses, (statusCode st).toNat ∈ codesFor .taskStep ∧ st ≠ .port := by decide
    obtain ⟨hcode, hport⟩ := hcodes _ (taskEffect_status s)
    exact .bare hcode hport (fun hne => absurd rfl hne) fun _ => rfl
  | sofTick =>
    refine framedAnswer_of_ifPermitted h fun hb => .of_respond hb rfl (.ok (fun _ hne => absurd rfl hne) ?_)
    have hK : (BitVec.ofNat 32 (tickFrames s)).toNat = tickFrames s := Nat.mod_eq_of_lt (tickFrames_lt s)
    simp only [List.length_cons, tickData_length, List.headD_cons, okDataCount, hK]
    omega

/-- The response words of a framed answer, as the statements write them. -/
theorem FramedAnswer.resp {i : Instr} {s t : State} (h : FramedAnswer i s t) :
    ∃ (st : Status) (info : Octet) (data : List Word), Framed i s st info data ∧
      (∀ p, p ≠ s.issuer → getPort p t = getPort p s) ∧
      getPort s.issuer t = (getPort s.issuer s).emit (statusWord st info :: data) := by
  obtain ⟨st, info, data, u, hf, hu, rfl⟩ := h
  obtain ⟨hissuer, hrx, htx, hctl⟩ : u.issuer = s.issuer ∧ u.rx = s.rx ∧ u.tx = s.tx ∧ u.ctl = s.ctl := by
    simpa only [ports, Prod.mk.injEq] using hu
  have hport : ∀ p, getPort p u = getPort p s := by
    intro p
    cases p
    · exact hrx
    · exact htx
    · exact hctl
  refine ⟨st, info, data, hf, fun p hp => ?_, ?_⟩
  · rw [respond_getPort_other _ _ _ _ (hissuer ▸ hp), hport]
  · rw [← hissuer, respond_getPort_issuer, hport]

/-! ### Obligations O17 and O19 -/

/-- Settles O17: every answer is framed (`exec_framedAnswer`), and a status word's fields are what it was made of. -/
theorem responseFraming : Obligations.ResponseFraming := by
  intro i s t h
  obtain ⟨st, info, data, hf, hother, hissuer⟩ := (exec_framedAnswer h).resp
  refine ⟨hother, by rw [hissuer, emit_pending], by rw [hissuer, emit_cp],
    statusWord st info, data, by rw [hissuer, emit_resp], statusWord_high st info, ?_, ?_, ?_, ?_⟩
  · rw [statusWord_code]; exact hf.code
  · rw [statusWord_info]; exact hf.info
  · intro hne; exact hf.failed (by simpa using hne)
  · intro heq; exact hf.count (by simpa using heq)

theorem statusCode_eq_three {st : Status} : statusCode st = 3#8 ↔ st = .port := by cases st <;> decide

/-- Settles O19: `exec_of_not_permitted`, and a framed answer is PORT only off the table. -/
theorem portTableDecidesPermission : Obligations.PortTableDecidesPermission := by
  intro i s
  refine ⟨exec_of_not_permitted, fun hmem t status data h hresp hcode => ?_⟩
  obtain ⟨st, info, data', hf, -, hissuer⟩ := (exec_framedAnswer h).resp
  rw [hissuer, emit_resp, List.append_cancel_left_eq, List.cons.injEq] at hresp
  obtain ⟨rfl, -⟩ := hresp
  rw [statusWord_code] at hcode
  exact hf.port (statusCode_eq_three.mp hcode) hmem

end Sys2Proof.Machine
end

section
/-! SUPPORT. A ring as a queue (rules R43, R130, R131, R136 to R139): a push puts its words at the end of the live ones,
a pop takes its words from their front. Every statement about the contents of a ring goes through these two facts. -/

namespace Sys2Proof.Machine

open Sys2Proof.Spec

/-! ### Reading consecutive cells (rule R131) -/

section Cells
variable {n pos : Nat} {buf ws : List Word}

theorem readCells_add (i k : Nat) :
    readCells n buf pos (i + k) = readCells n buf pos i ++ readCells n buf (pos + i) k := by
  simp only [readCells, List.range_add, List.map_append, List.map_map, Function.comp_def, Nat.add_assoc]

theorem readCells_mod (k : Nat) : readCells n buf (pos % n) k = readCells n buf pos k := by
  simp only [readCells, Nat.mod_add_mod]

/-- What a push wrote is read back. -/
theorem readCells_writeCells (hb : buf.length = n) (hn : ws.length ≤ n) :
    readCells n (writeCells n buf pos ws) pos ws.length = ws := by
  refine List.ext_getElem (readCells_length ..) fun j _ hj => ?_
  have hcell := writeCells_written n buf pos ws hb hn j hj
  simp only [readCells, List.getElem_map, List.getElem_range, List.getD_eq_getElem?_getD, hcell,
    List.getElem?_eq_getElem hj, Option.getD_some]

/-- The k cells before the written ones read as they did: they are others as long as both fit the ring. -/
theorem readCells_writeCells_before {k : Nat} (hn : k + ws.length ≤ n) :
    readCells n (writeCells n buf ((pos + k) % n) ws) pos k = readCells n buf pos k := by
  refine List.map_congr_left fun j hj => ?_
  have hjk := List.mem_range.mp hj
  rw [List.getD_eq_getElem?_getD, List.getD_eq_getElem?_getD, writeCells_other]
  intro i hi
  rw [Nat.mod_add_mod, Nat.add_assoc]
  exact mod_ne_of_lt (by omega) (by omega)

end Cells

/-! ### The live words of a ring (rule R43) -/

section Live
variable {n k : Nat} {r q : Ring} {ws : List Word}

theorem live_eq_readCells (n : Nat) (r : Ring) : live n r = readCells n r.buf r.rd (liveCount n r) := rfl

@[simp] theorem live_length (n : Nat) (r : Ring) : (live n r).length = liveCount n r := by simp [live]

theorem live_of_empty (h : r.rd = r.wr) : live n r = [] := by simp [live, liveCount, h]

/-- The write index stands behind the live words. -/
theorem wr_eq_rd_add_liveCount (hw : RingWf n r) : r.wr = (r.rd + liveCount n r) % n := by
  obtain ⟨-, hrd, hwr⟩ := hw
  unfold liveCount
  split_ifs with hle
  · rw [Nat.add_sub_cancel' hle, Nat.mod_eq_of_lt hwr]
  · rw [Nat.add_sub_cancel' (by omega), Nat.add_mod_right, Nat.mod_eq_of_lt hwr]

theorem liveCount_of_ringPush (hw : RingWf n r) (h : ringPush n r ws = some q) :
    liveCount n q = liveCount n r + ws.length := by
  rw [← ringSize_eq_liveCount hw, ← ringSize_eq_liveCount (ringPush_keeps_wf hw h), ringPush_size hw h]

theorem liveCount_of_ringPop (hw : RingWf n r) (h : ringPop n r k = some (ws, q)) :
    liveCount n q = liveCount n r - k := by
  rw [← ringSize_eq_liveCount hw, ← ringSize_eq_liveCount (ringPop_keeps_wf hw h), ringPop_size hw h]

/-- Live words and pushed words fit the ring with a cell to spare. -/
theorem liveCount_add_lt_of_ringPush (hw : RingWf n r) (h : ringPush n r ws = some q) :
    liveCount n r + ws.length < n := by
  obtain ⟨hpos, hfree, -⟩ := ringPush_some h
  rw [ringFree_eq_liveCount hw] at hfree
  omega

/-- A push puts its words at the end of the live words (rule R130). -/
theorem live_of_ringPush (hw : RingWf n r) (h : ringPush n r ws = some q) : live n q = live n r ++ ws := by
  have hfit := liveCount_add_lt_of_ringPush hw h
  obtain ⟨-, -, hrd, -, hbuf⟩ := ringPush_some h
  have hold : readCells n q.buf r.rd (liveCount n r) = live n r := by
    rw [hbuf, wr_eq_rd_add_liveCount hw, readCells_writeCells_before hfit.le, ← live_eq_readCells]
  have hnew : readCells n q.buf (r.rd + liveCount n r) ws.length = ws := by
    rw [← readCells_mod, ← wr_eq_rd_add_liveCount hw, hbuf, readCells_writeCells hw.1 (by omega)]
  rw [live_eq_readCells, hrd, liveCount_of_ringPush hw h, readCells_add, hold, hnew]

/-- A pop takes its words from the front of the live words (rule R131). -/
theorem live_of_ringPop (hw : RingWf n r) (h : ringPop n r k = some (ws, q)) : live n r = ws ++ live n q := by
  obtain ⟨-, hk, hws, hbuf, -, hrd⟩ := ringPop_some h
  rw [ringSize_eq_liveCount hw] at hk
  rw [live_eq_readCells n q, liveCount_of_ringPop hw h, hbuf, hrd, readCells_mod, hws, ← readCells_add,
    Nat.add_sub_cancel' hk, live_eq_readCells]

theorem ringPop_length (h : ringPop n r k = some (ws, q)) : ws.length = k := by
  obtain ⟨-, -, hws, -⟩ := ringPop_some h
  rw [hws, readCells_length]

/-- The words popped are the k oldest of the live ones. -/
theorem ringPop_eq_take_live (hw : RingWf n r) (h : ringPop n r k = some (ws, q)) : ws = (live n r).take k := by
  rw [live_of_ringPop hw h, ← ringPop_length h, List.take_left]

end Live

/-! ### Obligation O24 -/

section Run
variable {n : Nat} {r q : Ring} {ws : List Word} {k : Nat} (ops : List RingOp)

theorem runRing_push_none (h : ringPush n r ws = none) : runRing n r (.push ws :: ops) = runRing n r ops := by
  simp only [runRing, h]

theorem runRing_push_some (h : ringPush n r ws = some q) :
    runRing n r (.push ws :: ops) =
      ((runRing n q ops).1, ws ++ (runRing n q ops).2.1, (runRing n q ops).2.2) := by
  simp only [runRing, h]

theorem runRing_pop_none (h : ringPop n r k = none) : runRing n r (.pop k :: ops) = runRing n r ops := by
  simp only [runRing, h]

theorem runRing_pop_some (h : ringPop n r k = some (ws, q)) :
    runRing n r (.pop k :: ops) =
      ((runRing n q ops).1, (runRing n q ops).2.1, ws ++ (runRing n q ops).2.2) := by
  simp only [runRing, h]

end Run

/-- Over any sequence of operations, popped followed by live is live followed by pushed (rule R136). -/
theorem popped_append_live {n : Nat} {r : Ring} (ops : List RingOp) (hw : RingWf n r) :
    (runRing n r ops).2.2 ++ live n (runRing n r ops).1 = live n r ++ (runRing n r ops).2.1 := by
  induction ops generalizing r with
  | nil => simp [runRing]
  | cons op ops ih =>
    cases op with
    | push ws =>
      cases h : ringPush n r ws with
      | none => rw [runRing_push_none ops h, ih hw]
      | some q =>
        rw [runRing_push_some ops h, ih (ringPush_keeps_wf hw h), live_of_ringPush hw h, List.append_assoc]
    | pop k =>
      cases h : ringPop n r k with
      | none => rw [runRing_pop_none ops h, ih hw]
      | some popped =>
        obtain ⟨ws, q⟩ := popped
        rw [runRing_pop_some ops h, live_of_ringPop hw h, List.append_assoc, List.append_assoc,
          ih (ringPop_keeps_wf hw h)]

/-- Settles O24: `popped_append_live`; from an empty ring, what was popped and then what is live is what was pushed. -/
theorem ringIsAFifo : Obligations.RingIsAFifo := by
  intro n r ops hw
  have hfifo := popped_append_live ops hw
  refine ⟨hfifo, fun hempty => ⟨live n (runRing n r ops).1, ?_⟩⟩
  rw [hfifo, live_of_empty hempty, List.nil_append]

/-! ### Obligation O25 -/

/-- Settles O25: the pushed words are the only live ones, so the pop takes exactly them. -/
theorem pushThenPopGivesTheWordsBack : Obligations.PushThenPopGivesTheWordsBack := by
  intro n k buf ws hw hpos hle
  have hnone : liveCount n ⟨buf, k, k⟩ = 0 := by simp [liveCount]
  have hpush := ringPush_isSome (r := ⟨buf, k, k⟩) hpos (by rw [ringFree_eq_liveCount hw, hnone]; exact hle)
  have hq := ringPush_keeps_wf hw hpush
  have hcount := liveCount_of_ringPush hw hpush
  rw [hnone, Nat.zero_add] at hcount
  have hpop := ringPop_isSome hpos (by rw [ringSize_eq_liveCount hq, hcount])
  have hwords := ringPop_eq_take_live hq hpop
  rw [live_of_ringPush hw hpush, live_of_empty rfl, List.nil_append, List.take_length] at hwords
  have hsize := ringPop_size hq hpop
  rw [ringSize_eq_liveCount hq, hcount, Nat.sub_self] at hsize
  rw [hwords] at hpop
  exact ⟨_, _, hpush, hpop, hsize, rfl, rfl⟩

/-! ### Obligation O23 -/

/-- Settles O23: the size is the live count, the free space is what it leaves of RING_N - 1, and
7 * 96 ≤ 767 < 8 * 96. -/
theorem ringHoldsOneSampleLessThanItsCells : Obligations.RingHoldsOneSampleLessThanItsCells := by
  refine ⟨fun n r hw => ⟨ringSize_eq_liveCount hw, Nat.add_sub_cancel' (ringSize_lt hw)⟩,
    fun r ws hw => ⟨fun hempty hlen => ⟨_, ringPush_isSome (by omega) ?_⟩, fun hlen => ringPush_none (.inr ?_)⟩⟩
  · have hnone : liveCount 768 r = 0 := by rw [← live_length, live_of_empty hempty, List.length_nil]
    rw [ringFree_eq_liveCount hw, hnone]
    omega
  · unfold ringFree
    omega

/-! ### RB_PUSH and RB_POP from the ports that may send them (rules R132, R133) -/

theorem statusWord_capacity : statusWord .capacity 0 = 0x00000001 := by decide

theorem reject_capacity (s : State) : reject .capacity s = answered s.issuer [0x00000001] s := by
  rw [reject_eq, respond_eq_answered, statusWord_capacity]

theorem respond_ok_setRing (data : List Word) (r : RingSel) (q : Ring) (s : State) :
    respond .ok 0 data (setRing r q s) = answered s.issuer (0x00000000 :: data) (setRing r q s) := by
  rw [respond_ok, setRing_issuer]

section Commands
variable {s : State} {r : RingSel}

theorem exec_rbPush {data : List Word} (h : s.issuer = producer r) :
    exec (.rbPush r data) s = .next
      ((ringPush s.cfg.ringN (getRing r s) data).elim (answered s.issuer [0x00000001] s) fun q =>
        answered s.issuer [0x00000000] (setRing r q s)) := by
  refine (if_pos (mayPush_iff.mpr h)).trans ?_
  cases ringPush s.cfg.ringN (getRing r s) data with
  | none => exact congrArg _ (reject_capacity s)
  | some q => exact congrArg _ (respond_ok_setRing ..)

theorem exec_rbPop {n : BitVec 16} (h : s.issuer = consumer r) :
    exec (.rbPop r n) s = .next
      ((ringPop s.cfg.ringN (getRing r s) n.toNat).elim (answered s.issuer [0x00000001] s) fun popped =>
        answered s.issuer (0x00000000 :: popped.1) (setRing r popped.2 s)) := by
  refine (if_pos (mayPop_iff.mpr h)).trans ?_
  cases ringPop s.cfg.ringN (getRing r s) n.toNat with
  | none => exact congrArg _ (reject_capacity s)
  | some popped => exact congrArg _ (respond_ok_setRing ..)

end Commands

/-! ### Obligations O20 and O21 -/

/-- Settles O20: `exec_rbPush`, with the cells written (`writeCells_written`) and the others (`writeCells_other`). -/
theorem pushStoresAllTheWordsOrNone : Obligations.PushStoresAllTheWordsOrNone := by
  intro s r data hw hport
  rw [exec_rbPush hport, ← ringFree_eq_liveCount hw]
  constructor
  · intro hpos hfree
    have hfit : data.length ≤ s.cfg.ringN := by
      rw [ringFree_eq_liveCount hw] at hfree
      omega
    refine ⟨writeCells s.cfg.ringN (getRing r s).buf (getRing r s).wr data, ?_,
      (writeCells_length ..).trans hw.1, writeCells_written _ _ _ _ hw.1 hfit, writeCells_other _ _ _ _⟩
    rw [ringPush_isSome hpos hfree, Option.elim_some]
  · intro hfail
    rw [ringPush_none hfail, Option.elim_none]

/-- Settles O21: `exec_rbPop`, and the words popped are the oldest live ones. -/
theorem popAnswersTheOldestOrNothing : Obligations.PopAnswersTheOldestOrNothing := by
  intro s r n hw hport
  rw [exec_rbPop hport, ← ringSize_eq_liveCount hw]
  constructor
  · intro hpos hle
    have hpop := ringPop_isSome hpos hle
    rw [hpop, Option.elim_some, ← ringPop_eq_take_live hw hpop]
  · intro hfail
    rw [ringPop_none hfail, Option.elim_none]

end Sys2Proof.Machine
end

section
/-! SUPPORT. The effect engine's commands from CTL (41_effect_engine.md): the answer and the state of each, case by
case, and what FX_INIT builds in either variant. -/

namespace Sys2Proof.Machine

open Sys2Proof.Spec

/-! ### Answers from CTL (rules R106, R300) -/

theorem statusWord_fatal : statusWord .fatal 0 = 0x00000005 := by decide
theorem statusWord_notInit : statusWord .notInit 0 = 0x00000004 := by decide
theorem statusWord_badArg : statusWord .badArg 0 = 0x00000006 := by decide

section Ctl
variable {s : State} (h : s.issuer = .ctl)
include h

/-- From CTL the FX_ commands pass their port check (rule R106). -/
theorem ifPermitted_mayControl (body : Result) : ifPermitted (mayControl s.issuer) s body = body :=
  if_pos (mayControl_iff.mpr h)

theorem respond_ctl (st : Status) (data : List Word) :
    respond st 0 data s = answered .ctl (statusWord st 0 :: data) s := by rw [respond_eq_answered, h]

theorem reject_ctl (st : Status) : reject st s = answered .ctl [statusWord st 0] s := respond_ctl h st []

end Ctl

/-! ### Each command from CTL -/

section Commands
variable {s : State} (h : s.issuer = .ctl)
include h

theorem exec_fxName : exec .fxName s = .next (answered .ctl [0x00000000, nameCode s.cfg.activeFx] s) := by
  rw [← statusWord_ok, ← respond_ctl h]
  exact ifPermitted_mayControl h _

theorem exec_fxInit : exec .fxInit s = .next (answered .ctl [statusWord (initEffect s).2 0] (initEffect s).1) := by
  have hi : (initEffect s).1.issuer = .ctl := by rw [initEffect_frame]; exact h
  rw [← respond_ctl hi]
  exact ifPermitted_mayControl h _

/-- FX_SET_FORMAT with rate 0 (rule R165). -/
theorem exec_fxSetFormat_zero (d : Octet) :
    exec (.fxSetFormat d 0) s = .next (answered .ctl [0x00000006] s) := by
  rw [← statusWord_badArg, ← reject_ctl h]
  exact ifPermitted_mayControl h _

theorem exec_fxSetFormat (d : Octet) {rate : BitVec 32} (hrate : rate ≠ 0) :
    exec (.fxSetFormat d rate) s = .next (answered .ctl [0x00000000] (setFormat d rate s)) := by
  rw [← statusWord_ok, ← respond_ctl ((setFormat_issuer d rate s).trans h)]
  exact (ifPermitted_mayControl h _).trans (if_neg hrate)

theorem exec_fxSetEnabled (e : Bool) :
    exec (.fxSetEnabled e) s = .next (answered .ctl [0x00000000] (setEnabled e s)) := by
  rw [← statusWord_ok, ← respond_ctl ((setEnabled_issuer e s).trans h)]
  exact ifPermitted_mayControl h _

/-- The first check of FX_PROCESS (rule R171). -/
theorem exec_fxProcess_fatal (frames : List Frame) (hf : s.fxFatal = true) :
    exec (.fxProcess frames) s = .next (answered .ctl [0x00000005] s) := by
  rw [← statusWord_fatal, ← reject_ctl h]
  exact (ifPermitted_mayControl h _).trans (if_pos hf)

/-- The second check of FX_PROCESS (rule R171). -/
theorem exec_fxProcess_notInit (frames : List Frame) (hf : s.fxFatal = false) (hi : s.fxInited = false) :
    exec (.fxProcess frames) s = .next (answered .ctl [0x00000004] s) := by
  rw [← statusWord_notInit, ← reject_ctl h]
  exact (ifPermitted_mayControl h _).trans ((if_neg (by simp [hf])).trans (if_pos (by simp [hi])))

/-- FX_PROCESS past its checks is the block function (rules R171, R172). -/
theorem exec_fxProcess (frames : List Frame) (hf : s.fxFatal = false) (hi : s.fxInited = true) :
    exec (.fxProcess frames) s =
      .next (answered .ctl (0x00000000 :: wordsOf (fxBlock s frames).2) (fxBlock s frames).1) := by
  have hb : (fxBlock s frames).1.issuer = .ctl := by rw [fxBlock_frame]; exact h
  rw [← statusWord_ok, ← respond_ctl hb]
  exact (ifPermitted_mayControl h _).trans ((if_neg (by simp [hf])).trans (if_neg (by simp [hi])))

end Commands

/-! ### What FX_INIT builds (rules R163, R191 to R194, R232) -/

section Build
variable {c : Config} {rate : Nat}

/-- The model's storage check is rule R192's. -/
theorem channelFits_iff {t : ChannelTables} : channelFits c rate t = true ↔ Fits c rate t := by
  simp only [channelFits, Bool.and_eq_true, List.all_eq_true, decide_eq_true_eq]
  exact and_assoc

theorem buildChannel_isBuilt {t : ChannelTables} (ht : tablesWf t = true) (hfit : Fits c rate t) :
    IsBuilt c rate t (buildChannel c rate t) := by
  obtain ⟨-, hcombs, haps, -⟩ := buildChannel_wf ht (channelFits_iff.mpr hfit)
  refine ⟨rfl, hcombs, fun k l d hl hd => ?_, haps, fun k l hl => ?_⟩
  · simp only [buildChannel, List.getElem?_zipWith, hl, hd]
    rfl
  · simp only [buildChannel, List.getElem?_map, hl]
    rfl

theorem reverbInit_of_fits (rv : ReverbState) (hfit : Fits c rate c.left ∧ Fits c rate c.right) :
    reverbInit c rate rv =
      some { rv with left := buildChannel c rate c.left, right := buildChannel c rate c.right } :=
  if_pos (by rwa [Bool.and_eq_true, channelFits_iff, channelFits_iff])

theorem reverbInit_of_not_fits (rv : ReverbState) (hfit : ¬ (Fits c rate c.left ∧ Fits c rate c.right)) :
    reverbInit c rate rv = none :=
  if_neg (by rwa [Bool.and_eq_true, channelFits_iff, channelFits_iff])

end Build

section Init
variable {s : State}

theorem initEffect_of_fatal (hf : s.fxFatal = true) : initEffect s = (s, .fatal) := by
  obtain ⟨-, -, hfatal, -⟩ := initEffect_variant s
  exact hfatal hf

theorem initEffect_of_built {t : State} (hf : s.fxFatal = false) (hb : buildEffect s = some t) :
    initEffect s = ({ t with fxInited := true }, .ok) := by simp [initEffect, hf, hb]

theorem initEffect_of_not_built (hf : s.fxFatal = false) (hb : buildEffect s = none) :
    initEffect s = ({ s with fxInited := false, fxFatal := true }, .fatal) := by simp [initEffect, hf, hb]

theorem buildEffect_granular (hv : s.cfg.activeFx = .granular) :
    buildEffect s = some { s with granular := granInit s.cfg s.granular } := by simp [buildEffect, hv]

theorem buildEffect_reverb_of_fits (hv : s.cfg.activeFx = .reverb)
    (hfit : Fits s.cfg s.fxRate.toNat s.cfg.left ∧ Fits s.cfg s.fxRate.toNat s.cfg.right) :
    buildEffect s = some { s with reverb := { s.reverb with
      left := buildChannel s.cfg s.fxRate.toNat s.cfg.left
      right := buildChannel s.cfg s.fxRate.toNat s.cfg.right } } := by
  simp [buildEffect, hv, reverbInit_of_fits s.reverb hfit]

theorem buildEffect_reverb_of_not_fits (hv : s.cfg.activeFx = .reverb)
    (hfit : ¬ (Fits s.cfg s.fxRate.toNat s.cfg.left ∧ Fits s.cfg s.fxRate.toNat s.cfg.right)) :
    buildEffect s = none := by
  simp [buildEffect, hv, reverbInit_of_not_fits s.reverb hfit]

/-- FX_INIT where FX_FATAL stands, in either variant (rules R163, R307). -/
theorem exec_fxInit_of_fatal (h : s.issuer = .ctl) (hf : s.fxFatal = true) :
    exec .fxInit s = .next (answered .ctl [0x00000005] s) := by
  rw [exec_fxInit h, initEffect_of_fatal hf, statusWord_fatal]

end Init

/-- Settles O27: the three ways the initialisation goes; the channels built are `buildChannel`'s. -/
theorem initBuildsTheReverbOrIsFatal : Obligations.InitBuildsTheReverbOrIsFatal := by
  intro s hc hctl hv
  obtain ⟨hleft, hright⟩ := tablesWf_of_configWf hc
  refine ⟨fun hf hl hr => ?_, fun hf hfit => ?_, exec_fxInit_of_fatal hctl⟩
  · refine ⟨_, _, buildChannel_isBuilt hleft hl, buildChannel_isBuilt hright hr, ?_⟩
    rw [exec_fxInit hctl, initEffect_of_built hf (buildEffect_reverb_of_fits hv ⟨hl, hr⟩), statusWord_ok]
  · rw [exec_fxInit hctl, initEffect_of_not_built hf (buildEffect_reverb_of_not_fits hv hfit), statusWord_fatal]

/-- Settles O28: a GRANULAR build always succeeds, and leaves `granInit`'s state. -/
theorem initClearsTheGranularState : Obligations.InitClearsTheGranularState := by
  intro s hctl hv
  refine ⟨fun hf => ?_, exec_fxInit_of_fatal hctl⟩
  rw [exec_fxInit hctl, initEffect_of_built hf (buildEffect_granular hv), statusWord_ok]
  rfl

/-! ### FX_PROCESS (rules R171, R172) -/

theorem fxBlock_singleton (s : State) (f : Frame) : fxBlock s [f] = ((fxFrame s f).1, [(fxFrame s f).2]) := rfl

theorem fxFrame_reverb {s : State} (hv : s.cfg.activeFx = .reverb) (f : Frame) :
    fxFrame s f = ({ s with reverb := (reverbFrame s.cfg.combOutGain s.reverb f).1 },
      (reverbFrame s.cfg.combOutGain s.reverb f).2) := by simp [fxFrame, hv]

theorem fxFrame_granular {s : State} (hv : s.cfg.activeFx = .granular) (f : Frame) :
    fxFrame s f = ({ s with granular := (granFrame s.cfg s.granular f).1 },
      (granFrame s.cfg s.granular f).2) := by simp [fxFrame, hv]

/-- Settles O33: the checks in order, then the block function, which `fxBlock_append` composes and `fxBlock_frame`
confines to the engine's state. -/
theorem processAnswersEveryFrameInOrder : Obligations.ProcessAnswersEveryFrameInOrder := by
  intro s frames more f hctl
  refine ⟨exec_fxProcess_fatal hctl frames, exec_fxProcess_notInit hctl frames, fun hf hi => ?_,
    exec_fxProcess hctl [], rfl, fxBlock_append s frames more, fun hv => ?_, fun hv => ?_⟩
  · refine ⟨(fxBlock s frames).1.reverb, (fxBlock s frames).1.granular, (fxBlock s frames).2, ?_, ?_,
      fxBlock_length s frames⟩
    · rw [exec_fxProcess hctl frames hf hi, ← fxBlock_frame]
    · rw [← fxBlock_frame]
  · rw [fxBlock_singleton, fxFrame_reverb hv]
  · rw [fxBlock_singleton, fxFrame_granular hv]

/-! ### FX_NAME, FX_SET_FORMAT and FX_SET_ENABLED -/

/-- Settles O26: `exec_fxName`, with the code of either variant. -/
theorem nameCodeOfTheBuiltVariant : Obligations.NameCodeOfTheBuiltVariant := by
  intro s hctl
  rw [exec_fxName hctl]
  refine ⟨fun hv => ?_, fun hv => ?_⟩
  · rw [hv]
    rfl
  · rw [hv]
    rfl

section Flags
variable {s : State}

/-- A new format invalidates what a REVERB build has built (rule R165). -/
theorem setFormat_of_reverb (hv : s.cfg.activeFx = .reverb) (d : Octet) (rate : BitVec 32) :
    setFormat d rate s = { s with fxBits := d, fxRate := rate, fxInited := false } := by simp [setFormat, hv]

theorem setFormat_of_granular (hv : s.cfg.activeFx = .granular) (d : Octet) (rate : BitVec 32) :
    setFormat d rate s = { s with fxBits := d, fxRate := rate } := by simp [setFormat, hv]

theorem setEnabled_of_reverb (hv : s.cfg.activeFx = .reverb) (e : Bool) :
    setEnabled e s = { s with reverb := { s.reverb with en := e } } := by simp [setEnabled, hv]

theorem setEnabled_of_granular (hv : s.cfg.activeFx = .granular) (e : Bool) :
    setEnabled e s = { s with granular := { s.granular with frozen := e } } := by simp [setEnabled, hv]

end Flags

/-- Settles O30: rate 0 is rejected; any other is `setFormat`'s, by the built variant. -/
theorem setFormatRecordsTheFormat : Obligations.SetFormatRecordsTheFormat := by
  intro s d rate hctl
  refine ⟨fun hrate => ?_, fun hrate hv => ?_, fun hrate hv => ?_⟩
  · rw [hrate, exec_fxSetFormat_zero hctl]
  · rw [exec_fxSetFormat hctl d hrate, setFormat_of_reverb hv]
  · rw [exec_fxSetFormat hctl d hrate, setFormat_of_granular hv]

/-- Settles O31: `setEnabled`'s flag, by the built variant. -/
theorem setEnabledWritesTheFlag : Obligations.SetEnabledWritesTheFlag := by
  intro s e hctl
  rw [exec_fxSetEnabled hctl]
  refine ⟨fun hv => ?_, fun hv => ?_⟩
  · rw [setEnabled_of_reverb hv]
  · rw [setEnabled_of_granular hv]

end Sys2Proof.Machine
end

section
/-! SUPPORT. The feedback-gain law over the real numbers (rule R193): the integer test `gainAtMost` is the comparison
with the clamped power, so the search's answer is its floor. -/

namespace Sys2Proof.Machine

/-- The clamp at 0.98 keeps exactly the gains up to 32112 (rule R193). -/
theorem le_clamp_iff (g : Nat) : (g : ℝ) ≤ 0.98 * 32768 ↔ g ≤ gainMax := by
  have hclamp : (0.98 * 32768 : ℝ) = 3211264 / 100 := by norm_num
  rw [hclamp, le_div_iff₀ (by norm_num)]
  norm_cast
  unfold gainMax
  omega

/-- The power against a gain, both raised to the power b: the comparison of integers that the model makes. -/
theorem le_power_iff {a b : Nat} (hb : 0 < b) (g : Nat) :
    (g : ℝ) ≤ 10 ^ (-(a : ℝ) / b) * 32768 ↔ g ^ b * 10 ^ a ≤ 32768 ^ b := by
  have hpow : ((10 : ℝ) ^ (-(a : ℝ) / b)) ^ b = (10 ^ a)⁻¹ := by
    rw [← Real.rpow_mul_natCast (by norm_num), div_mul_cancel₀ _ (by positivity), Real.rpow_neg (by norm_num),
      Real.rpow_natCast]
  calc (g : ℝ) ≤ 10 ^ (-(a : ℝ) / b) * 32768
      ↔ (g : ℝ) ^ b ≤ (10 ^ (-(a : ℝ) / b) * 32768) ^ b :=
        (pow_le_pow_iff_left₀ (by positivity) (by positivity) hb.ne').symm
    _ ↔ (g : ℝ) ^ b * 10 ^ a ≤ 32768 ^ b := by
        rw [mul_pow, hpow, inv_mul_eq_div, le_div_iff₀ (by positivity)]
    _ ↔ g ^ b * 10 ^ a ≤ 32768 ^ b := by norm_cast

/-- The model's integer test is the comparison with the clamped power of rule R193. -/
theorem gainAtMost_iff {a b : Nat} (hb : 0 < b) (g : Nat) :
    gainAtMost a b g = true ↔ (g : ℝ) ≤ min (10 ^ (-(a : ℝ) / b)) 0.98 * 32768 := by
  rw [gainAtMost, Bool.and_eq_true, decide_eq_true_eq, decide_eq_true_eq, min_mul_of_nonneg _ _ (by norm_num),
    le_min_iff, le_clamp_iff, le_power_iff hb, and_comm]

/-- A gain that passes and whose successor does not is the floor. -/
theorem floor_eq_gainSearch {a b : Nat} (hb : 0 < b) :
    ⌊min ((10 : ℝ) ^ (-(a : ℝ) / b)) 0.98 * 32768⌋ = (gainSearch a b 15 0 : Int) := by
  have hzero : gainAtMost a b 0 = true := by simp [gainAtMost, hb.ne']
  have htop : gainAtMost a b (0 + 2 ^ 15) = false := by simp [gainAtMost, gainMax]
  obtain ⟨hpass, hnext⟩ := gainSearch_spec hzero htop
  rw [← Bool.not_eq_true, gainAtMost_iff hb, not_le] at hnext
  rw [Int.floor_eq_iff]
  exact ⟨mod_cast (gainAtMost_iff hb _).mp hpass, mod_cast hnext⟩

/-- The exponent of rule R193 and its lowest terms, which the model searches with, are the same number. -/
theorem exponent_eq_lowest_terms {a b : Nat} (hb : 0 < b) :
    -((a / Nat.gcd a b : Nat) : ℝ) / (b / Nat.gcd a b : Nat) = -(a : ℝ) / b := by
  have hgcd : ((Nat.gcd a b : Nat) : ℝ) ≠ 0 := by
    exact_mod_cast (Nat.gcd_pos_of_pos_right a hb).ne'
  rw [Nat.cast_div (Nat.gcd_dvd_left a b) hgcd, Nat.cast_div (Nat.gcd_dvd_right a b) hgcd, neg_div, neg_div,
    div_div_div_cancel_right₀ hgcd]

/-- Settles O29: the search by `floor_eq_gainSearch`, with the exponent in lowest terms. -/
theorem feedbackGainLaw : Obligations.FeedbackGainLaw := by
  intro len rate t60 _ hrate ht60
  have hb : 0 < rate * t60 := Nat.mul_pos hrate ht60
  have hlow : 0 < rate * t60 / Nat.gcd (3000 * len) (rate * t60) :=
    Nat.div_pos (Nat.le_of_dvd hb (Nat.gcd_dvd_right ..)) (Nat.gcd_pos_of_pos_right _ hb)
  have hexp : -(3 * (len : ℝ) * 1000) / ((rate : ℝ) * t60) = -((3000 * len : Nat) : ℝ) / (rate * t60 : Nat) := by
    push_cast
    ring
  refine ⟨?_, fbGain_le len rate t60⟩
  rw [hexp, ← exponent_eq_lowest_terms hb, floor_eq_gainSearch hlow]
  rfl

end Sys2Proof.Machine
end

section
/-! SUPPORT. Delay lines seen from the cursor (rules R195, R196, R198): the cell that comes under the cursor some frames
later, and what one write, or a list of writes, makes of it. -/

namespace Sys2Proof.Machine

open Sys2Proof.Spec

/-- The value at a line's cursor `j` frames from now, where nothing is written in between. -/
def DelayLine.ahead (l : DelayLine) (j : Nat) : S16 := l.cells.getD ((l.idx + j) % l.len) 0

section Lines
variable {most : Nat} {l : DelayLine}

theorem lineRead_eq_ahead (h : LineWf most l) : lineRead l = l.ahead 0 := by
  obtain ⟨-, -, -, hidx⟩ := h
  rw [DelayLine.ahead, Nat.add_zero, Nat.mod_eq_of_lt hidx, lineRead]

/-- After a write every cell is one frame nearer, and the written one comes last. -/
theorem ahead_lineWrite (h : LineWf most l) (v : S16) {j : Nat} (hj : j < l.len) :
    (lineWrite v l).ahead j = if j + 1 = l.len then v else l.ahead (j + 1) := by
  obtain ⟨-, -, hcells, hidx⟩ := h
  have hpos : ((l.idx + 1) % l.len + j) % l.len = (l.idx + (j + 1)) % l.len := by
    rw [Nat.mod_add_mod, Nat.add_assoc, Nat.add_comm 1 j]
  simp only [DelayLine.ahead, lineWrite, hpos]
  split
  · next hlast =>
    rw [hlast, Nat.add_mod_right, Nat.mod_eq_of_lt hidx]
    simp [hcells, hidx]
  · next hlast =>
    have hne : (l.idx + 0) % l.len ≠ (l.idx + (j + 1)) % l.len := mod_ne_of_lt (by omega) (by omega)
    rw [Nat.add_zero, Nat.mod_eq_of_lt hidx] at hne
    rw [List.getD_eq_getElem?_getD, List.getD_eq_getElem?_getD, List.getElem?_set_ne hne]

/-- The delay law (rule R195), for every cell ahead: what the writes have not reached is still there, and behind it
stand the last values written, in order. -/
theorem ahead_foldl_lineWrite (h : LineWf most l) (xs : List S16) {j : Nat} (hj : j < l.len) :
    (xs.foldl (fun l x => lineWrite x l) l).ahead j =
      if xs.length + j < l.len then l.ahead (xs.length + j) else xs.getD (xs.length + j - l.len) 0 := by
  induction xs generalizing l with
  | nil => simp [hj]
  | cons x xs ih =>
    have hih := ih (lineWrite_keeps_wf x h) hj
    have hlen : (lineWrite x l).len = l.len := rfl
    rw [List.foldl_cons, hih, hlen, List.length_cons]
    by_cases hin : xs.length + j < l.len
    · rw [if_pos hin, ahead_lineWrite h x hin]
      by_cases hlast : xs.length + j + 1 = l.len
      · have h0 : xs.length + 1 + j - l.len = 0 := by omega
        rw [if_pos hlast, if_neg (by omega), h0, List.getD_cons_zero]
      · have hs : xs.length + 1 + j = xs.length + j + 1 := by omega
        rw [if_neg hlast, if_pos (by omega), hs]
    · have hs : xs.length + 1 + j - l.len = xs.length + j - l.len + 1 := by omega
      rw [if_neg hin, if_neg (by omega), hs, List.getD_cons_succ]

theorem foldl_lineWrite_keeps_wf (h : LineWf most l) (xs : List S16) :
    LineWf most (xs.foldl (fun l x => lineWrite x l) l) := by
  induction xs generalizing l with
  | nil => exact h
  | cons x xs ih => exact ih (lineWrite_keeps_wf x h)

end Lines

/-- Settles O35: `ahead_foldl_lineWrite` at the cursor. -/
theorem delayLineReturnsTheInputOfLenSamplesBefore : Obligations.DelayLineReturnsTheInputOfLenSamplesBefore := by
  intro most l xs h
  obtain ⟨hlen, -⟩ := id h
  have hread := (lineRead_eq_ahead (foldl_lineWrite_keeps_wf h xs)).trans (ahead_foldl_lineWrite h xs hlen)
  rw [hread, Nat.add_zero]
  exact ⟨fun hlt => if_pos hlt, fun hge => if_neg (by omega)⟩

end Sys2Proof.Machine
end

section
/-! SUPPORT. One sample of one channel stage by stage (rules R195 to R200), in the integer arithmetic of the rules; and
the frame function around it (rules R204, R206). -/

namespace Sys2Proof.Machine

open Sys2Proof.Spec

/-! ### The stages over the integers -/

theorem sat16_toInt_eq_sat (v : Int) : (sat16 v).toInt = sat v := sat16_toInt v

/-- Rule R196's new filter memory. -/
theorem combFilt_toInt (damp gain filt d : Int) :
    (combFilt damp gain filt d).toInt = sat ((filt * (32768 - damp) + d * gain / 32768 * damp) / 32768) := by
  rw [combFilt, sat16_toInt_eq_sat, asr15, qmul_eq]

theorem mixDryWet_toInt (dry wet x w : S16) :
    (mixDryWet dry wet x w).toInt = sat ((x.toInt * dry.toInt + w.toInt * wet.toInt) / 32768) := by
  rw [mixDryWet, sat16_toInt_eq_sat, asr15]

theorem masterGain_toInt (master m : S16) : (masterGain master m).toInt = sat (m.toInt * master.toInt / 16384) := by
  rw [masterGain, sat16_toInt_eq_sat, asr14]

/-- Rule R198's output. -/
theorem allpassStep_out_toInt (apg w : S16) (l : DelayLine) :
    (allpassStep apg w l).2.toInt = sat (tap l - w.toInt * apg.toInt / 32768) := by
  rw [← qmul_eq]
  exact sat16_toInt_eq_sat _

/-- Rule R198's write, by the output. -/
theorem allpassStep_line (apg w : S16) (l : DelayLine) :
    ∃ v : S16, v.toInt = sat (w.toInt + (allpassStep apg w l).2.toInt * apg.toInt / 32768) ∧
      (allpassStep apg w l).1 = stepped l v := by
  refine ⟨sat16 (w.toInt + qmul (allpassStep apg w l).2.toInt apg.toInt), ?_, rfl⟩
  rw [sat16_toInt_eq_sat, qmul_eq]

/-- The values between the allpasses (rule R199): `w[0]` goes into the chain, allpass `k` turns `w[k]` into `w[k + 1]`,
and the last one is the chain's output. -/
theorem allpassChain_stages (apg : S16) (ls : List DelayLine) (w0 : S16) :
    ∃ w : List S16, w.length = ls.length + 1 ∧ w.getD 0 0 = w0 ∧
      w.getD ls.length 0 = (allpassChain apg ls w0).2 ∧
      ∀ (k : Nat) (l : DelayLine), ls[k]? = some l →
        w.getD (k + 1) 0 = (allpassStep apg (w.getD k 0) l).2 ∧
        (allpassChain apg ls w0).1[k]? = some (allpassStep apg (w.getD k 0) l).1 := by
  induction ls generalizing w0 with
  | nil => exact ⟨[w0], rfl, rfl, rfl, by simp⟩
  | cons l ls ih =>
    obtain ⟨w, hlen, hfirst, hlast, hstep⟩ := ih (allpassStep apg w0 l).2
    refine ⟨w0 :: w, by simp [hlen], rfl, hlast, fun k l' hk => ?_⟩
    cases k with
    | zero =>
      obtain rfl : l = l' := by simpa using hk
      exact ⟨hfirst, rfl⟩
    | succ k => exact hstep k l' hk

theorem allpassChain_length (apg : S16) (ls : List DelayLine) (w : S16) :
    (allpassChain apg ls w).1.length = ls.length := by
  induction ls generalizing w with
  | nil => rfl
  | cons l ls ih => simp [allpassChain, ih]

/-! ### The composition (rule R203) -/

section Sample
variable (outGain : S16) (rv : ReverbState) (ch : ReverbChannel) (x : S16)

theorem reverbSample_combs : (reverbSample outGain rv ch x).1.combs =
    ch.combs.map fun cb => (combStep rv.damp outGain (lineRead ch.pd) cb).1 := by
  simp [reverbSample, combBank_eq]

/-- The wet sum before the allpass chain (rule R197). -/
def wetSum (outGain : S16) (ch : ReverbChannel) : Int :=
  (ch.combs.map fun cb => qmul (lineRead cb.line).toInt outGain.toInt).sum

theorem combBank_wetSum (damp p : S16) : (combBank damp outGain p ch.combs 0).2 = wetSum outGain ch := by
  rw [combBank_eq]
  exact Int.zero_add _

theorem reverbSample_aps : (reverbSample outGain rv ch x).1.aps =
    (allpassChain rv.apg ch.aps (sat16 (wetSum outGain ch))).1 := by
  simp [reverbSample, combBank_wetSum]

theorem reverbSample_out : (reverbSample outGain rv ch x).2 =
    masterGain rv.master (mixDryWet rv.dry rv.wet x (allpassChain rv.apg ch.aps (sat16 (wetSum outGain ch))).2) := by
  simp [reverbSample, combBank_wetSum]

end Sample

/-- Settles O36: the combs are `combStep`'s, and the values between the allpasses are `allpassChain_stages`'. -/
theorem reverbSampleStages : Obligations.ReverbSampleStages := by
  intro outGain rv ch x
  obtain ⟨w, hlen, hfirst, hlast, hstep⟩ := allpassChain_stages rv.apg ch.aps (sat16 (wetSum outGain ch))
  refine ⟨rfl, ?_, fun k cb hk => ?_, ?_, w, hlen, ?_, fun k l hk => ?_, ?_⟩
  · rw [reverbSample_combs, List.length_map]
  · refine ⟨_, _, combFilt_toInt .., sat16_toInt_eq_sat _, ?_⟩
    rw [reverbSample_combs, List.getElem?_map, hk]
    rfl
  · rw [reverbSample_aps, allpassChain_length]
  · rw [hfirst, sat16_toInt_eq_sat]
    simp only [wetSum, qmul_eq]
    rfl
  · obtain ⟨hout, hline⟩ := hstep k l hk
    obtain ⟨v, hv, hstepped⟩ := allpassStep_line rv.apg (w.getD k 0) l
    rw [reverbSample_aps, hline, hout]
    exact ⟨allpassStep_out_toInt .., v, hv, congrArg some hstepped⟩
  · refine ⟨_, mixDryWet_toInt .., ?_⟩
    rw [reverbSample_out, masterGain_toInt, hlast]

/-! ### The frame (rules R204 to R206) -/

theorem isContainer_cont (q : S16) : IsContainer (cont q) q.toInt := ⟨congrArg _ (cont_high q), cont_low q⟩

/-- Settles O37: the two samples, and the output by RV_EN. -/
theorem reverbFrameContainers : Obligations.ReverbFrameContainers := by
  intro outGain rv f
  refine ⟨rfl, fun hen => ?_, fun hen => ?_⟩
  · rw [reverbFrame, if_pos hen]
    exact ⟨isContainer_cont _, isContainer_cont _⟩
  · rw [reverbFrame, if_neg (by simp [hen])]

/-! ### The bounded filter memory (rule R209) -/

/-- Saturation never makes a value larger in magnitude (rule R14). -/
theorem abs_sat_le (v : Int) : |sat v| ≤ |v| := by
  simp only [sat, abs_eq_max_neg]
  omega

/-- A blend of two values with weights that sum to 32768, divided by 32768, stays within the larger magnitude. -/
theorem abs_blend_le {a b k : Int} (hk0 : 0 ≤ k) (hk : k ≤ 32768) :
    |(a * (32768 - k) + b * k) / 32768| ≤ max |a| |b| := by
  have weigh {v w : Int} (hv : |v| ≤ max |a| |b|) (hw : 0 ≤ w) :
      v * w ≤ max |a| |b| * w ∧ -max |a| |b| * w ≤ v * w := by
    obtain ⟨hlo, hhi⟩ := abs_le.mp hv
    exact ⟨mul_le_mul_of_nonneg_right hhi hw, mul_le_mul_of_nonneg_right hlo hw⟩
  obtain ⟨ha, ha'⟩ := weigh (le_max_left |a| |b|) (show 0 ≤ 32768 - k by omega)
  obtain ⟨hb, hb'⟩ := weigh (le_max_right |a| |b|) hk0
  rw [abs_le]
  constructor
  · rw [Int.le_ediv_iff_mul_le (by norm_num)]
    linarith
  · exact Int.ediv_le_of_le_mul (by norm_num) (by linarith)

/-- Settles O40: the memory is a saturated blend of the old memory and the feedback. -/
theorem combMemoryIsBounded : Obligations.CombMemoryIsBounded := by
  intro damp gain filt d hdamp
  obtain ⟨-, hdamp'⟩ := s16_toInt_bounds damp
  rw [combFilt_toInt]
  calc _ ≤ _ := abs_sat_le _
    _ ≤ max |filt.toInt| |d.toInt * gain.toInt / 32768| := abs_blend_le hdamp (by omega)
    _ ≤ _ := (lt_add_one _).le

end Sys2Proof.Machine
end

section
/-! SUPPORT. A block of frames through the reverb, channel by channel (rules R190, R204, R205): what each channel
becomes and answers is a function of the parameter registers, that channel and its own input samples. -/

namespace Sys2Proof.Machine

open Sys2Proof.Spec

/-- What one channel answers to a list of input samples (rule R203), one after another. -/
def channelOutputs (outGain : S16) (rv : ReverbState) : ReverbChannel → List S16 → List S16
  | _, [] => []
  | ch, x :: xs => (reverbSample outGain rv ch x).2 :: channelOutputs outGain rv (reverbSample outGain rv ch x).1 xs

theorem channelOutputs_length (outGain : S16) (rv : ReverbState) (ch : ReverbChannel) (xs : List S16) :
    (channelOutputs outGain rv ch xs).length = xs.length := by
  induction xs generalizing ch with
  | nil => rfl
  | cons x xs ih => simp [channelOutputs, ih]

/-- The samples of the left channel. -/
def leftInputs (fs : List Frame) : List S16 := (fs.map Frame.left).map q15

/-- The samples of the right channel. -/
def rightInputs (fs : List Frame) : List S16 := (fs.map Frame.right).map q15

/-! ### The sample function reads the parameter registers alone -/

section Registers
variable (outGain : S16) (rv : ReverbState) (l r ch : ReverbChannel) (e : Bool)

theorem reverbSample_registers (x : S16) :
    reverbSample outGain { rv with left := l, right := r, en := e } ch x = reverbSample outGain rv ch x := rfl

theorem channelOutputs_registers (xs : List S16) :
    channelOutputs outGain { rv with left := l, right := r, en := e } ch xs = channelOutputs outGain rv ch xs := by
  induction xs generalizing ch with
  | nil => rfl
  | cons x xs ih => simp only [channelOutputs, reverbSample_registers, ih]

end Registers

/-! ### A block of frames -/

/-- The reverb after a block of frames: each channel after its own samples. -/
def reverbAfter (outGain : S16) (rv : ReverbState) (fs : List Frame) : ReverbState :=
  { rv with
    left := afterSamples outGain rv rv.left (leftInputs fs)
    right := afterSamples outGain rv rv.right (rightInputs fs) }

/-- The frames that an enabled reverb answers to a block (rule R206). -/
def reverbOutputs (outGain : S16) (rv : ReverbState) (fs : List Frame) : List Frame :=
  ((channelOutputs outGain rv rv.left (leftInputs fs)).zip (channelOutputs outGain rv rv.right (rightInputs fs))).map
    fun y => ⟨cont y.1, cont y.2⟩

section Block
variable (outGain : S16) (rv : ReverbState) (f : Frame) (fs : List Frame)

theorem reverbAfter_cons : reverbAfter outGain rv (f :: fs) = reverbAfter outGain (reverbFrame outGain rv f).1 fs := rfl

theorem reverbOutputs_cons : reverbOutputs outGain rv (f :: fs) =
    ⟨cont (reverbSample outGain rv rv.left (q15 f.left)).2, cont (reverbSample outGain rv rv.right (q15 f.right)).2⟩ ::
      reverbOutputs outGain (reverbFrame outGain rv f).1 fs := by
  simp only [reverbOutputs, reverbFrame, channelOutputs_registers]
  rfl

theorem reverbOutputs_left : (reverbOutputs outGain rv fs).map Frame.left =
    (channelOutputs outGain rv rv.left (leftInputs fs)).map cont := by
  have hlen : (channelOutputs outGain rv rv.left (leftInputs fs)).length ≤
      (channelOutputs outGain rv rv.right (rightInputs fs)).length := by
    simp [channelOutputs_length, leftInputs, rightInputs]
  conv_rhs => rw [← List.map_fst_zip hlen, List.map_map]
  rw [reverbOutputs, List.map_map]
  rfl

theorem reverbOutputs_right : (reverbOutputs outGain rv fs).map Frame.right =
    (channelOutputs outGain rv rv.right (rightInputs fs)).map cont := by
  have hlen : (channelOutputs outGain rv rv.right (rightInputs fs)).length ≤
      (channelOutputs outGain rv rv.left (leftInputs fs)).length := by
    simp [channelOutputs_length, leftInputs, rightInputs]
  conv_rhs => rw [← List.map_snd_zip hlen, List.map_map]
  rw [reverbOutputs, List.map_map]
  rfl

end Block

/-- The block function of a REVERB build (rules R172, R204 to R206). -/
theorem fxBlock_reverb {s : State} (hv : s.cfg.activeFx = .reverb) (fs : List Frame) :
    fxBlock s fs = ({ s with reverb := reverbAfter s.cfg.combOutGain s.reverb fs },
      if s.reverb.en then reverbOutputs s.cfg.combOutGain s.reverb fs else fs) := by
  induction fs generalizing s with
  | nil => cases hen : s.reverb.en <;> rfl
  | cons f fs ih =>
    have hrest := ih (s := { s with reverb := (reverbFrame s.cfg.combOutGain s.reverb f).1 }) hv
    rw [fxBlock, fxFrame_reverb hv]
    simp only [hrest, reverbAfter_cons, reverbOutputs_cons]
    cases hen : s.reverb.en with
    | true => simp [reverbFrame, hen]
    | false => simp [reverbFrame, hen]

/-- The left channel of a block. -/
theorem fxBlock_left {s : State} (hv : s.cfg.activeFx = .reverb) (fs : List Frame) :
    (fxBlock s fs).1.reverb.left = afterSamples s.cfg.combOutGain s.reverb s.reverb.left (leftInputs fs) ∧
    (fxBlock s fs).2.map Frame.left =
      if s.reverb.en then (channelOutputs s.cfg.combOutGain s.reverb s.reverb.left (leftInputs fs)).map cont
      else fs.map Frame.left := by
  rw [fxBlock_reverb hv]
  exact ⟨rfl, by rw [apply_ite (List.map Frame.left), reverbOutputs_left]⟩

/-- The right channel of a block. -/
theorem fxBlock_right {s : State} (hv : s.cfg.activeFx = .reverb) (fs : List Frame) :
    (fxBlock s fs).1.reverb.right = afterSamples s.cfg.combOutGain s.reverb s.reverb.right (rightInputs fs) ∧
    (fxBlock s fs).2.map Frame.right =
      if s.reverb.en then (channelOutputs s.cfg.combOutGain s.reverb s.reverb.right (rightInputs fs)).map cont
      else fs.map Frame.right := by
  rw [fxBlock_reverb hv]
  exact ⟨rfl, by rw [apply_ite (List.map Frame.right), reverbOutputs_right]⟩

/-! ### Obligations O34 and O38 -/

/-- Settles O34: by `fxBlock_reverb`, where RV_EN picks the answer and no part of the state but itself. -/
theorem disabledReverbIsTheIdentity : Obligations.DisabledReverbIsTheIdentity := by
  intro s frames hctl hv hf hi hen
  refine ⟨reverbAfter s.cfg.combOutGain s.reverb frames, ?_, ?_, hen⟩
  · rw [exec_fxProcess hctl frames hf hi, fxBlock_reverb hv, if_neg (by simp [hen])]
  · exact congrArg Prod.fst
      (fxBlock_reverb (s := { s with reverb := { s.reverb with en := true } }) hv frames)

/-- The right channel and its inputs do not reach the left one (rule R190). -/
theorem fxBlock_left_congr {s : State} (hv : s.cfg.activeFx = .reverb) (other : ReverbChannel) {fs gs : List Frame}
    (h : fs.map Frame.left = gs.map Frame.left) :
    (fxBlock s fs).1.reverb.left =
      (fxBlock { s with reverb := { s.reverb with right := other } } gs).1.reverb.left ∧
    (fxBlock s fs).2.map Frame.left =
      (fxBlock { s with reverb := { s.reverb with right := other } } gs).2.map Frame.left := by
  obtain ⟨hstate, hout⟩ := fxBlock_left hv fs
  obtain ⟨hstate', hout'⟩ := fxBlock_left (s := { s with reverb := { s.reverb with right := other } }) hv gs
  rw [leftInputs, h] at hstate hout
  refine ⟨hstate.trans hstate'.symm, hout.trans (Eq.trans ?_ hout'.symm)⟩
  rw [← channelOutputs_registers _ s.reverb s.reverb.left other _ s.reverb.en]
  rfl

/-- The left channel and its inputs do not reach the right one (rule R190). -/
theorem fxBlock_right_congr {s : State} (hv : s.cfg.activeFx = .reverb) (other : ReverbChannel) {fs gs : List Frame}
    (h : fs.map Frame.right = gs.map Frame.right) :
    (fxBlock s fs).1.reverb.right =
      (fxBlock { s with reverb := { s.reverb with left := other } } gs).1.reverb.right ∧
    (fxBlock s fs).2.map Frame.right =
      (fxBlock { s with reverb := { s.reverb with left := other } } gs).2.map Frame.right := by
  obtain ⟨hstate, hout⟩ := fxBlock_right hv fs
  obtain ⟨hstate', hout'⟩ := fxBlock_right (s := { s with reverb := { s.reverb with left := other } }) hv gs
  rw [rightInputs, h] at hstate hout
  refine ⟨hstate.trans hstate'.symm, hout.trans (Eq.trans ?_ hout'.symm)⟩
  rw [← channelOutputs_registers _ s.reverb other s.reverb.right _ s.reverb.en]
  rfl

/-- Settles O38: the two blocks have the same inputs on the one channel. -/
theorem reverbChannelsAreIndependent : Obligations.ReverbChannelsAreIndependent := by
  intro s other frames hv
  exact ⟨fxBlock_left_congr hv other (by simp [Function.comp_def]),
    fxBlock_right_congr hv other (by simp [Function.comp_def])⟩

end Sys2Proof.Machine
end

section
/-! SUPPORT. The silence before the first echo (rule R208): how long a line, a comb and a channel still answer 0, and
what one sample makes of that. -/

namespace Sys2Proof.Machine

open Sys2Proof.Spec

/-! ### Silent lines -/

/-- The next `n` cells that come under the cursor before the line's own writes come round hold 0. -/
structure DelayLine.Silent (n : Nat) (l : DelayLine) : Prop where
  wf : LineWf l.len l
  ahead_eq_zero : ∀ j < n, j < l.len → l.ahead j = 0

section Lines
variable {l : DelayLine} {n : Nat}

theorem lineRead_of_silent (h : l.Silent (n + 1)) : lineRead l = 0 := by
  obtain ⟨hwf, hahead⟩ := h
  obtain ⟨hlen, -⟩ := id hwf
  rw [lineRead_eq_ahead hwf, hahead 0 (Nat.succ_pos n) hlen]

/-- One write takes one frame off the silence; it may be a sound only where the silence is no longer than the line. -/
theorem silent_lineWrite (h : l.Silent (n + 1)) {v : S16} (hv : l.len < n + 1 → v = 0) : (lineWrite v l).Silent n := by
  obtain ⟨hwf, hahead⟩ := h
  refine ⟨lineWrite_keeps_wf v hwf, fun j hj hlen => ?_⟩
  change j < l.len at hlen
  rw [ahead_lineWrite hwf v hlen]
  split
  · exact hv (by omega)
  · exact hahead (j + 1) (by omega) (by omega)

theorem silent_zero (h : LineWf l.len l) : l.Silent 0 := ⟨h, fun j hj => absurd hj (Nat.not_lt_zero j)⟩

theorem clearedLine_silent {len : Nat} (h : 1 ≤ len) (n : Nat) : (clearedLine len).Silent n := by
  refine ⟨lineClear_wf h le_rfl, fun j _ _ => ?_⟩
  have hj : ((clearedLine len).idx + j) % len < len := Nat.mod_lt _ h
  rw [DelayLine.ahead]
  exact List.getD_replicate _ hj

end Lines

/-! ### Silent allpasses (rules R198, R199) -/

/-- An allpass that holds nothing, with nothing coming in, answers nothing and holds nothing. -/
theorem allpassStep_of_silent (apg : S16) {l : DelayLine} (h : ∀ n, l.Silent n) :
    (∀ n, (allpassStep apg 0 l).1.Silent n) ∧ (allpassStep apg 0 l).2 = 0 := by
  have hout : (allpassStep apg 0 l).2 = 0 := by simp [allpassStep, lineRead_of_silent (h 1)]
  refine ⟨fun n => silent_lineWrite (h (n + 1)) fun _ => ?_, hout⟩
  change sat16 ((0 : S16).toInt + qmul (allpassStep apg 0 l).2.toInt apg.toInt) = 0
  rw [hout]
  simp

theorem allpassChain_of_silent (apg : S16) {ls : List DelayLine} (h : ∀ l ∈ ls, ∀ n, l.Silent n) :
    (∀ l ∈ (allpassChain apg ls 0).1, ∀ n, l.Silent n) ∧ (allpassChain apg ls 0).2 = 0 := by
  induction ls with
  | nil => exact ⟨h, rfl⟩
  | cons l ls ih =>
    rw [List.forall_mem_cons] at h
    obtain ⟨hl, hls⟩ := h
    obtain ⟨hline, hout⟩ := allpassStep_of_silent apg hl
    obtain ⟨hrest, hlast⟩ := ih hls
    simp only [allpassChain, hout]
    exact ⟨List.forall_mem_cons.mpr ⟨hline, hrest⟩, hlast⟩

/-! ### Silent combs (rules R195, R196) -/

/-- A comb behind pre-delay line `pd` answers 0 for `n` frames, whatever comes into the pre-delay: its own line does,
and so does the pre-delay for as many of these frames as would come back through the comb's line. -/
structure CombSilent (n : Nat) (pd : DelayLine) (cb : Comb) : Prop where
  filt : cb.filt = 0
  reach : n ≤ pd.len + cb.line.len
  line : cb.line.Silent n
  pd : pd.Silent (n - cb.line.len)

theorem combStep_keeps_silent {n : Nat} {pd : DelayLine} {cb : Comb} (damp outGain x : S16)
    (h : CombSilent (n + 1) pd cb) :
    CombSilent n (lineWrite x pd) (combStep damp outGain (lineRead pd) cb).1 := by
  obtain ⟨hfilt, hreach, hline, hpd⟩ := h
  have hmem : (combStep damp outGain (lineRead pd) cb).1.filt = 0 := by
    simp [combStep, combFilt, lineRead_of_silent hline, hfilt]
  refine ⟨hmem, by change n ≤ pd.len + cb.line.len; omega, silent_lineWrite hline fun hlt => ?_, ?_⟩
  · rw [Nat.succ_sub (by omega)] at hpd
    change sat16 ((lineRead pd).toInt + (combStep damp outGain (lineRead pd) cb).1.filt.toInt) = 0
    rw [hmem, lineRead_of_silent hpd]
    simp
  · change (lineWrite x pd).Silent (n - cb.line.len)
    by_cases hlt : cb.line.len < n + 1
    · rw [Nat.succ_sub (by omega)] at hpd
      exact silent_lineWrite hpd (by omega)
    · rw [Nat.sub_eq_zero_of_le (by omega)]
      exact silent_zero (lineWrite_keeps_wf x hpd.wf)

/-! ### Silent channels (rules R203, R208) -/

/-- The channel's wet part is 0 for `n` frames, whatever its input. -/
structure ChannelSilent (n : Nat) (ch : ReverbChannel) : Prop where
  combs : ∀ cb ∈ ch.combs, CombSilent n ch.pd cb
  aps : ∀ l ∈ ch.aps, ∀ k, l.Silent k

section Channel
variable (outGain : S16) (rv : ReverbState) {ch : ReverbChannel} {n : Nat}

theorem wetSum_of_silent (h : ChannelSilent (n + 1) ch) : wetSum outGain ch = 0 := by
  refine List.sum_eq_zero fun v hv => ?_
  obtain ⟨cb, hcb, rfl⟩ := List.mem_map.mp hv
  simp [lineRead_of_silent (h.combs cb hcb).line]

theorem reverbSample_keeps_silent (x : S16) (h : ChannelSilent (n + 1) ch) :
    ChannelSilent n (reverbSample outGain rv ch x).1 := by
  refine ⟨fun cb hcb => ?_, ?_⟩
  · rw [reverbSample_combs] at hcb
    obtain ⟨cb, hold, rfl⟩ := List.mem_map.mp hcb
    exact combStep_keeps_silent rv.damp outGain x (h.combs cb hold)
  · rw [reverbSample_aps, wetSum_of_silent outGain h, sat16_zero]
    exact (allpassChain_of_silent rv.apg h.aps).1

theorem reverbSample_out_of_silent (x : S16) (h : ChannelSilent (n + 1) ch) :
    (reverbSample outGain rv ch x).2 = masterGain rv.master (mixDryWet rv.dry rv.wet x 0) := by
  rw [reverbSample_out, wetSum_of_silent outGain h, sat16_zero, (allpassChain_of_silent rv.apg h.aps).2]

theorem afterSamples_keeps_silent (xs : List S16) (h : ChannelSilent (n + xs.length) ch) :
    ChannelSilent n (afterSamples outGain rv ch xs) := by
  induction xs generalizing ch with
  | nil => exact h
  | cons x xs ih => exact ih (reverbSample_keeps_silent outGain rv x h)

end Channel

theorem tablesWf_lengths {t : ChannelTables} (h : tablesWf t = true) :
    t.combRefLen.length = 8 ∧ t.t60Ms.length = 8 ∧ t.apRefLen.length = 4 := by
  simp only [tablesWf, Bool.and_eq_true, decide_eq_true_eq] at h
  obtain ⟨⟨⟨⟨⟨hcomb, ht60⟩, hap⟩, -⟩, -⟩, -⟩ := h
  exact ⟨hcomb, ht60, hap⟩

section Built
variable {c : Config} {rate : Nat} {t : ChannelTables} {ch : ReverbChannel}

/-- Each comb of a built channel is cleared (rule R194). -/
theorem comb_of_isBuilt (ht : tablesWf t = true) (h : IsBuilt c rate t ch) {cb : Comb} (hcb : cb ∈ ch.combs) :
    cb.filt = 0 ∧ ∃ len, 1 ≤ len ∧ cb.line = clearedLine len := by
  obtain ⟨-, hcombs, hcomb, -⟩ := h
  obtain ⟨href, ht60, -⟩ := tablesWf_lengths ht
  obtain ⟨k, hk, rfl⟩ := List.mem_iff_getElem.mp hcb
  have hbuilt := hcomb k _ _ (List.getElem?_eq_getElem (by omega)) (List.getElem?_eq_getElem (by omega))
  rw [List.getElem?_eq_getElem hk, Option.some.injEq] at hbuilt
  rw [hbuilt]
  exact ⟨rfl, _, le_max_left .., rfl⟩

/-- Each allpass of a built channel is cleared (rule R194). -/
theorem allpass_of_isBuilt (ht : tablesWf t = true) (h : IsBuilt c rate t ch) {l : DelayLine} (hl : l ∈ ch.aps) :
    ∃ len, 1 ≤ len ∧ l = clearedLine len := by
  obtain ⟨-, -, -, haps, hap⟩ := h
  obtain ⟨-, -, href⟩ := tablesWf_lengths ht
  obtain ⟨k, hk, rfl⟩ := List.mem_iff_getElem.mp hl
  have hbuilt := hap k _ (List.getElem?_eq_getElem (by omega))
  rw [List.getElem?_eq_getElem hk, Option.some.injEq] at hbuilt
  exact ⟨_, le_max_left .., hbuilt⟩

/-- A freshly built channel is silent until an input can have come through the pre-delay and the shortest comb. -/
theorem silent_of_isBuilt {n : Nat} (ht : tablesWf t = true) (h : IsBuilt c rate t ch)
    (hn : ∀ cb ∈ ch.combs, n ≤ ch.pd.len + cb.line.len) : ChannelSilent n ch := by
  obtain ⟨hpd, -⟩ := id h
  refine ⟨fun cb hcb => ?_, fun l hl k => ?_⟩
  · obtain ⟨hfilt, len, hlen, hline⟩ := comb_of_isBuilt ht h hcb
    refine ⟨hfilt, hn cb hcb, ?_, ?_⟩
    · rw [hline]
      exact clearedLine_silent hlen n
    · rw [hpd]
      exact clearedLine_silent (le_max_left ..) _
  · obtain ⟨len, hlen, rfl⟩ := allpass_of_isBuilt ht h hl
    exact clearedLine_silent hlen k

end Built

/-- Settles O39: the built channel is silent for one frame more than the samples before, so its last output is the mix
of the input with 0. -/
theorem outputIsDryBeforeTheFirstEcho : Obligations.OutputIsDryBeforeTheFirstEcho := by
  intro c rate t ch outGain rv xs x ht hbuilt hbefore
  have hsilent : ChannelSilent (0 + 1 + xs.length) ch :=
    silent_of_isBuilt ht hbuilt fun cb hcb => by have := hbefore cb hcb; omega
  rw [reverbSample_out_of_silent outGain rv x (afterSamples_keeps_silent outGain rv xs hsilent), masterGain_toInt,
    mixDryWet_toInt]
  simp

end Sys2Proof.Machine
end

section
/-! SUPPORT. The generator (rule R243), and one granular frame stage by stage (rules R233 to R245). -/

namespace Sys2Proof.Machine

open Sys2Proof.Spec

/-! ### The generator (rule R243) -/

/-- The three xor-shifts over the natural numbers. -/
theorem rngNext_toNat (x : BitVec 32) :
    let a := x.toNat ^^^ (x.toNat * 2 ^ 13 % 2 ^ 32)
    let b := a ^^^ (a / 2 ^ 17)
    (rngNext x).toNat = b ^^^ (b * 2 ^ 5 % 2 ^ 32) := by
  simp only [rngNext, BitVec.toNat_xor, BitVec.toNat_shiftLeft, BitVec.toNat_ushiftRight, Nat.shiftLeft_eq,
    Nat.shiftRight_eq_div_pow]

/-- The first six values from 1, which rule R243 lists. -/
theorem drawn_from_one : (List.range 6).map (fun n => (drawn (n + 1) 1).toNat) =
    [270369, 67634689, 2647435461, 307599695, 2398689233, 745495504] := by decide

/-- Settles O41: the shifts over the natural numbers, and `rngNext_ne_zero`. -/
theorem generatorNeverReachesZero : Obligations.GeneratorNeverReachesZero :=
  ⟨rngNext_toNat, drawn_from_one, fun _ => rngNext_ne_zero⟩

/-! ### One frame, by its two stages (rule R245) -/

section Frame
variable (c : Config) (g : GranularState) (f : Frame)

/-- The state after stage (a), the capture of the mean of both inputs (rules R233, R236). -/
def afterCapture : GranularState := captureWrite c (downMix (q15 f.left) (q15 f.right)) g

/-- What stage (b) makes of the slots, the generator and the wet sum (rule R237). -/
def afterService : List Grain × BitVec 32 × Int :=
  serviceSlots c (afterCapture c g f) g.density.toInt.toNat g.grains g.rng 0

theorem afterCapture_eq :
    afterCapture c g f = { g with cap := (afterCapture c g f).cap, wc := (afterCapture c g f).wc } :=
  captureWrite_frame ..

theorem afterCapture_grainLen : (afterCapture c g f).grainLen = g.grainLen := by rw [afterCapture_eq]

/-- The frame's new state: the capture's, with the slots and the generator as stage (b) leaves them. -/
theorem granFrame_state :
    (granFrame c g f).1 =
      { afterCapture c g f with grains := (afterService c g f).1, rng := (afterService c g f).2.1 } := by
  unfold afterService granFrame
  dsimp only
  rw [← afterCapture, afterCapture_eq]

/-- The frame's output: one wet value, mixed with the input of each channel (rules R242, R245). -/
theorem granFrame_output :
    (granFrame c g f).2 =
      ⟨cont (granularMix g (q15 f.left) (sat16 (afterService c g f).2.2)),
        cont (granularMix g (q15 f.right) (sat16 (afterService c g f).2.2))⟩ := by
  unfold afterService granFrame
  dsimp only
  rw [← afterCapture, afterCapture_eq]

theorem granFrame_cap : (granFrame c g f).1.cap = (afterCapture c g f).cap := rfl
theorem granFrame_wc : (granFrame c g f).1.wc = (afterCapture c g f).wc := rfl
theorem granFrame_grains : (granFrame c g f).1.grains = (afterService c g f).1 := by rw [granFrame_state]
theorem granFrame_rng : (granFrame c g f).1.rng = (afterService c g f).2.1 := by rw [granFrame_state]

end Frame

/-! ### Stage (a), capture (rules R233, R234, R236) -/

section Capture
variable (c : Config) {g : GranularState} (f : Frame)

theorem afterCapture_frozen (h : g.frozen = true) : afterCapture c g f = g := captureWrite_frozen c _ h

theorem afterCapture_running (h : g.frozen = false) :
    afterCapture c g f =
      { g with cap := g.cap.set g.wc (downMix (q15 f.left) (q15 f.right)), wc := (g.wc + 1) % c.capLen } :=
  captureWrite_running c _ h

end Capture

/-! ### Stage (b), the slots (rules R237 to R241, R244) -/

theorem drawsBefore_of_le {g : GranularState} {i : Nat} (h : i ≤ g.density.toInt.toNat) :
    drawsBefore g i = ((g.grains.take i).filter fun x => !x.act).length := by rw [drawsBefore, min_eq_left h]

theorem drawsBefore_of_ge {g : GranularState} {i : Nat} (h : g.density.toInt.toNat ≤ i) :
    drawsBefore g i = ((g.grains.take g.density.toInt.toNat).filter fun x => !x.act).length := by
  rw [drawsBefore, min_eq_right h]

section Slots
variable (c : Config) (g : GranularState) (f : Frame)

theorem afterService_rng : (afterService c g f).2.1 = drawn (drawsBefore g g.density.toInt.toNat) g.rng := by
  rw [drawsBefore_of_le le_rfl]
  exact (serviceSlots_spec ..).1

/-- What a slot plays, read from the buffer after the capture, by the envelope of rule R235. -/
theorem grainContribution_eq (st e : Nat) :
    grainContribution c g st e =
      (g.cap.getD ((st + e) % c.capLen) 0).toInt * envelope g.grainLen.toInt c.grainFade e / c.grainFade := rfl

theorem afterService_sum : (afterService c g f).2.2 = grainSum c g (afterCapture c g f).cap := by
  obtain ⟨-, hsum, -⟩ := serviceSlots_spec c (afterCapture c g f) g.density.toInt.toNat g.grains g.rng 0
  rw [afterService, hsum, zero_add]
  simp only [grainContribution_eq, afterCapture_grainLen, grainSum]

variable {i : Nat} {x : Grain}

theorem afterService_of_ge_density (hx : g.grains[i]? = some x) (hi : g.density.toInt ≤ i) :
    (afterService c g f).1[i]? = some x := by
  obtain ⟨-, -, hslots⟩ := serviceSlots_spec c (afterCapture c g f) g.density.toInt.toNat g.grains g.rng 0
  exact (hslots i x hx).1 (by omega)

theorem afterService_of_active (hx : g.grains[i]? = some x) (hi : (i : Int) < g.density.toInt) (ha : x.act = true) :
    (afterService c g f).1[i]? = some ⟨decide ((x.el : Int) + 1 < g.grainLen.toInt), x.el + 1, x.st⟩ := by
  obtain ⟨-, -, hslots⟩ := serviceSlots_spec c (afterCapture c g f) g.density.toInt.toNat g.grains g.rng 0
  rw [← afterCapture_grainLen c g f]
  exact (hslots i x hx).2.1 (by omega) ha

theorem afterService_of_idle (hx : g.grains[i]? = some x) (hi : (i : Int) < g.density.toInt) (ha : x.act = false) :
    (afterService c g f).1[i]? =
      some ⟨true, 0, grainStart c (afterCapture c g f) (drawn (drawsBefore g i + 1) g.rng)⟩ := by
  obtain ⟨-, -, hslots⟩ := serviceSlots_spec c (afterCapture c g f) g.density.toInt.toNat g.grains g.rng 0
  rw [drawsBefore_of_le (by omega)]
  exact (hslots i x hx).2.2 (by omega) ha

end Slots

/-! ### The mix, and the whole frame (rules R242, R245) -/

theorem granularMix_toInt (g : GranularState) (x wet : S16) :
    (granularMix g x wet).toInt = sat ((x.toInt * g.dry.toInt + wet.toInt * g.wet.toInt) / 32768) := by
  rw [granularMix, sat16_toInt_eq_sat, asr15]

theorem isContainer_granularMix (g : GranularState) (x wet : S16) :
    IsContainer (cont (granularMix g x wet)) (sat ((x.toInt * g.dry.toInt + wet.toInt * g.wet.toInt) / 32768)) := by
  rw [← granularMix_toInt]
  exact isContainer_cont _

/-- Settles O42: the capture write, then the slots as stage (b) leaves them, then one wet value mixed twice. -/
theorem granularFrameStages : Obligations.GranularFrameStages := by
  intro c g f _ hwf xl xr out
  obtain ⟨-, hd8, hl1, hlen, -, -, hslots, -⟩ := id hwf
  refine ⟨fun hf => ?_, fun hf => ?_, granFrame_registers c g f, ?_, ?_, fun i x hx => ⟨fun hi => ?_,
    fun hi ha => ?_, fun hi ha => ⟨grainStart c (afterCapture c g f) (drawn (drawsBefore g i + 1) g.rng), ?_, ?_⟩⟩,
    sat16 (grainSum c g out.1.cap), sat16_toInt_eq_sat _, ?_, ?_⟩
  · rw [granFrame_cap, granFrame_wc, afterCapture_frozen c f hf]
    exact ⟨rfl, rfl⟩
  · rw [granFrame_cap, granFrame_wc, afterCapture_running c f hf]
    exact ⟨rfl, _, downMix_toInt .., rfl⟩
  · rw [granFrame_rng, afterService_rng, drawsBefore_of_le le_rfl, drawsBefore_of_ge (by omega)]
  · rw [granFrame_grains, afterService, serviceSlots_length, hslots, nGrain]
  · rw [granFrame_grains, afterService_of_ge_density c g f hx hi]
  · rw [granFrame_grains, afterService_of_active c g f hx hi ha]
  · rw [granFrame_grains, afterService_of_idle c g f hx hi ha]
  · rw [grainStart_eq c _ _ (by rwa [afterCapture_grainLen]) (by omega), afterCapture_grainLen, granFrame_wc]
  · rw [granFrame_cap, ← afterService_sum, granFrame_output]
    exact isContainer_granularMix g (q15 f.left) _
  · rw [granFrame_cap, ← afterService_sum, granFrame_output]
    exact isContainer_granularMix g (q15 f.right) _

end Sys2Proof.Machine
end

section
/-! SUPPORT. The freeze (rules R234, R248): which operations keep the capture buffer and its cursor while frozen. -/

namespace Sys2Proof.Machine

/-- A frozen GRANULAR block that holds capture buffer `cap` and cursor `wc`. -/
structure HoldsCapture (cap : List S16) (wc : Nat) (s : State) : Prop where
  variant : s.cfg.activeFx = .granular
  frozen : s.granular.frozen = true
  cap_eq : s.granular.cap = cap
  wc_eq : s.granular.wc = wc

section Freeze
variable {cap : List S16} {wc : Nat} {s : State} (h : HoldsCapture cap wc s)
include h

theorem fxFrame_holdsCapture (f : Frame) : HoldsCapture cap wc (fxFrame s f).1 := by
  obtain ⟨hv, hf, hcap, hwc⟩ := h
  obtain ⟨-, -, -, -, hfrozen⟩ := granFrame_registers s.cfg s.granular f
  rw [fxFrame_granular hv]
  refine ⟨hv, hfrozen.trans hf, ?_, ?_⟩
  · show (granFrame s.cfg s.granular f).1.cap = cap
    rw [granFrame_cap, afterCapture_frozen _ f hf, hcap]
  · show (granFrame s.cfg s.granular f).1.wc = wc
    rw [granFrame_wc, afterCapture_frozen _ f hf, hwc]

theorem fxBlock_holdsCapture (fs : List Frame) : HoldsCapture cap wc (fxBlock s fs).1 := by
  induction fs generalizing s with
  | nil => exact h
  | cons f fs ih => exact ih (fxFrame_holdsCapture h f)

theorem ringIn_holdsCapture (q : Ring) : HoldsCapture cap wc { s with ringIn := q } :=
  ⟨h.variant, h.frozen, h.cap_eq, h.wc_eq⟩

theorem ringOut_holdsCapture (q : Ring) : HoldsCapture cap wc { s with ringOut := q } :=
  ⟨h.variant, h.frozen, h.cap_eq, h.wc_eq⟩

theorem setEnabled_true_holdsCapture : HoldsCapture cap wc (setEnabled true s) := by
  rw [setEnabled_of_granular h.variant]
  exact ⟨h.variant, rfl, h.cap_eq, h.wc_eq⟩

theorem taskQuantum_holdsCapture : HoldsCapture cap wc (taskQuantum s).state := by
  unfold taskQuantum
  dsimp only
  split
  · exact h
  · next ins q _ =>
    have hblock := fxBlock_holdsCapture (ringIn_holdsCapture h q) (framesOf ins)
    split
    · exact hblock
    · next o _ => exact ringOut_holdsCapture hblock o

theorem taskSteady_holdsCapture (r : BitVec 32) : HoldsCapture cap wc (taskSteady r s).state := by
  unfold taskSteady
  split_ifs
  · exact h
  · exact h
  · exact h
  · exact h
  · exact taskQuantum_holdsCapture h

/-- A TASK_STEP without a rate change does not rebuild, so with the enable input on it keeps the capture. -/
theorem taskEffect_holdsCapture (hen : s.ctlIn = true) (hrate : s.cfgIn.rate = s.curRate) :
    HoldsCapture cap wc (taskEffect s).state := by
  unfold taskEffect
  dsimp only
  rw [if_neg (by simp [hrate]), hen]
  exact taskSteady_holdsCapture (setEnabled_true_holdsCapture h) _

theorem respond_holdsCapture (st : Status) (info : Octet) (data : List Word) :
    HoldsCapture cap wc (respond st info data s) := by
  obtain ⟨hv, hf, hcap, hwc⟩ := h
  constructor
  all_goals simpa

end Freeze

/-- A command all of whose effects keep the capture keeps it: its answer is a response. -/
theorem exec_holdsCapture {cap : List S16} {wc : Nat} {i : Instr} {s t : State} (h : exec i s = .next t)
    (heffect : ∀ u, CommandEffect s i u → HoldsCapture cap wc u) : HoldsCapture cap wc t := by
  obtain ⟨st, info, data, u, hu, rfl⟩ := exec_effect h
  exact respond_holdsCapture (heffect u hu) st info data

/-- Settles O43: FX_PROCESS runs the block function, such a TASK_STEP the steady branch; both keep `HoldsCapture`. -/
theorem freezeHoldsTheCaptureBuffer : Obligations.FreezeHoldsTheCaptureBuffer := by
  intro s t frames hv hf
  have hs : HoldsCapture s.granular.cap s.granular.wc s := ⟨hv, hf, rfl, rfl⟩
  refine ⟨fun h => ?_, fun hen hrate h => ?_⟩
  · obtain ⟨-, hfrozen, hcap, hwc⟩ := exec_holdsCapture h fun u hu => by
      cases hu with
      | unchanged => exact hs
      | process => exact fxBlock_holdsCapture hs frames
    exact ⟨hcap, hwc, hfrozen⟩
  · obtain ⟨-, hfrozen, hcap, hwc⟩ := exec_holdsCapture h fun u hu => by
      cases hu with
      | unchanged => exact hs
      | task => exact taskEffect_holdsCapture hs hen hrate
    exact ⟨hcap, hwc, hfrozen⟩

end Sys2Proof.Machine
end

section
/-! SUPPORT. What a grain reads and adds: where a new grain's cells lie behind the cursor (rules R240, R249), and how
large its contributions and their sum can be (rules R235, R250). -/

namespace Sys2Proof.Machine

open Sys2Proof.Spec

/-! ### Where a new grain reads (rules R240, R249) -/

/-- Settles O44: modulo CAP_LEN the distance is GR_LEN + r - 1 - e, and that number is below CAP_LEN. -/
theorem newGrainsStayBehindTheCursor : Obligations.NewGrainsStayBehindTheCursor := by
  intro c g value e hwf he
  obtain ⟨-, -, hl1, hlen, -⟩ := id hwf
  have hpos : (0 : Int) < (c.capLen : Int) - g.grainLen.toInt + 1 := by omega
  have hr0 := Int.emod_nonneg (value.toNat : Int) hpos.ne'
  have hr := Int.emod_lt_of_pos (value.toNat : Int) hpos
  refine ⟨_, hr0, by omega, rfl, ?_⟩
  rw [Int.natCast_mod, Int.natCast_add, grainStart_eq c g value hlen (by omega)]
  generalize (value.toNat : Int) % ((c.capLen : Int) - g.grainLen.toInt + 1) = r at hr0 hr
  calc _ = ((g.wc : Int) - 1 - (g.wc - g.grainLen.toInt - r + e)) % c.capLen := by
        rw [Int.emod_add_emod, Int.sub_emod_emod]
    _ = (g.grainLen.toInt + r - 1 - e) % c.capLen := by ring_nf
    _ = g.grainLen.toInt + r - 1 - e := Int.emod_eq_of_lt (by omega) (by omega)

/-! ### What a grain adds (rules R235, R250) -/

theorem envelope_bounds (grainLen e : Int) {fade : Int} (h : 0 ≤ fade) :
    0 ≤ envelope grainLen fade e ∧ envelope grainLen fade e ≤ fade := by
  unfold envelope
  omega

/-- The share k of m of a value, rounded down, is no larger in magnitude than the value. -/
theorem abs_mul_ediv_le (v : Int) {k m : Int} (hm : 0 < m) (hk0 : 0 ≤ k) (hk : k ≤ m) : |v * k / m| ≤ |v| := by
  rw [abs_le, Int.le_ediv_iff_mul_le hm]
  constructor
  · nlinarith [neg_abs_le v, abs_nonneg v]
  · exact Int.ediv_le_of_le_mul hm (by nlinarith [le_abs_self v, abs_nonneg v])

theorem abs_envelope_share_le {c : Config} (h : 1 ≤ c.grainFade) (v grainLen e : Int) :
    |v * envelope grainLen c.grainFade e / c.grainFade| ≤ |v| := by
  obtain ⟨hlo, hhi⟩ := envelope_bounds grainLen e (show (0 : Int) ≤ c.grainFade by omega)
  exact abs_mul_ediv_le v (by omega) hlo hhi

theorem abs_toInt_le (x : S16) : |x.toInt| ≤ 32768 := by
  obtain ⟨hlo, hhi⟩ := s16_toInt_bounds x
  rw [abs_le]
  omega

/-- A sum of values no larger in magnitude than b. -/
theorem abs_sum_le {b : Int} {l : List Int} (h : ∀ v ∈ l, |v| ≤ b) : |l.sum| ≤ l.length * b := by
  have hlo := List.card_nsmul_le_sum l (-b) fun v hv => (abs_le.mp (h v hv)).1
  have hhi := List.sum_le_card_nsmul l b fun v hv => (abs_le.mp (h v hv)).2
  rw [abs_le]
  exact ⟨by simpa using hlo, by simpa using hhi⟩

/-- The wet sum is within 32768 for each slot that plays. -/
theorem abs_grainSum_le_count {c : Config} (h : 1 ≤ c.grainFade) (g : GranularState) (cap : List S16) :
    |grainSum c g cap| ≤ ((g.grains.take g.density.toInt.toNat).filter fun x => x.act).length * 32768 := by
  unfold grainSum
  rw [← List.length_map]
  refine abs_sum_le fun v hv => ?_
  obtain ⟨x, -, rfl⟩ := List.mem_map.mp hv
  exact (abs_envelope_share_le h _ _ _).trans (abs_toInt_le _)

/-- Settles O45: the envelope is a share of GRAIN_FADE, and at most GR_DENSITY slots play. -/
theorem grainContributionsAreBounded : Obligations.GrainContributionsAreBounded := by
  intro c g cap hfade
  refine ⟨fun st e => abs_envelope_share_le hfade _ _ _, ?_⟩
  have hcount : ((g.grains.take g.density.toInt.toNat).filter fun x => x.act).length ≤ g.density.toInt.toNat :=
    (List.length_filter_le ..).trans (List.length_take_le ..)
  have hsum := abs_grainSum_le_count hfade g cap
  omega

end Sys2Proof.Machine
end

section
/-! SUPPORT. TASK_STEP from CTL, branch by branch (44_audio_task.md, rules R270 to R276): what it answers and leaves on
a new rate, with nothing to process, and with a quantum waiting. -/

namespace Sys2Proof.Machine

open Sys2Proof.Spec

/-! ### The answer of a TASK_STEP (rules R270, R271) -/

section Answer
variable {s : State} (h : s.issuer = .ctl)
include h

theorem exec_taskStep :
    exec .taskStep s = .next
      (answered .ctl [statusWord (taskEffect s).status (taskInfo (taskEffect s).outcome)] (taskEffect s).state) := by
  have hissuer : (taskEffect s).state.issuer = .ctl := by rw [taskEffect_frame]; exact h
  refine (ifPermitted_mayControl h _).trans ?_
  rw [respond_eq_answered, hissuer]

/-- The answer, from what the invocation does; the status word is left to a computation. -/
theorem exec_taskStep_of_effect {u : State} {st : Status} {o : TaskOutcome} {w : Word}
    (he : taskEffect s = ⟨u, st, o⟩) (hw : statusWord st (taskInfo o) = w) :
    exec .taskStep s = .next (answered .ctl [w] u) := by rw [exec_taskStep h, he, hw]

end Answer

/-! ### Obligation O46: a new rate (rule R272) -/

/-- A new format, in either variant (rule R165). -/
theorem setFormat_eq (d : Octet) (rate : BitVec 32) (s : State) :
    setFormat d rate s = { s with
      fxBits := d
      fxRate := rate
      fxInited := if s.cfg.activeFx = .reverb then false else s.fxInited } := by
  cases hv : s.cfg.activeFx with
  | reverb => rw [setFormat_of_reverb hv, if_pos rfl]
  | granular => rw [setFormat_of_granular hv, if_neg nofun]

theorem taskRebuild_zero (s : State) : taskRebuild 0 s = (s, .ok) := if_pos rfl

theorem taskRebuild_of_ne_zero {r : BitVec 32} (hr : r ≠ 0) (s : State) :
    taskRebuild r s = initEffect (setFormat s.cfgIn.bits r s) := if_neg hr

/-- A new rate is recorded, rebuilt for, and answered as a skip; the enable input is applied last (rules R270, R272). -/
theorem taskEffect_of_new_rate {s u : State} {st : Status} (h : s.cfgIn.rate ≠ s.curRate)
    (hb : taskRebuild s.cfgIn.rate { s with curRate := s.cfgIn.rate } = (u, st)) :
    taskEffect s = ⟨setEnabled s.ctlIn u, st, .formatChangeSkip⟩ := by
  simp [taskEffect, h, hb]

/-- The INFO of a skip stands above the status of the rebuild (rules R103, R271). -/
theorem statusWord_formatChangeSkip (st : Status) :
    statusWord st (taskInfo .formatChangeSkip) = 0x00000200 + statusWord st 0 := by cases st <;> decide

/-- Settles O46: a rate of 0 builds nothing; any other is `setFormat`, then FX_INIT's effect and status. -/
theorem taskStepOnARateChange : Obligations.TaskStepOnARateChange := by
  intro s hctl hnew
  refine ⟨fun hzero => ?_, fun hrate => ?_⟩
  · have hbuild := taskRebuild_zero { s with curRate := 0 }
    rw [← hzero] at hbuild
    rw [← hzero]
    exact exec_taskStep_of_effect hctl (taskEffect_of_new_rate hnew hbuild) (by decide)
  · have hbuild := taskRebuild_of_ne_zero hrate { s with curRate := s.cfgIn.rate }
    have heffect := exec_taskStep_of_effect hctl (taskEffect_of_new_rate hnew hbuild) (statusWord_formatChangeSkip _)
    rw [setFormat_eq] at heffect
    refine ⟨_, _, ?_, exec_fxInit hctl, heffect⟩
    obtain hst | hst := initEffect_status _
    · rw [hst]
      exact .inl (by decide)
    · rw [hst]
      exact .inr (by decide)

/-! ### The branches of an invocation whose rate is unchanged (rules R270, R273, R303) -/

section Steady
variable {r : BitVec 32} {s : State}

theorem taskEffect_of_same_rate (h : s.cfgIn.rate = s.curRate) :
    taskEffect s = taskSteady s.curRate (setEnabled s.ctlIn s) := by simp [taskEffect, h]

theorem taskSteady_zero (s : State) : taskSteady 0 s = ⟨s, .ok, .unconfigured⟩ := if_pos rfl

theorem taskSteady_of_fatal (hr : r ≠ 0) (hf : s.fxFatal = true) : taskSteady r s = ⟨s, .fatal, .refused⟩ :=
  (if_neg hr).trans (if_pos hf)

theorem taskSteady_of_notInit (hr : r ≠ 0) (hf : s.fxFatal = false) (hi : s.fxInited = false) :
    taskSteady r s = ⟨s, .notInit, .refused⟩ :=
  (if_neg hr).trans ((if_neg (by simp [hf])).trans (if_pos (by simp [hi])))

/-- Past the checks, the samples in IN decide (rules R270, R273). -/
theorem taskSteady_of_inited (hr : r ≠ 0) (hf : s.fxFatal = false) (hi : s.fxInited = true) :
    taskSteady r s =
      if ringSize s.cfg.ringN s.ringIn < 2 * s.cfg.quantumFrames then ⟨s, .ok, .idle⟩ else taskQuantum s :=
  (if_neg hr).trans ((if_neg (by simp [hf])).trans (if_neg (by simp [hi])))

end Steady

/-- Settles O47: the four branches of `taskSteady` that process nothing, in their order. -/
theorem taskStepWithoutProcessing : Obligations.TaskStepWithoutProcessing := by
  intro s hctl hsame
  have hsteady := taskEffect_of_same_rate hsame
  refine ⟨fun hzero => ?_, fun hrate hf => ?_, fun hrate hf hi => ?_, fun hrate hf hi hw hshort => ?_⟩
  · rw [hzero] at hsteady
    exact exec_taskStep_of_effect hctl (hsteady.trans (taskSteady_zero _)) (by decide)
  · exact exec_taskStep_of_effect hctl (hsteady.trans (taskSteady_of_fatal hrate (by simpa))) (by decide)
  · exact exec_taskStep_of_effect hctl (hsteady.trans (taskSteady_of_notInit hrate (by simpa) (by simpa))) (by decide)
  · rw [taskSteady_of_inited hrate (by simpa) (by simpa), if_pos (by simpa [ringSize_eq_liveCount hw])] at hsteady
    exact exec_taskStep_of_effect hctl hsteady (by decide)

/-! ### Obligation O48: a quantum waiting (rules R274, R276) -/

/-- The k oldest live words are the first k cells from the read index on (rules R43, R131). -/
theorem readCells_eq_take_live {n k : Nat} {r : Ring} (h : k ≤ liveCount n r) :
    readCells n r.buf r.rd k = (live n r).take k := by
  obtain ⟨more, hmore⟩ := Nat.exists_eq_add_of_le h
  rw [live_eq_readCells, hmore, readCells_add, List.take_left' (readCells_length ..)]

/-- A quantum holds a frame (rule R11). -/
theorem quantum_pos {c : Config} (hc : configWf c = true) : 0 < 2 * c.quantumFrames := by
  simp only [configWf, geometryWf, Bool.and_eq_true, decide_eq_true_eq] at hc
  omega

/-- The frames of the quantum that waits in IN. -/
def waitingFrames (s : State) : List Frame :=
  framesOf ((live s.cfg.ringN s.ringIn).take (2 * s.cfg.quantumFrames))

/-- The block with that quantum taken out of IN. -/
def withoutQuantum (s : State) : State :=
  { s with ringIn := ⟨s.ringIn.buf, (s.ringIn.rd + 2 * s.cfg.quantumFrames) % s.cfg.ringN, s.ringIn.wr⟩ }

/-- The block function on the quantum that waits. -/
def quantumBlock (s : State) : State × List Frame := fxBlock (withoutQuantum s) (waitingFrames s)

/-- The results of a block go into OUT if they fit and are dropped if they do not (rule R276). -/
def pushResults (n : Nat) (b : State × List Frame) : TaskResult :=
  (ringPush n b.1.ringOut (wordsOf b.2)).elim ⟨b.1, .capacity, .processed⟩ fun out =>
    ⟨{ b.1 with ringOut := out }, .ok, .processed⟩

section Results
variable {n : Nat} {b : State × List Frame} (hw : RingWf n b.1.ringOut)
include hw

theorem pushResults_of_room (hpos : 0 < (wordsOf b.2).length)
    (hroom : (wordsOf b.2).length ≤ n - 1 - liveCount n b.1.ringOut) :
    ∃ out, pushResults n b = ⟨{ b.1 with ringOut := out }, .ok, .processed⟩ ∧ RingWf n out ∧
      out.rd = b.1.ringOut.rd ∧ live n out = live n b.1.ringOut ++ wordsOf b.2 := by
  rw [← ringFree_eq_liveCount hw] at hroom
  have hpush := ringPush_isSome hpos hroom
  obtain ⟨-, -, hrd, -⟩ := ringPush_some hpush
  refine ⟨_, ?_, ringPush_keeps_wf hw hpush, hrd, live_of_ringPush hw hpush⟩
  rw [pushResults, hpush, Option.elim_some]

theorem pushResults_of_full (hfull : n - 1 - liveCount n b.1.ringOut < (wordsOf b.2).length) :
    pushResults n b = ⟨b.1, .capacity, .processed⟩ := by
  rw [← ringFree_eq_liveCount hw] at hfull
  rw [pushResults, ringPush_none (.inr hfull), Option.elim_none]

end Results

section Quantum
variable {s : State}

theorem taskQuantum_of_not_popped (hpop : ringPop s.cfg.ringN s.ringIn (2 * s.cfg.quantumFrames) = none) :
    taskQuantum s = ⟨s, .ok, .idle⟩ := by simp only [taskQuantum, hpop]

/-- A quantum popped goes through the block function and on to OUT (rules R274, R276). -/
theorem taskQuantum_of_popped {ins : List Word} {q : Ring}
    (hpop : ringPop s.cfg.ringN s.ringIn (2 * s.cfg.quantumFrames) = some (ins, q)) :
    taskQuantum s = pushResults s.cfg.ringN (fxBlock { s with ringIn := q } (framesOf ins)) := by
  simp only [taskQuantum, hpop, pushResults]
  split
  · next hpush =>
    rw [hpush]
    rfl
  · next out hpush =>
    rw [hpush]
    rfl

theorem taskQuantum_of_waiting (hc : configWf s.cfg = true) (hw : RingWf s.cfg.ringN s.ringIn)
    (hq : 2 * s.cfg.quantumFrames ≤ liveCount s.cfg.ringN s.ringIn) :
    taskQuantum s = pushResults s.cfg.ringN (quantumBlock s) := by
  have hpop := ringPop_isSome (quantum_pos hc) (by rwa [ringSize_eq_liveCount hw])
  rw [readCells_eq_take_live hq] at hpop
  exact taskQuantum_of_popped hpop

/-- The words of the quantum are whole frames (rule R274). -/
theorem wordsOf_waitingFrames (hq : 2 * s.cfg.quantumFrames ≤ liveCount s.cfg.ringN s.ringIn) :
    wordsOf (waitingFrames s) = (live s.cfg.ringN s.ringIn).take (2 * s.cfg.quantumFrames) ∧
      (waitingFrames s).length = s.cfg.quantumFrames :=
  wordsOf_framesOf _ _ (by simpa)

/-- As many words come out of the block function as went in (rule R276). -/
theorem quantumBlock_length (hq : 2 * s.cfg.quantumFrames ≤ liveCount s.cfg.ringN s.ringIn) :
    (wordsOf (quantumBlock s).2).length = 2 * s.cfg.quantumFrames := by
  rw [wordsOf_length, quantumBlock, fxBlock_length, (wordsOf_waitingFrames hq).2]

end Quantum

/-- The enable input changes nothing of the quantum and of IN (rules R168, R273). -/
theorem withoutQuantum_setEnabled (e : Bool) (s : State) :
    withoutQuantum (setEnabled e s) = { setEnabled e s with ringIn := (withoutQuantum s).ringIn } := by
  simp [withoutQuantum]

theorem waitingFrames_setEnabled (e : Bool) (s : State) : waitingFrames (setEnabled e s) = waitingFrames s := by
  simp [waitingFrames]

/-- Settles O48: the steady branch reaches `taskQuantum`, and whether OUT has room decides its push. -/
theorem taskStepMovesOneQuantum : Obligations.TaskStepMovesOneQuantum := by
  intro s hc hin hout hctl hsame hrate hf hi hq n q popped
  have hready : taskEffect s = taskQuantum (setEnabled s.ctlIn s) := by
    rw [taskEffect_of_same_rate hsame, taskSteady_of_inited hrate (by simpa) (by simpa),
      if_neg (by simpa [ringSize_eq_liveCount hin])]
  rw [taskQuantum_of_waiting (by simpa) (by simpa) (by simpa), setEnabled_cfg] at hready
  have hlength : (wordsOf (quantumBlock (setEnabled s.ctlIn s)).2).length = q :=
    (quantumBlock_length (by simpa)).trans (by rw [setEnabled_cfg])
  have hblock : quantumBlock (setEnabled s.ctlIn s) = fxBlock popped (waitingFrames s) := by
    rw [quantumBlock, withoutQuantum_setEnabled, waitingFrames_setEnabled]
    rfl
  rw [hblock] at hready hlength
  have hkeep : (fxBlock popped (waitingFrames s)).1.ringOut = s.ringOut := by
    rw [fxBlock_frame]
    exact setEnabled_ringOut ..
  have hwf : RingWf n (fxBlock popped (waitingFrames s)).1.ringOut := by rwa [hkeep]
  refine ⟨_, _, rfl, fxBlock_frame .., (wordsOf_waitingFrames hq).1, hlength, fun hroom => ?_, fun hfull => ?_⟩
  · have hpos : 0 < q := quantum_pos hc
    rw [← hlength] at hpos hroom
    obtain ⟨out, hpush, hout', hrd, hlive⟩ := pushResults_of_room hwf hpos (by rwa [hkeep])
    rw [hkeep] at hrd hlive
    exact ⟨out, exec_taskStep_of_effect hctl (hready.trans hpush) (by decide), hout', hrd, hlive⟩
  · rw [← hlength] at hfull
    exact exec_taskStep_of_effect hctl (hready.trans (pushResults_of_full hwf (by rwa [hkeep]))) (by decide)

end Sys2Proof.Machine
end

section
/-! SUPPORT. SOF_TICK from TX (44_audio_task.md, rules R280 to R285): the words it answers and the state it leaves, the
clock it keeps over many ticks, and that the two sides of the block share nothing else. -/

namespace Sys2Proof.Machine

open Sys2Proof.Spec

/-! ### One tick (rules R280 to R282) -/

/-- The response of a tick: the status word with the fill code, K, and K frames. -/
def tickWords (s : State) : List Word :=
  statusWord .ok (fillInfo (tickFrames s) (tickAvailable s)) :: BitVec.ofNat 32 (tickFrames s) ::
    ((tickPop s).1 ++ tickFill (tickFrames s) (tickAvailable s) (tickPop s).1)

/-- The state a tick leaves, its response not counted. -/
def tickState (s : State) : State := { s with acc := tickAcc s, ringOut := (tickPop s).2 }

theorem exec_sofTick {s : State} (h : s.issuer = .tx) :
    exec .sofTick s = .next (answered .tx (tickWords s) (tickState s)) := by
  have hissuer : (tickState s).issuer = .tx := h
  rw [← hissuer]
  exact (if_pos (mayTick_iff.mpr h)).trans (congrArg _ (respond_eq_answered ..))

/-! ### Obligation O49 -/

/-- n copies of a frame of one word twice are 2n copies of the word. -/
theorem repeatFrame_same (n : Nat) (w : Word) : repeatFrame n w w = List.replicate (2 * n) w := by
  induction n with
  | zero => rfl
  | succ n ih => rw [repeatFrame, ih]; rfl

section Fill
variable {k m : Nat} (ws : List Word)

theorem tickFill_of_enough (h : m = k) : tickFill k m ws = [] := if_neg (by omega)

theorem tickFill_of_short (h : m < k) (h0 : 0 < m) :
    tickFill k m ws = repeatFrame (k - m) (ws.getD (2 * m - 2) 0) (ws.getD (2 * m - 1) 0) :=
  (if_pos h).trans (if_pos h0)

theorem tickFill_of_none (h : 0 < k) : tickFill k 0 ws = repeatFrame k 0 0 := (if_pos h).trans (if_neg (by omega))

theorem fillWord_of_enough (h : m = k) : statusWord .ok (fillInfo k m) = 0x00000000 := by
  rw [fillInfo, if_neg (by omega)]; decide

theorem fillWord_of_short (h : m < k) (h0 : 0 < m) : statusWord .ok (fillInfo k m) = 0x00000100 := by
  rw [fillInfo, if_pos h, if_pos h0]; decide

theorem fillWord_of_none (h : 0 < k) : statusWord .ok (fillInfo k 0) = 0x00000200 := by
  rw [fillInfo, if_pos h, if_neg (by omega)]; decide

end Fill

section Pop
variable {s : State} (hw : RingWf s.cfg.ringN s.ringOut)
include hw

/-- m in whole frames of live words (rule R281). -/
theorem tickAvailable_eq_liveCount :
    tickAvailable s = min (tickFrames s) (liveCount s.cfg.ringN s.ringOut / 2) := by
  rw [tickAvailable, ringSize_eq_liveCount hw]

/-- A tick pops the 2m oldest live words (rule R281). -/
theorem tickPop_words : (tickPop s).1 = (live s.cfg.ringN s.ringOut).take (2 * tickAvailable s) := by
  rw [tickPop_eq hw]
  exact readCells_eq_take_live (by rw [← ringSize_eq_liveCount hw]; exact tickAvailable_le s)

theorem tickPop_ring :
    (tickPop s).2 = ⟨s.ringOut.buf, (s.ringOut.rd + 2 * tickAvailable s) % s.cfg.ringN, s.ringOut.wr⟩ := by
  rw [tickPop_eq hw]

end Pop

/-- Settles O49: the 2m words popped are the oldest live ones; the status word and the fill go by the three cases. -/
theorem sofTickDeliversKFrames : Obligations.SofTickDeliversKFrames := by
  intro s htx hw n total k m ws after
  have hm : tickAvailable s = m := tickAvailable_eq_liveCount hw
  have hk : tickFrames s = k := rfl
  have hws : (tickPop s).1 = ws := by rw [tickPop_words hw, hm]
  have hafter : tickState s = after := by
    rw [tickState, tickPop_ring hw, hm]
    rfl
  rw [exec_sofTick htx, hafter, tickWords, hws, hm, hk]
  refine ⟨fun hall => ?_, fun hshort hsome => ?_, fun hshort hnone => ?_⟩
  · rw [fillWord_of_enough hall, tickFill_of_enough ws hall, List.append_nil]
  · rw [fillWord_of_short hshort hsome, tickFill_of_short ws hshort hsome, repeatFrame_eq]
  · have hempty : ws = [] := by simp [ws, hnone]
    rw [hnone] at hshort
    rw [hnone, hempty, fillWord_of_none hshort, tickFill_of_none [] hshort, repeatFrame_same, List.nil_append]

/-! ### Obligation O50: the clock (rule R283) -/

/-- ACC after a tick is the remainder (rule R280). -/
theorem tickAcc_toNat (s : State) : (tickAcc s).toNat = (s.acc.toNat + s.curRate.toNat) % 1000 := by
  rw [tickAcc, BitVec.toNat_ofNat, cadenceHz]
  omega

section Clock
variable {s : State} (h : s.issuer = .tx)
include h

/-- Ticks leave TX the issuing port, so every tick of a run is permitted. -/
theorem afterTicks_issuer (ticks : Nat) : (afterTicks ticks s).issuer = .tx := by
  induction ticks with
  | zero => exact h
  | succ n ih =>
    rw [afterTicks, exec_sofTick ih]
    exact ih

theorem afterTicks_succ (ticks : Nat) : afterTicks (ticks + 1) s =
    answered .tx (tickWords (afterTicks ticks s)) (tickState (afterTicks ticks s)) := by
  rw [afterTicks, exec_sofTick (afterTicks_issuer h ticks)]

theorem afterTicks_curRate (ticks : Nat) : (afterTicks ticks s).curRate = s.curRate := by
  induction ticks with
  | zero => rfl
  | succ n ih =>
    rw [afterTicks_succ h]
    exact ih

/-- ACC after T ticks is the remainder of the whole sum. -/
theorem afterTicks_acc (ticks : Nat) (hacc : s.acc.toNat < 1000) :
    (afterTicks ticks s).acc.toNat = (s.acc.toNat + ticks * s.curRate.toNat) % 1000 := by
  induction ticks with
  | zero => simp [afterTicks, Nat.mod_eq_of_lt hacc]
  | succ n ih =>
    have hstep : (afterTicks (n + 1) s).acc = tickAcc (afterTicks n s) := by rw [afterTicks_succ h]; rfl
    rw [hstep, tickAcc_toNat, ih, afterTicks_curRate h, Nat.mod_add_mod, Nat.succ_mul, Nat.add_assoc]

theorem afterTicks_resp (ticks : Nat) :
    (afterTicks (ticks + 1) s).tx.resp = (afterTicks ticks s).tx.resp ++ tickWords (afterTicks ticks s) := by
  rw [afterTicks_succ h]
  rfl

/-- The word after a tick's status word is K, so each tick adds its K to the total. -/
theorem framesDelivered_succ (ticks : Nat) :
    framesDelivered (ticks + 1) s = framesDelivered ticks s + tickFrames (afterTicks ticks s) := by
  have hword : ((afterTicks (ticks + 1) s).tx.resp.getD ((afterTicks ticks s).tx.resp.length + 1) 0).toNat =
      tickFrames (afterTicks ticks s) := by
    rw [afterTicks_resp h, List.getD_append_right _ _ _ _ (by omega), Nat.add_sub_cancel_left]
    exact Nat.mod_eq_of_lt (tickFrames_lt _)
  rw [framesDelivered, List.range_succ, List.map_append, List.sum_append, List.map_singleton, List.sum_singleton, hword]
  rfl

/-- The frames of T ticks are the quotient of the whole sum: each tick carries its remainder on. -/
theorem framesDelivered_eq (ticks : Nat) (hacc : s.acc.toNat < 1000) :
    framesDelivered ticks s = (s.acc.toNat + ticks * s.curRate.toNat) / 1000 := by
  induction ticks with
  | zero => simp [framesDelivered, Nat.div_eq_of_lt hacc]
  | succ n ih =>
    rw [framesDelivered_succ h, ih, tickFrames, afterTicks_acc h n hacc, afterTicks_curRate h, cadenceHz, Nat.succ_mul]
    omega

/-- Each tick answers two words and two words a frame. -/
theorem afterTicks_resp_length (ticks : Nat) :
    (afterTicks ticks s).tx.resp.length = s.tx.resp.length + 2 * ticks + 2 * framesDelivered ticks s := by
  induction ticks with
  | zero => rfl
  | succ n ih =>
    rw [afterTicks_resp h, framesDelivered_succ h, List.length_append, ih, tickWords, List.length_cons,
      List.length_cons, tickData_length]
    omega

end Clock

/-- The floor and the nearest integer of a quotient differ by at most one. -/
theorem abs_div_sub_round_le (a b : Nat) : |((a / b : Nat) : Int) - round ((a : ℚ) / b)| ≤ 1 := by
  rw [Int.natCast_ediv, ← Rat.floor_natCast_div_natCast, round_eq]
  have hlow : ⌊(a : ℚ) / b⌋ ≤ ⌊(a : ℚ) / b + 1 / 2⌋ := Int.floor_mono (by linarith)
  have hhigh : ⌊(a : ℚ) / b + 1 / 2⌋ ≤ ⌊(a : ℚ) / b + 1⌋ := Int.floor_mono (by linarith)
  rw [Int.floor_add_one] at hhigh
  rw [abs_le]
  omega

/-- Settles O50, by induction on the ticks: quotient and remainder of the sum so far carry over a tick. -/
theorem clockReconciliation : Obligations.ClockReconciliation := by
  intro ticks s htx hacc t
  have hframes := framesDelivered_eq htx ticks hacc
  refine ⟨hframes, afterTicks_acc htx ticks hacc, afterTicks_curRate htx ticks, ?_, fun hzero => ?_⟩
  · rw [← hframes]
    exact afterTicks_resp_length htx ticks
  · rw [hframes, hzero, Nat.zero_add]
    exact abs_div_sub_round_le _ 1000

/-! ### Obligation O51: the two sides (rule R285) -/

section Congruence
variable {s s' : State} (hn : s.cfg.ringN = s'.cfg.ringN) (hrate : s.curRate = s'.curRate) (hacc : s.acc = s'.acc)
  (hout : s.ringOut = s'.ringOut)
include hn hrate hacc hout

theorem tickAvailable_congr : tickAvailable s = tickAvailable s' := by
  rw [tickAvailable, tickAvailable, tickFrames, tickFrames, hn, hrate, hacc, hout]

theorem tickPop_congr : tickPop s = tickPop s' := by
  rw [tickPop, tickPop, tickAvailable_congr hn hrate hacc hout, hn, hout]

/-- The response of a tick is a function of CUR_RATE, ACC and OUT (rule R285). -/
theorem tickWords_congr : tickWords s = tickWords s' := by
  have hk : tickFrames s = tickFrames s' := by rw [tickFrames, tickFrames, hrate, hacc]
  rw [tickWords, tickWords, tickAvailable_congr hn hrate hacc hout, tickPop_congr hn hrate hacc hout, hk]

end Congruence

/-- The block with another value in ACC. -/
def withAcc (a : BitVec 32) (s : State) : State := { s with acc := a }

section WithAcc
variable (a : BitVec 32) (s : State)

@[simp] theorem withAcc_cfg : (withAcc a s).cfg = s.cfg := rfl
@[simp] theorem withAcc_ringIn : (withAcc a s).ringIn = s.ringIn := rfl
@[simp] theorem withAcc_ringOut : (withAcc a s).ringOut = s.ringOut := rfl
@[simp] theorem withAcc_fxInited : (withAcc a s).fxInited = s.fxInited := rfl
@[simp] theorem withAcc_fxFatal : (withAcc a s).fxFatal = s.fxFatal := rfl

theorem setFormat_withAcc (d : Octet) (rate : BitVec 32) :
    setFormat d rate (withAcc a s) = withAcc a (setFormat d rate s) := by
  rw [setFormat_eq, setFormat_eq]
  rfl

theorem setEnabled_withAcc (e : Bool) : setEnabled e (withAcc a s) = withAcc a (setEnabled e s) := by
  cases hv : s.cfg.activeFx with
  | reverb =>
    rw [setEnabled_of_reverb hv, setEnabled_of_reverb (s := withAcc a s) hv]
    rfl
  | granular =>
    rw [setEnabled_of_granular hv, setEnabled_of_granular (s := withAcc a s) hv]
    rfl

theorem fxFrame_withAcc (f : Frame) : fxFrame (withAcc a s) f = (withAcc a (fxFrame s f).1, (fxFrame s f).2) := by
  cases hv : s.cfg.activeFx with
  | reverb =>
    rw [fxFrame_reverb hv, fxFrame_reverb (s := withAcc a s) hv]
    rfl
  | granular =>
    rw [fxFrame_granular hv, fxFrame_granular (s := withAcc a s) hv]
    rfl

theorem fxBlock_withAcc (fs : List Frame) :
    fxBlock (withAcc a s) fs = (withAcc a (fxBlock s fs).1, (fxBlock s fs).2) := by
  induction fs generalizing s with
  | nil => rfl
  | cons f fs ih => simp only [fxBlock, fxFrame_withAcc, ih]

theorem buildEffect_withAcc : buildEffect (withAcc a s) = (buildEffect s).map (withAcc a) := by
  cases hv : s.cfg.activeFx with
  | reverb =>
    by_cases hfit : Fits s.cfg s.fxRate.toNat s.cfg.left ∧ Fits s.cfg s.fxRate.toNat s.cfg.right
    · rw [buildEffect_reverb_of_fits hv hfit, buildEffect_reverb_of_fits (s := withAcc a s) hv hfit]
      rfl
    · rw [buildEffect_reverb_of_not_fits hv hfit, buildEffect_reverb_of_not_fits (s := withAcc a s) hv hfit]
      rfl
  | granular =>
    rw [buildEffect_granular hv, buildEffect_granular (s := withAcc a s) hv]
    rfl

theorem initEffect_withAcc : initEffect (withAcc a s) = (withAcc a (initEffect s).1, (initEffect s).2) := by
  have hbuild := buildEffect_withAcc a s
  cases hf : s.fxFatal with
  | true => rw [initEffect_of_fatal hf, initEffect_of_fatal (s := withAcc a s) hf]
  | false =>
    cases hb : buildEffect s with
    | none =>
      rw [hb] at hbuild
      rw [initEffect_of_not_built hf hb, initEffect_of_not_built (s := withAcc a s) hf hbuild]
      rfl
    | some t =>
      rw [hb] at hbuild
      rw [initEffect_of_built hf hb, initEffect_of_built (s := withAcc a s) hf hbuild]
      rfl

/-- What an invocation did, with another value in ACC. -/
def TaskResult.withAcc (b : TaskResult) : TaskResult := { b with state := Machine.withAcc a b.state }

theorem taskRebuild_withAcc (r : BitVec 32) :
    taskRebuild r (withAcc a s) = (withAcc a (taskRebuild r s).1, (taskRebuild r s).2) := by
  by_cases hr : r = 0
  · rw [hr, taskRebuild_zero, taskRebuild_zero]
  · rw [taskRebuild_of_ne_zero hr, taskRebuild_of_ne_zero hr, setFormat_withAcc, initEffect_withAcc]
    rfl

theorem pushResults_withAcc (n : Nat) (u : State) (fs : List Frame) :
    pushResults n (withAcc a u, fs) = (pushResults n (u, fs)).withAcc a := by
  simp only [pushResults, withAcc_ringOut]
  cases ringPush n u.ringOut (wordsOf fs) with
  | none => rfl
  | some out => rfl

theorem taskQuantum_withAcc : taskQuantum (withAcc a s) = (taskQuantum s).withAcc a := by
  cases hpop : ringPop s.cfg.ringN s.ringIn (2 * s.cfg.quantumFrames) with
  | none =>
    rw [taskQuantum_of_not_popped hpop, taskQuantum_of_not_popped (s := withAcc a s) hpop]
    rfl
  | some popped =>
    obtain ⟨ins, q⟩ := popped
    have hblock := fxBlock_withAcc a { s with ringIn := q } (framesOf ins)
    rw [taskQuantum_of_popped hpop, taskQuantum_of_popped (s := withAcc a s) hpop]
    exact (congrArg (pushResults _) hblock).trans (pushResults_withAcc ..)

theorem taskSteady_withAcc (r : BitVec 32) : taskSteady r (withAcc a s) = (taskSteady r s).withAcc a := by
  simp only [taskSteady, withAcc_cfg, withAcc_ringIn, withAcc_fxFatal, withAcc_fxInited, taskQuantum_withAcc]
  split_ifs <;> rfl

/-- An invocation does the same whatever ACC holds, and leaves it (rule R285). -/
theorem taskEffect_withAcc : taskEffect (withAcc a s) = (taskEffect s).withAcc a := by
  by_cases hrate : s.cfgIn.rate = s.curRate
  · rw [taskEffect_of_same_rate hrate, taskEffect_of_same_rate (s := withAcc a s) hrate]
    exact (congrArg _ (setEnabled_withAcc ..)).trans (taskSteady_withAcc ..)
  · have hbuild := taskRebuild_withAcc a { s with curRate := s.cfgIn.rate } s.cfgIn.rate
    rw [taskEffect_of_new_rate hrate rfl, taskEffect_of_new_rate (s := withAcc a s) hrate hbuild]
    exact congrArg (fun u => TaskResult.mk u _ _) (setEnabled_withAcc ..)

theorem taskEffect_acc : (taskEffect s).state.acc = s.acc := by rw [taskEffect_frame]

end WithAcc

theorem answered_withAcc (p : Port) (ws : List Word) (a : BitVec 32) (s : State) :
    answered p ws (withAcc a s) = withAcc a (answered p ws s) := by cases p <;> rfl

theorem answered_acc (p : Port) (ws : List Word) (s : State) : (answered p ws s).acc = s.acc := by cases p <;> rfl

/-- TASK_STEP, permitted or not, neither reads nor writes ACC (rule R285). -/
theorem exec_taskStep_withAcc (a : BitVec 32) (s : State) :
    ∃ t, exec .taskStep s = .next t ∧ t.acc = s.acc ∧ exec .taskStep (withAcc a s) = .next (withAcc a t) := by
  by_cases hctl : s.issuer = .ctl
  · refine ⟨_, exec_taskStep hctl, ?_, ?_⟩
    · rw [answered_acc, taskEffect_acc]
    · rw [exec_taskStep (s := withAcc a s) hctl, taskEffect_withAcc, ← answered_withAcc]
      rfl
  · have hport : s.issuer ∉ portsFor .taskStep := by simpa [portsFor]
    refine ⟨_, exec_of_not_permitted hport, answered_acc .., ?_⟩
    rw [exec_of_not_permitted (s := withAcc a s) hport, ← answered_withAcc]
    rfl

/-- Settles O51: a tick's words and ring by congruence in what it reads; TASK_STEP by its commuting with `withAcc`. -/
theorem transmitAndTaskSidesAreIndependent : Obligations.TransmitAndTaskSidesAreIndependent := by
  refine ⟨fun s s' htx htx' hn hrate hacc hout => ?_, fun s a => exec_taskStep_withAcc a s⟩
  refine ⟨tickWords s, tickAcc s, (tickPop s).2, exec_sofTick htx, ?_⟩
  have hremainder : tickAcc s = tickAcc s' := by rw [tickAcc, tickAcc, hrate, hacc]
  rw [exec_sofTick htx', tickWords_congr hn hrate hacc hout, tickPop_congr hn hrate hacc hout, hremainder]
  rfl

end Sys2Proof.Machine
end

section
/-! SUPPORT. Failure and waiting (60_exceptions.md, rules R302 to R307; rule R318): a command answers, and either
did its work or changed nothing else; a step with no command takes an arrival; and no command clears FX_FATAL. -/

namespace Sys2Proof.Machine

open Sys2Proof.Spec

/-! ### How a command ends (rules R302, R304, R306) -/

/-- How command i, run in state s, ends: never but with an answer. -/
inductive CommandOutcome (i : Instr) (s : State) : Result → Prop
  /-- A check failed: the status word and nothing else. -/
  | rejected (st : Status) : CommandOutcome i s (.next (reject st s))
  /-- The checks passed. Only FX_INIT and TASK_STEP may do work and answer a failure all the same. -/
  | performed {st : Status} {info : Octet} {data : List Word} {u : State} (ports_eq : ports u = ports s)
      (ok : i ≠ .fxInit → i ≠ .taskStep → st = .ok) : CommandOutcome i s (.next (respond st info data u))

namespace CommandOutcome
variable {i : Instr} {s : State}

theorem of_ifPermitted {permitted : Bool} {body : Result} (h : CommandOutcome i s body) :
    CommandOutcome i s (ifPermitted permitted s body) := by
  cases permitted
  · exact .rejected .port
  · exact h

theorem goesOn {o : Result} (h : CommandOutcome i s o) : GoesOn o := by
  cases h <;> exact ⟨_, rfl⟩

end CommandOutcome

/-- Every command ends in one of these ways: its port check and its own checks first, then its work (rule R111). -/
theorem exec_outcome (i : Instr) (s : State) : CommandOutcome i s (exec i s) := by
  cases i with
  | rbPush r data =>
    refine .of_ifPermitted ?_
    split
    · exact .rejected .capacity
    · exact .performed (ports_setRing ..) fun _ _ => rfl
  | rbPop r n =>
    refine .of_ifPermitted ?_
    split
    · exact .rejected .capacity
    · exact .performed (ports_setRing ..) fun _ _ => rfl
  | rbSize r | rbFree r | fxName => exact .of_ifPermitted (.performed rfl fun _ _ => rfl)
  | fxInit => exact .of_ifPermitted (.performed (ports_initEffect s) fun hne => absurd rfl hne)
  | fxSetFormat d rate =>
    refine .of_ifPermitted ?_
    split
    · exact .rejected .badArg
    · exact .performed (ports_setFormat ..) fun _ _ => rfl
  | fxSetEnabled e => exact .of_ifPermitted (.performed (ports_setEnabled ..) fun _ _ => rfl)
  | fxSetParam ident v => exact .of_ifPermitted (.performed (ports_setParam ..) fun _ _ => rfl)
  | fxProcess frames =>
    refine .of_ifPermitted ?_
    split
    · exact .rejected .fatal
    · split
      · exact .rejected .notInit
      · exact .performed (ports_fxBlock ..) fun _ _ => rfl
  | taskStep => exact .of_ifPermitted (.performed (ports_taskEffect s) fun _ hne => absurd rfl hne)
  | sofTick => exact .of_ifPermitted (.performed rfl fun _ _ => rfl)

/-! ### Obligation O13 -/

/-- Settles O13: what is fetched is either settled already or a command, and a command answers (`exec_outcome`). -/
theorem stepNeverStops : Obligations.StepNeverStops := by
  refine fun s => ⟨fun hc => ?_, fun hc => by simp [step, hc]⟩
  rw [step_of_fetch hc]
  cases fetch s with
  | settled t => exact ⟨t, rfl⟩
  | run i t => exact (exec_outcome i t).goesOn

/-! ### Obligation O18 -/

/-- The status word of an answer given in a state whose ports are as they were, read back from the response stream. -/
theorem status_of_respond {s u : State} (hu : ports u = ports s) {st : Status} {info : Octet} {words data : List Word}
    {status : Word} (hresp : (getPort s.issuer (respond st info words u)).resp =
      (getPort s.issuer s).resp ++ status :: data) : status = statusWord st info := by
  obtain ⟨hissuer, hrx, htx, hctl⟩ : u.issuer = s.issuer ∧ u.rx = s.rx ∧ u.tx = s.tx ∧ u.ctl = s.ctl := by
    simpa only [ports, Prod.mk.injEq] using hu
  have hport : getPort s.issuer u = getPort s.issuer s := by
    cases s.issuer
    · exact hrx
    · exact htx
    · exact hctl
  rw [← hport, ← hissuer, respond_getPort_issuer, emit_resp, List.append_cancel_left_eq, List.cons.injEq] at hresp
  exact hresp.1.symm

/-- Settles O18: a rejection is its status word alone; a command that did its work answers OK (`exec_outcome`). -/
theorem rejectedCommandsChangeNothing : Obligations.RejectedCommandsChangeNothing := by
  intro i s t status data h hinit htask hresp hcode
  have hout := exec_outcome i s
  rw [h] at hout
  cases hout with
  | rejected st =>
    rw [status_of_respond rfl hresp]
    exact respond_eq_answered ..
  | performed ports_eq ok =>
    rw [status_of_respond ports_eq hresp, statusWord_code, ok hinit htask] at hcode
    exact absurd rfl hcode

/-! ### Obligation O8 -/

theorem nextArrival_of_nil {s : State} (h : s.arrivals = []) : nextArrival s = s := by rw [nextArrival, h]

theorem nextArrival_of_cons {s : State} {a : Arrival} {rest : List Arrival} (h : s.arrivals = a :: rest) :
    nextArrival s = applyArrival a { s with arrivals := rest } := by rw [nextArrival, h]

/-- Settles O8: no port goes next, so the step is `nextArrival`, by what comes next. -/
theorem waitingTakesTheNextArrival : Obligations.WaitingTakesTheNextArrival := by
  intro s rest hc hrx htx hctl
  have hstep : step s = .next (nextArrival s) := by
    rw [step_of_fetch hc, fetch_none (nextPort_none.mpr ⟨hrx, htx, hctl⟩)]
  refine ⟨fun harr => ?_, fun a b c harr => ?_, fun v harr => ?_, fun b harr => ?_⟩
  · rw [hstep, nextArrival_of_nil harr]
  · rw [hstep, nextArrival_of_cons harr]; rfl
  · rw [hstep, nextArrival_of_cons harr]; rfl
  · rw [hstep, nextArrival_of_cons harr]; rfl

/-! ### Obligation O52 -/

/-- FX_INIT is the one operation of a task invocation that writes FX_FATAL, and where it is set does nothing. -/
theorem taskClosed_fxFatal : TaskClosed fun u => u.fxFatal = true where
  rate _ _ h := h
  format _ _ _ h := (setFormat_fxFatal ..).trans h
  init _ h := by rwa [initEffect_of_fatal h]
  enabled _ _ h := (setEnabled_fxFatal ..).trans h
  pop _ _ _ _ _ h := h
  block _ _ h := by rwa [fxBlock_frame]
  push _ _ _ _ h := h

theorem CommandEffect.keeps_fxFatal {i : Instr} {s u : State} (he : CommandEffect s i u) (h : s.fxFatal = true) :
    u.fxFatal = true := by
  have w := he.writesOnly
  cases he with
  | unchanged => exact h
  | init => rwa [initEffect_of_fatal h]
  | task => exact taskClosed_fxFatal.taskEffect h
  | _ => exact (w.fatal nofun nofun).trans h

theorem exec_keeps_fxFatal {i : Instr} {s t : State} (h : s.fxFatal = true) (he : exec i s = .next t) :
    t.fxFatal = true := by
  obtain ⟨st, info, data, u, hu, rfl⟩ := exec_effect he
  exact (respond_fxFatal ..).trans (hu.keeps_fxFatal h)

/-- Of what the outside world does, reset alone writes FX_FATAL (rule R330). -/
theorem nextArrival_fxFatal (s : State) :
    (nextArrival s).fxFatal = s.fxFatal ∨ ∃ rest, s.arrivals = .reset :: rest := by
  cases harr : s.arrivals with
  | nil => exact .inl (by rw [nextArrival_of_nil harr])
  | cons a rest =>
    rw [nextArrival_of_cons harr]
    cases a with
    | words | cfg | ctlIn => exact .inl rfl
    | reset => exact .inr ⟨rest, rfl⟩

/-- Settles O52: by what a step can be (`step_cases`), an arrival, an ILLEGAL answer or a command. -/
theorem onlyResetClearsTheFatalFlag : Obligations.OnlyResetClearsTheFatalFlag := by
  intro s t hf hstep
  obtain ⟨-, ⟨hnone, rfl⟩ | ⟨p, _, rest, -, -, rfl⟩ | ⟨p, i, rest, -, -, hexec⟩⟩ := step_cases hstep
  · obtain hkept | hreset := nextArrival_fxFatal s
    · exact .inl (hkept.trans hf)
    · exact .inr ⟨hnone, hreset⟩
  · exact .inl (by rwa [reject_eq, respond_fxFatal, takeCommand_fxFatal])
  · exact .inl (exec_keeps_fxFatal (by rwa [takeCommand_fxFatal]) hexec)

end Sys2Proof.Machine
end
